-- ==== Sys2Proof/Word.lean ====
section
/-! DEFINITION. The word types of the block: the widths that 10_state.md and 30_encoding.md give.
Bits are numbered from 0 at the least significant end and signed values are two's complement (R6). -/

namespace Sys2Proof

/-- One event word: 80 bits (R57). -/
abbrev EventWord := BitVec 80

/-- `u32` (R6): times, intervals and counts. `TS_W` = 32 (R5). -/
abbrev U32 := BitVec 32

/-- `i32` (R6): raw readings and tare offsets (R25, R27). -/
abbrev I32 := BitVec 32

/-- `i64` (R6): positions, the overflow counter, the sample sum (R11, R18, R24). -/
abbrev I64 := BitVec 64

/-- `i16`: the bounded counter, `PCNT_REG_W` = 16 bits (R5, R17). -/
abbrev I16 := BitVec 16

/-- `f32`: a binary32 bit pattern (R9). -/
abbrev F32 := BitVec 32

/-- One serial sample as received, 24 bits, first-received bit at bit 23 (R61, R125). -/
abbrev Sample := BitVec 24

/-- The channel field of an event word: 4 bits, unsigned (R41, R57). -/
abbrev ChanIx := BitVec 4

/-- A phase state `{a, b}`: line A is bit 1, line B is bit 0 (R12). -/
abbrev PhaseState := BitVec 2

/-- One response lane (R62). -/
abbrev Lane := BitVec 64

/-- One byte of a serialised event word (R43). -/
abbrev Byte := BitVec 8

end Sys2Proof
end

