-- ==== Sys2Proof/Syntax.lean ====
section
/-! DEFINITION. The events of the block (R56, R58), one constructor for each row of spec/opcode_table.json, with the
operands of the row's format (R59 to R61). Line levels and `ready` are single bits, held as `Bool`. -/

namespace Sys2Proof

/-- One event (R56). -/
inductive Instr where
  /-- `INIT`, op 0x1, format I (R150). -/
  | init (a b z : Bool) (now : U32)
  /-- `PHASE`, op 0x2, format P (R81). -/
  | phase (a b : Bool) (now : U32)
  /-- `INDEX`, op 0x3, format Z (R116). -/
  | index (z : Bool)
  /-- `GET_POS`, op 0x4, format N (R85). -/
  | getPos
  /-- `RESET_POS`, op 0x5, format N (R86). -/
  | resetPos
  /-- `SET_POS`, op 0x6, format V (R87). -/
  | setPos (v : I64)
  /-- `SNAPSHOT`, op 0x7, format N (R88). -/
  | snapshot
  /-- `GET_INDEX`, op 0x8, format N (R117). -/
  | getIndex
  /-- `LC_POLL`, op 0x9, format L (R127). -/
  | lcPoll (ch : ChanIx) (ready : Bool) (smp : Sample) (now : U32)
  /-- `TARE`, op 0xA, format C (R130). -/
  | tare (ch : ChanIx)
  /-- `CALIBRATE`, op 0xB, format W (R131). -/
  | calibrate (ch : ChanIx) (wt : F32)
  /-- `GET_FORCE`, op 0xC, format C (R132). -/
  | getForce (ch : ChanIx)
  /-- `GET_RAW`, op 0xD, format C (R133). -/
  | getRaw (ch : ChanIx)
  /-- `GET_SCALE`, op 0xE, format C (R134). -/
  | getScale (ch : ChanIx)
deriving DecidableEq, Repr

/-- The two agents (R8, R46, R165). -/
inductive Agent where
  /-- The line sampler: the interrupt-context domain. -/
  | lineSampler
  /-- The host: the polled-context domain. -/
  | host
deriving DecidableEq, Repr

/-- Which agent an event belongs to: `PHASE` and `INDEX` are line events, the rest are host operations (R4, R56). -/
def Instr.agent : Instr → Agent
  | .phase _ _ _ => .lineSampler
  | .index _ => .lineSampler
  | .init _ _ _ _ => .host
  | .getPos => .host
  | .resetPos => .host
  | .setPos _ => .host
  | .snapshot => .host
  | .getIndex => .host
  | .lcPoll _ _ _ _ => .host
  | .tare _ => .host
  | .calibrate _ _ => .host
  | .getForce _ => .host
  | .getRaw _ => .host
  | .getScale _ => .host

/-- The channel an event addresses, if it is one of the six channel operations (R41). -/
def Instr.channel : Instr → Option ChanIx
  | .lcPoll ch _ _ _ => some ch
  | .tare ch => some ch
  | .calibrate ch _ => some ch
  | .getForce ch => some ch
  | .getRaw ch => some ch
  | .getScale ch => some ch
  | .init _ _ _ _ => none
  | .phase _ _ _ => none
  | .index _ => none
  | .getPos => none
  | .resetPos => none
  | .setPos _ => none
  | .snapshot => none
  | .getIndex => none

end Sys2Proof
end

