-- ==== Sys2Proof/Decode.lean ====
section
/-! DEFINITION. Decoding of an event word (R57 to R61, R65, R69), the encoder written from the same tables, the opcode
table itself as rows of match and mask, and the serialisation of a word as ten bytes (R43). -/

namespace Sys2Proof

/-- Why a word is reserved: the four conditions of R65. -/
inductive ReservedWhy where
  /-- `op` is 0x0 or 0xF. -/
  | opcode
  /-- `rsv` is not 0. -/
  | rsvField
  /-- `ch` is not 0 in a format without a channel. -/
  | channelField
  /-- A bit of `data` that must be 0 is 1. -/
  | dataBits
deriving DecidableEq, Repr

/-- The result of decoding (R69): an event, or RESERVED with the reason. -/
inductive Decoded where
  | event (i : Instr)
  | reserved (why : ReservedWhy)
deriving DecidableEq, Repr

/-! The fixed fields (R57). -/

/-- `op = w[79:76]`. -/
def opField (w : EventWord) : BitVec 4 := w.extractLsb' 76 4

/-- `ch = w[75:72]`. -/
def chField (w : EventWord) : ChanIx := w.extractLsb' 72 4

/-- `rsv = w[71:64]`. -/
def rsvField (w : EventWord) : BitVec 8 := w.extractLsb' 64 8

/-- `data = w[63:0]`. -/
def dataField (w : EventWord) : BitVec 64 := w.extractLsb' 0 64

/-! The operand fields of `data` (R59 to R61). -/

/-- `now = data[31:0]` of formats P, I and L, and `wt` of format W. -/
def lowWord (d : BitVec 64) : U32 := d.extractLsb' 0 32

/-- `b = data[32]` of formats P and I. -/
def bField (d : BitVec 64) : Bool := d.getLsbD 32

/-- `a = data[33]` of formats P and I. -/
def aField (d : BitVec 64) : Bool := d.getLsbD 33

/-- `z = data[34]` of format I. -/
def zFieldI (d : BitVec 64) : Bool := d.getLsbD 34

/-- `z = data[0]` of format Z. -/
def zField (d : BitVec 64) : Bool := d.getLsbD 0

/-- `smp = data[55:32]` of format L. -/
def smpField (d : BitVec 64) : Sample := d.extractLsb' 32 24

/-- `ready = data[56]` of format L. -/
def readyField (d : BitVec 64) : Bool := d.getLsbD 56

/-- The bits of `data` from bit `n` up are all 0. -/
def zeroFrom (d : BitVec 64) (n : Nat) : Bool := d >>> n == 0

/-- An event of a format with a channel whose `data` bits from `n` up must be 0. -/
def withChannel (d : BitVec 64) (n : Nat) (i : Instr) : Decoded :=
  if zeroFrom d n then .event i else .reserved .dataBits

/-- An event of a format without a channel (P, Z, I, N, V): `ch` must be 0 too. -/
def noChannel (ch : ChanIx) (d : BitVec 64) (n : Nat) (i : Instr) : Decoded :=
  if ch = 0 then withChannel d n i else .reserved .channelField

/-- `op` names the event and its format's table gives the operands (R58 to R61). -/
def decodeFields (op : BitVec 4) (ch : ChanIx) (d : BitVec 64) : Decoded :=
  match op.toNat with
  | 1 => noChannel ch d 35 (.init (aField d) (bField d) (zFieldI d) (lowWord d))
  | 2 => noChannel ch d 34 (.phase (aField d) (bField d) (lowWord d))
  | 3 => noChannel ch d 1 (.index (zField d))
  | 4 => noChannel ch d 0 .getPos
  | 5 => noChannel ch d 0 .resetPos
  | 6 => noChannel ch d 64 (.setPos d)
  | 7 => noChannel ch d 0 .snapshot
  | 8 => noChannel ch d 0 .getIndex
  | 9 => withChannel d 57 (.lcPoll ch (readyField d) (smpField d) (lowWord d))
  | 10 => withChannel d 0 (.tare ch)
  | 11 => withChannel d 32 (.calibrate ch (lowWord d))
  | 12 => withChannel d 0 (.getForce ch)
  | 13 => withChannel d 0 (.getRaw ch)
  | 14 => withChannel d 0 (.getScale ch)
  | _ => .reserved .opcode

/-- Decoding, total on 80-bit words (R69): the tests of R65 in the order op, rsv, ch, data. -/
def decode (w : EventWord) : Decoded :=
  if opField w = 0x0#4 ∨ opField w = 0xF#4 then .reserved .opcode
  else if rsvField w = 0 then decodeFields (opField w) (chField w) (dataField w)
  else .reserved .rsvField

/-! The encoder, from the same tables. -/

/-- `{op, ch, rsv = 0, data}` (R57). -/
def layout (op : BitVec 4) (ch : ChanIx) (data : BitVec 64) : EventWord := op ++ ch ++ 0#8 ++ data

/-- Format I (R59): 29 zero bits, then z, a, b, now. -/
def dataI (a b z : Bool) (now : U32) : BitVec 64 :=
  0#29 ++ BitVec.ofBool z ++ BitVec.ofBool a ++ BitVec.ofBool b ++ now

/-- Format P (R59): 30 zero bits, then a, b, now. -/
def dataP (a b : Bool) (now : U32) : BitVec 64 :=
  0#30 ++ BitVec.ofBool a ++ BitVec.ofBool b ++ now

/-- Format Z (R59): 63 zero bits, then z. -/
def dataZ (z : Bool) : BitVec 64 := 0#63 ++ BitVec.ofBool z

/-- Format W (R60): 32 zero bits, then wt. -/
def dataW (wt : F32) : BitVec 64 := 0#32 ++ wt

/-- Format L (R61): 7 zero bits, then ready, smp, now. -/
def dataL (ready : Bool) (smp : Sample) (now : U32) : BitVec 64 :=
  0#7 ++ BitVec.ofBool ready ++ smp ++ now

/-- The event word of an event (R57 to R61). -/
def encode : Instr → EventWord
  | .init a b z now => layout 0x1 0 (dataI a b z now)
  | .phase a b now => layout 0x2 0 (dataP a b now)
  | .index z => layout 0x3 0 (dataZ z)
  | .getPos => layout 0x4 0 0
  | .resetPos => layout 0x5 0 0
  | .setPos v => layout 0x6 0 v
  | .snapshot => layout 0x7 0 0
  | .getIndex => layout 0x8 0 0
  | .lcPoll ch ready smp now => layout 0x9 ch (dataL ready smp now)
  | .tare ch => layout 0xA ch 0
  | .calibrate ch wt => layout 0xB ch (dataW wt)
  | .getForce ch => layout 0xC ch 0
  | .getRaw ch => layout 0xD ch 0
  | .getScale ch => layout 0xE ch 0

/-! The opcode table (spec/opcode_table.json, R58). -/

/-- One row: a word `w` is this row's when `w &&& mask = bits`. -/
structure OpcodeRow where
  mnemonic : String
  bits : EventWord
  mask : EventWord
deriving DecidableEq, Repr

/-- Whether a word matches a row. -/
def OpcodeRow.covers (r : OpcodeRow) (w : EventWord) : Bool := w &&& r.mask == r.bits

/-- The fourteen rows, copied from the table. -/
def opcodeTable : List OpcodeRow :=
  [⟨"INIT", 0x10000000000000000000, 0xFFFFFFFFFFF800000000⟩,
   ⟨"PHASE", 0x20000000000000000000, 0xFFFFFFFFFFFC00000000⟩,
   ⟨"INDEX", 0x30000000000000000000, 0xFFFFFFFFFFFFFFFFFFFE⟩,
   ⟨"GET_POS", 0x40000000000000000000, 0xFFFFFFFFFFFFFFFFFFFF⟩,
   ⟨"RESET_POS", 0x50000000000000000000, 0xFFFFFFFFFFFFFFFFFFFF⟩,
   ⟨"SET_POS", 0x60000000000000000000, 0xFFFF0000000000000000⟩,
   ⟨"SNAPSHOT", 0x70000000000000000000, 0xFFFFFFFFFFFFFFFFFFFF⟩] ++
  [⟨"GET_INDEX", 0x80000000000000000000, 0xFFFFFFFFFFFFFFFFFFFF⟩,
   ⟨"LC_POLL", 0x90000000000000000000, 0xF0FFFE00000000000000⟩,
   ⟨"TARE", 0xA0000000000000000000, 0xF0FFFFFFFFFFFFFFFFFF⟩,
   ⟨"CALIBRATE", 0xB0000000000000000000, 0xF0FFFFFFFFFF00000000⟩,
   ⟨"GET_FORCE", 0xC0000000000000000000, 0xF0FFFFFFFFFFFFFFFFFF⟩,
   ⟨"GET_RAW", 0xD0000000000000000000, 0xF0FFFFFFFFFFFFFFFFFF⟩,
   ⟨"GET_SCALE", 0xE0000000000000000000, 0xF0FFFFFFFFFFFFFFFFFF⟩]

/-- An event's mnemonic (R58). -/
def Instr.mnemonic : Instr → String
  | .init _ _ _ _ => "INIT"
  | .phase _ _ _ => "PHASE"
  | .index _ => "INDEX"
  | .getPos => "GET_POS"
  | .resetPos => "RESET_POS"
  | .setPos _ => "SET_POS"
  | .snapshot => "SNAPSHOT"
  | .getIndex => "GET_INDEX"
  | .lcPoll _ _ _ _ => "LC_POLL"
  | .tare _ => "TARE"
  | .calibrate _ _ => "CALIBRATE"
  | .getForce _ => "GET_FORCE"
  | .getRaw _ => "GET_RAW"
  | .getScale _ => "GET_SCALE"

/-! Bytes (R43, D27): ten of them, the most significant first. -/

/-- Byte `k` of a word, byte 0 the most significant. -/
def wordByte (w : EventWord) (k : Nat) : Byte := w.extractLsb' (8 * (9 - k)) 8

/-- A word as ten bytes, most significant first (R43). -/
def toBytes (w : EventWord) : List Byte := (List.range 10).map (wordByte w)

/-- The word that a list of bytes, most significant first, spells. -/
def joinBytes (bs : List Byte) : EventWord := bs.foldl (fun w x => (w <<< 8) ||| x.setWidth 80) 0

/-- One event word from the front of a stream of bytes, with the rest of the stream; none when fewer than ten are
there (R43, R57: there is one length). -/
def takeWord (bs : List Byte) : Option (EventWord × List Byte) :=
  if (bs.take 10).length = 10 then some (joinBytes (bs.take 10), bs.drop 10) else none

/-- Decoding of a stream of bytes: the first event word's meaning and the rest. -/
def decodeBytes (bs : List Byte) : Option (Decoded × List Byte) :=
  (takeWord bs).map fun p => (decode p.1, p.2)

/-- The instruction the decoder reads from a word whose bits are numbered as spec/opcode_table.json numbers them. The
table's unit is the 80-bit event word itself (R57), so the number is the word; its ten bytes are laid out in the order
of R43 and given to the byte decoder (log 13). -/
def decodeTableWord (nbits w : Nat) : Option Instr :=
  if nbits ≤ 80 ∧ w < 2 ^ 80 then
    match decodeBytes (toBytes (BitVec.ofNat 80 w)) with
    | some (.event i, _) => some i
    | some (.reserved _, _) => none
    | none => none
  else none

end Sys2Proof
end

