-- ==== Sys2Proof/Config.lean ====
section
/-! DEFINITION. The configuration record CFG (R5) and the one free value of the block (R9, 93 U8).
CFG is a parameter of the step function, fixed before the first step (R5, R32). The host's interface gives the step
one argument, so State carries the record (log 1). Which records are legal is `cfgLegal` in Machine/Setup.lean. -/

namespace Sys2Proof

/-- `VARIANT` (R5): the active decoder variant. -/
inductive Variant where
  /-- The edge-decode strategy (R82). -/
  | edge
  /-- The bounded counter and its overflow counter (R101). -/
  | pcnt
deriving DecidableEq, Repr

/-- The fields of `CFG` that the block uses, in the order of R5's table. `PCNT_REG_W` = 16 and `TS_W` = 32 are fixed
(R5) and stand in the types `I16` and `U32`. -/
structure Cfg where
  /-- `VARIANT`. -/
  variant : Variant
  /-- `GLITCH_US`, microseconds; 0 disables the filter. -/
  glitchUs : U32
  /-- `N_CH`: 1 or 2. -/
  nCh : Nat
  /-- `OVERSAMPLE`. -/
  oversample : U32
  /-- `FLUSH_TIMEOUT_US`, microseconds. -/
  flushTimeoutUs : U32
  /-- `BETA`, a binary32 pattern. -/
  beta : F32
  /-- `PCNT_RANGE`. -/
  pcntRange : Nat
  /-- `PCNT_SCALE`. -/
  pcntScale : Nat
deriving DecidableEq, Repr

/-- FREE VALUE (log 7). Sign and payload of the NaN that the flush arithmetic of a channel produces are left open (R9,
93 U8). The arguments are the channel's index and how many NaNs that channel has produced before. There is no body:
nothing can be proved of a value of it. A value that is no NaN pattern is read as one by `f32Nan`. -/
opaque Config.freeNaN : Nat → Nat → F32

end Sys2Proof
end

