-- ==== Sys2Proof/Machine/Setup.lean ====
section
/-! DEFINITION. Which configuration records are legal (R5's table), and the record State.reset carries (log 2). -/

namespace Sys2Proof.Machine

/-- The bits of the binary32 value 1.0, `ONE` (R9). -/
def f32One : F32 := 0x3F800000#32

/-- `0 < BETA <= 1` (R5, D24). On patterns with sign 0 the order of the values is the order of the patterns. -/
def betaLegal (beta : F32) : Bool := 0#32 < beta && beta <= f32One

/-- The legal ranges of R5. -/
def cfgLegal (c : Cfg) : Bool :=
  (c.nCh == 1 || c.nCh == 2) && 1#32 ≤ c.oversample && betaLegal c.beta &&
  (1 ≤ c.pcntRange && c.pcntRange ≤ 2 ^ 15 - 1) && (1 ≤ c.pcntScale && c.pcntScale ≤ 2 ^ 31 - 1)

/-- The record State.reset carries: the defaults that 95_test_vectors.md uses "unless a vector says otherwise", and a
legal value where it has none (log 2). Every field is OPEN in the spec but `PCNT_SCALE`, so no statement rests on it. -/
def benchCfg : Cfg :=
  { variant := .edge
    glitchUs := 0
    nCh := 1
    oversample := 1
    flushTimeoutUs := 1000000
    beta := f32One
    pcntRange := 32767
    pcntScale := 1 }

end Sys2Proof.Machine
end

