-- ==== Sys2Proof/Machine/Binary32.lean ====
section
/-! DEFINITION. Binary32 arithmetic (R9): IEEE 754 binary32 on bit patterns, every operation rounded to nearest, ties to
even, with no fused operation and no wider intermediate. Every finite binary32 value is a whole number of units of
2^-149, so each operation is computed exactly on integers and rounded once (log 15). -/

namespace Sys2Proof.Machine

/-- The sign bit. -/
def f32Neg (x : F32) : Bool := x.msb

/-- The pattern without its sign: exponent and fraction fields as one number. -/
def f32Mag (x : F32) : Nat := x.toNat % 2 ^ 31

/-- The magnitude pattern of the infinities. -/
def infMag : Nat := 0x7F800000

def f32IsNan (x : F32) : Bool := infMag < f32Mag x

def f32IsInf (x : F32) : Bool := f32Mag x == infMag

def f32IsFinite (x : F32) : Bool := f32Mag x < infMag

/-- The value of a finite magnitude pattern, in units of 2^-149: the fraction itself when the exponent field is 0
(subnormal), else the fraction with its leading 1, shifted by the exponent field less 1. -/
def magUnits (m : Nat) : Nat :=
  if m / 2 ^ 23 = 0 then m else (2 ^ 23 + m % 2 ^ 23) * 2 ^ (m / 2 ^ 23 - 1)

/-- The value of a finite pattern, in units of 2^-149. -/
def f32Units (x : F32) : Int := if f32Neg x then -(magUnits (f32Mag x) : Int) else magUnits (f32Mag x)

/-- The pattern with a given sign and magnitude pattern. -/
def f32Pack (neg : Bool) (mag : Nat) : F32 := BitVec.ofNat 32 (if neg then 2 ^ 31 + mag else mag)

/-- The quotient `n / d` rounded to the nearest whole number, ties to even. -/
def roundQuot (n d : Nat) : Nat :=
  let q := n / d
  let r := n % d
  if d < 2 * r ∨ (2 * r = d ∧ q % 2 = 1) then q + 1 else q

/-- How many low bits a number of `n / d` units has beyond the 24 that a significand holds. -/
def excessBits (n d : Nat) : Nat := Nat.log2 (n / d) - 23

/-- The magnitude pattern of the binary32 nearest to `n / d` units, ties to even; from the largest finite value on, the
infinity. With `k` excess bits the significand `q` holds a leading 1 at bit 23 (when `k > 0`), and `k * 2^23 + q` is the
pattern, a carry of the rounding into the exponent included. -/
def roundMag (n d : Nat) : Nat :=
  let k := excessBits n d
  min (k * 2 ^ 23 + roundQuot n (d * 2 ^ k)) infMag

/-- A NaN pattern: the free value `w` where that is one, else the default quiet NaN (log 7). -/
def f32Nan (w : F32) : F32 := if f32IsNan w then w else 0x7FC00000#32

/-- `+0.0` is `PZERO` (R9). -/
def f32PZero : F32 := 0#32

/-- The sign bit alone: `-0.0`. -/
def f32NZero : F32 := 0x80000000#32

/-- `f32_add` (R9); `w` is the free value of a produced NaN. A sum of value 0 is `-0.0` only when both operands are
`-0.0` (log 16). -/
def f32Add (x y w : F32) : F32 :=
  if f32IsNan x || f32IsNan y then f32Nan w
  else if f32IsInf x then (if f32IsInf y && (f32Neg x != f32Neg y) then f32Nan w else x)
  else if f32IsInf y then y
  else
    let n := f32Units x + f32Units y
    if n = 0 then (if f32Neg x && f32Neg y then f32NZero else f32PZero)
    else f32Pack (n < 0) (roundMag n.natAbs 1)

/-- `f32_sub` (R9): the sum with the second operand's sign turned. -/
def f32Sub (x y w : F32) : F32 := f32Add x (y ^^^ f32NZero) w

/-- `f32_mul` (R9). -/
def f32Mul (x y w : F32) : F32 :=
  let neg := f32Neg x != f32Neg y
  if f32IsNan x || f32IsNan y then f32Nan w
  else if f32IsInf x then (if f32Mag y = 0 then f32Nan w else f32Pack neg infMag)
  else if f32IsInf y then (if f32Mag x = 0 then f32Nan w else f32Pack neg infMag)
  else f32Pack neg (roundMag (magUnits (f32Mag x) * magUnits (f32Mag y)) (2 ^ 149))

/-- `f32_div` (R9). -/
def f32Div (x y w : F32) : F32 :=
  let neg := f32Neg x != f32Neg y
  if f32IsNan x || f32IsNan y then f32Nan w
  else if f32IsInf x then (if f32IsInf y then f32Nan w else f32Pack neg infMag)
  else if f32IsInf y then f32Pack neg 0
  else if f32Mag y = 0 then (if f32Mag x = 0 then f32Nan w else f32Pack neg infMag)
  else f32Pack neg (roundMag (magUnits (f32Mag x) * 2 ^ 149) (magUnits (f32Mag y)))

/-- `i32_to_f32` (R9). -/
def i32ToF32 (n : I32) : F32 := f32Pack (n.toInt < 0) (roundMag (n.toInt.natAbs * 2 ^ 149) 1)

/-- `f32_gt0` (R9): not NaN and greater than 0. -/
def f32Gt0 (x : F32) : Bool := !f32IsNan x && !f32Neg x && 0 < f32Mag x

end Sys2Proof.Machine
end

