-- ==== Sys2Proof/Machine/Operands.lean ====
section
/-! DEFINITION. The operand forms and the integer primitives of R7, the phase state (R12), the transition table (R80)
and the assembly of a serial sample (R61). -/

namespace Sys2Proof.Machine

/-- `wrap64(n)` (R7). -/
def wrap64 (n : Int) : I64 := BitVec.ofInt 64 n

/-- `wrap16(n)` (R7). -/
def wrap16 (n : Int) : I16 := BitVec.ofInt 16 n

/-- `tdiv(n, d)` (R7): integer division rounded toward zero. -/
def tdiv (n d : Int) : Int := Int.tdiv n d

/-- `sub_ts(x, y)` (R7, R84): the difference modulo 2^32, unsigned. -/
def subTs (x y : U32) : U32 := x - y

/-- `sext_32(smp)` (R125). -/
def sext32 (smp : Sample) : I32 := smp.signExtend 32

/-- The phase state `{a, b}` of a sample (R12): A is bit 1, B is bit 0. -/
def phaseState (a b : Bool) : PhaseState := BitVec.ofBool a ++ BitVec.ofBool b

/-- The table index `{old, new}` (R80). -/
def transitionIx (old new : PhaseState) : BitVec 4 := old ++ new

/-- `QTAB` as a list, from index 0 to 15 (R80). -/
def qtabList : List Int := [0, -1, 1, 0, 1, 0, 0, -1, -1, 0, 0, 1, 0, 1, -1, 0]

/-- `QTAB[{old, new}]` (R80). -/
def qtab (old new : PhaseState) : Int := qtabList.getD (transitionIx old new).toNat 0

/-- One received bit shifted in at the least significant end (R61, R73: MSB first). -/
def shiftIn (acc : Sample) (d : Bool) : Sample := (acc <<< 1) ||| (BitVec.ofBool d).setWidth 24

/-- The sample that the data-line levels `d_0, d_1, …` spell, the first received first (R61). -/
def assembleSample (levels : List Bool) : Sample := levels.foldl shiftIn 0

/-- A narrow integer result in a response lane, sign-extended (R63). -/
def laneOfI32 (x : I32) : Lane := x.signExtend 64

/-- A binary32 result in a response lane: its bits, zero-extended (R63). -/
def laneOfF32 (x : F32) : Lane := x.setWidth 64

/-- A flag in a response lane: 0 or 1 (R63). -/
def laneOfBool (x : Bool) : Lane := (BitVec.ofBool x).setWidth 64

end Sys2Proof.Machine
end

