-- ==== Sys2Proof/Machine/Flags.lean ====
section
/-! DEFINITION. The tests that decide the flags of R31 and the silent conditions of R161: an accepted edge, a rising
index line, a due flush. -/

namespace Sys2Proof.Machine

/-- The glitch filter rejects (R82): a previous accepted edge exists and `dt < GLITCH_US`, strictly, unsigned. -/
def glitchRejects (c : Cfg) (edgeValid : Bool) (dt : U32) : Bool := edgeValid && dt < c.glitchUs

/-- The interval an accepted edge stores (R82, R14): 0 when there is no previous accepted edge. -/
def acceptedInterval (edgeValid : Bool) (dt : U32) : U32 := if edgeValid then dt else 0

/-- A rising transition of the index line (R116): `PREV_Z = 0` and `z = 1`. -/
def indexRises (prevZ z : Bool) : Bool := !prevZ && z

/-- `IDX_FLAG` after an `INDEX` sample (R116): set on a rising transition, never cleared here. -/
def idxFlagAfter (flag prevZ z : Bool) : Bool := flag || indexRises prevZ z

/-- The flush test of R127, on the count after this poll's sample. -/
def flushDue (c : Cfg) (cnt now lastFlushT : U32) : Bool :=
  1#32 ≤ cnt && (c.oversample ≤ cnt || c.flushTimeoutUs ≤ subTs now lastFlushT)

/-- `OFFSET` after a flush with average `avg` (R128): the auto-tare of a channel not yet tared. -/
def offsetAfterFlush (tared : Bool) (offset avg : I32) : I32 := if tared then offset else avg

end Sys2Proof.Machine
end

