-- ==== Sys2Proof/Machine/State.lean ====
section
/-! DEFINITION. The state record `S` (R10 to R29), plain data, and the state after a hardware reset (R35, R180).
Beside the spec's fields it carries what the host's interface gives no other place: the parameter CFG, the input stream
and the output of the last step (R56; logs 1, 3, 4), and the draw counter of the free value (log 7). -/

namespace Sys2Proof.Machine

/-- The reasons a step could stop with a fault. There are none: "The block raises no exception, trap, fault or error
response, for any event word in any state" (R160). Nobody raises one. -/
inductive Fault
deriving DecidableEq, Repr

/-- The reasons a step is refused. -/
inductive Refusal where
  /-- Raised by an arm of `exec` for an instruction that has no meaning yet. Safe: nothing is claimed of it. No arm
  raises it now. -/
  | notModelled (mnemonic : String)
  /-- Raised by `step` when CFG is outside the legal ranges of R5 (93 U5: "refuse; the rules are not meant for it").
  Safe: the machine stops where the hardware would compute something (log 6). -/
  | illegalConfig
deriving DecidableEq, Repr

/-- One load-cell channel record `CH[c]` (R23 to R29). -/
structure Channel where
  /-- `SUM`, i64: running sum of the samples since the last flush (R24). -/
  sum : I64
  /-- `CNT`, u32: their count (R24). -/
  cnt : U32
  /-- `OFFSET`, i32: the tare offset, raw counts (R25). -/
  offset : I32
  /-- `TARED` (R25, R31). -/
  tared : Bool
  /-- `SCALE`, f32: counts per kg (R26). -/
  scale : F32
  /-- `LAST_RAW`, i32: the last averaged reading (R27). -/
  lastRaw : I32
  /-- `FILT`, f32: the filtered force, kg (R28). -/
  filt : F32
  /-- `LAST_FLUSH_T`, u32, microseconds (R29). -/
  lastFlushT : U32
  /-- MODEL's own (log 7): how many NaNs this channel's flushes have produced. -/
  nanDraws : Nat
deriving DecidableEq, Repr

/-- The output of one step (R62, R72): `valid` is R72's `resp_valid`. A line event, an idle step and a hardware reset
give no response: `valid` false and every lane 0 (R56, R62; log 4). -/
structure Response where
  valid : Bool
  r0 : Lane
  r1 : Lane
  r2 : Lane
deriving DecidableEq, Repr

/-- What the outside presents to the block between two steps. -/
inductive Stimulus where
  /-- One event word on the input stream (R56). -/
  | event (w : EventWord)
  /-- The hardware reset input `rst` (R72, R180). -/
  | reset
deriving DecidableEq, Repr

/-- The state of the block (R10). -/
structure State where
  /-- CFG (R5): a parameter, not state; no step changes it (log 1). -/
  cfg : Cfg
  /-- The input stream (R56): what is still to be applied, the next stimulus first (log 3). -/
  input : List Stimulus
  /-- The output of the step just made (R56, R62; log 4). -/
  out : Response
  /-- `POS`, i64 (R11). -/
  pos : I64
  /-- `PREV`, the previous phase state (R12). -/
  prev : PhaseState
  /-- `LAST_EDGE_T`, u32, microseconds (R13). -/
  lastEdgeT : U32
  /-- `LAST_INTERVAL`, u32, microseconds; 0 is "unavailable" (R14). -/
  lastInterval : U32
  /-- `LAST_DIR`, i2 in two's complement (R15). -/
  lastDir : BitVec 2
  /-- `EDGE_VALID` (R16). -/
  edgeValid : Bool
  /-- `PCNT_REG`, i16: the bounded counter (R17). -/
  pcntReg : I16
  /-- `OVF`, i64: the overflow counter (R18). -/
  ovf : I64
  /-- `IDX_FLAG` (R21). -/
  idxFlag : Bool
  /-- `PREV_Z`, the previous level of the index line (R22). -/
  prevZ : Bool
  /-- `CH[0]` (R23). -/
  ch0 : Channel
  /-- `CH[1]` (R23). With `N_CH = 1` it does not exist and nothing reads or writes it (log 8). -/
  ch1 : Channel
deriving DecidableEq, Repr

/-- No response (R56): the all-zero output of R62, not valid. -/
def Response.none : Response := ⟨false, 0, 0, 0⟩

/-- A channel's reset values (R35). -/
def Channel.reset : Channel :=
  { sum := 0, cnt := 0, offset := 0, tared := false, scale := 0, lastRaw := 0, filt := 0, lastFlushT := 0,
    nanDraws := 0 }

/-- The state after a hardware reset of a block built with configuration `c` (R35, R180): no event presented yet. -/
def State.resetWith (c : Cfg) : State :=
  { cfg := c, input := [], out := Response.none, pos := 0, prev := 0, lastEdgeT := 0, lastInterval := 0, lastDir := 0,
    edgeValid := false, pcntReg := 0, ovf := 0, idxFlag := false, prevZ := false, ch0 := Channel.reset,
    ch1 := Channel.reset }

/-- The machine right after reset (R35, R180). CFG is no state and has no reset value; the record carried is
`benchCfg` (log 2). -/
def State.reset : State := State.resetWith benchCfg

end Sys2Proof.Machine
end

