-- ==== Sys2Proof/Machine/Ops.lean ====
section
/-! DEFINITION. The named operations over State that the meanings share: the input stream, the response, the position,
the channel space, the writes of the decoder, the flush, the hardware reset. There is no operation that takes an
exception or returns from one: the block has neither (R160, R166, R167). -/

namespace Sys2Proof.Machine

/-! Input and output (R56, R62). -/

/-- The next stimulus, and the state with it taken off the input stream (log 3). -/
def State.fetch (s : State) : Option Stimulus × State :=
  match s.input with
  | [] => (none, s)
  | x :: rest => (some x, { s with input := rest })

/-- No response: a line event, or a step with nothing to do (R56, R62). -/
def State.quiet (s : State) : State := { s with out := Response.none }

/-- `respond(r0, r1, r2)` (R7). -/
def State.respond (s : State) (r0 r1 r2 : Lane) : State := { s with out := ⟨true, r0, r1, r2⟩ }

/-- `respond(r0)` (R7). -/
def State.respond1 (s : State) (r0 : Lane) : State := s.respond r0 0 0

/-- The response as one vector of 192 bits: `r0 = resp[63:0]`, `r1 = resp[127:64]`, `r2 = resp[191:128]` (R62). -/
def Response.bits (r : Response) : BitVec 192 := r.r2 ++ r.r1 ++ r.r0

/-! The position (R19) and its writers. -/

/-- `position(S)` (R19). -/
def State.position (s : State) : I64 :=
  match s.cfg.variant with
  | .edge => s.pos
  | .pcnt => wrap64 ((s.ovf.toInt * s.cfg.pcntRange + s.pcntReg.toInt) * s.cfg.pcntScale)

/-- `PREV <- p`. -/
def State.setPrev (s : State) (p : PhaseState) : State := { s with prev := p }

/-- The five writes of an accepted edge (R82). -/
def State.acceptEdge (s : State) (d : Int) (interval now : U32) : State :=
  { s with
    pos := wrap64 (s.pos.toInt + d)
    lastDir := BitVec.ofInt 2 d
    lastInterval := interval
    lastEdgeT := now
    edgeValid := true }

/-- `PCNT_REG <- r; OVF <- o` (R101, R104). -/
def State.setCounter (s : State) (r : I16) (o : I64) : State := { s with pcntReg := r, ovf := o }

/-- `POS <- v`. -/
def State.setPos (s : State) (v : I64) : State := { s with pos := v }

/-- One valid transition of the bounded counter (R101): the register moves by `d`, and at `+PCNT_RANGE` or `-PCNT_RANGE`
it clears and the overflow counter moves by one, in the same step. -/
def State.countBounded (s : State) (d : Int) : State :=
  let r := s.pcntReg.toInt + d
  if r = s.cfg.pcntRange then s.setCounter 0 (wrap64 (s.ovf.toInt + 1))
  else if r = -(s.cfg.pcntRange : Int) then s.setCounter 0 (wrap64 (s.ovf.toInt - 1))
  else s.setCounter (wrap16 r) s.ovf

/-! The index latch. -/

/-- `IDX_FLAG <- f`. -/
def State.setIdxFlag (s : State) (f : Bool) : State := { s with idxFlag := f }

/-- `PREV_Z <- z`. -/
def State.setPrevZ (s : State) (z : Bool) : State := { s with prevZ := z }

/-! The channel space (R33, R41, R42). -/

/-- `CH[c]`: the record at index `c` when `c < N_CH`, nothing otherwise (R33, R42). -/
def State.chan (s : State) (c : ChanIx) : Option Channel :=
  if c.toNat < s.cfg.nCh then
    match c.toNat with
    | 0 => some s.ch0
    | 1 => some s.ch1
    | _ => none
  else none

/-- `CH[c] <- k`. -/
def State.setChan (s : State) (c : ChanIx) (k : Channel) : State :=
  match c.toNat with
  | 0 => { s with ch0 := k }
  | 1 => { s with ch1 := k }
  | _ => s

/-! The load-cell channel path (R127, R128). -/

/-- The accumulation of one sample (R127). -/
def Channel.accumulate (k : Channel) (smp : Sample) : Channel :=
  { k with sum := k.sum + (sext32 smp).signExtend 64, cnt := k.cnt + 1 }

/-- `avg = tdiv(SUM, CNT)` (R128), narrowed to the i32 it fits (R36 d; log 10). -/
def Channel.average (k : Channel) : I32 := BitVec.ofInt 32 (tdiv k.sum.toInt k.cnt.toNat)

/-- `inst` (R128): the unfiltered force of a difference in raw counts, `PZERO` when the scale is not greater than 0. -/
def instForce (scale : F32) (diff : I32) (w : F32) : F32 :=
  if f32Gt0 scale then f32Div (i32ToF32 diff) scale w else f32PZero

/-- One step of the first-order filter (R128, R129), each operation rounded on its own (R136). -/
def iirStep (beta inst filt w : F32) : F32 :=
  f32Add (f32Mul beta inst w) (f32Mul (f32Sub f32One beta w) filt w) w

/-- `flush(c, now)` (R128) on the record of channel `ix`. A produced NaN is the free value of this channel's next draw
(log 7). -/
def Channel.flush (k : Channel) (c : Cfg) (ix : Nat) (now : U32) : Channel :=
  let avg := k.average
  let off := offsetAfterFlush k.tared k.offset avg
  let w := Config.freeNaN ix k.nanDraws
  let filt := iirStep c.beta (instForce k.scale (avg - off) w) k.filt w
  { k with
    sum := 0
    cnt := 0
    offset := off
    tared := true
    lastRaw := avg
    filt := filt
    lastFlushT := now
    nanDraws := if f32IsNan filt then k.nanDraws + 1 else k.nanDraws }

/-- One poll of a channel's record (R127): the sample, if one is ready, then the flush, if it is due. -/
def Channel.poll (k : Channel) (c : Cfg) (ix : Nat) (ready : Bool) (smp : Sample) (now : U32) : Channel :=
  let k1 := if ready then k.accumulate smp else k
  if flushDue c k1.cnt now k1.lastFlushT then k1.flush c ix now else k1

/-! Initialisation and reset. -/

/-- A channel's record as `INIT` leaves it (R150); the draw counter is the model's and goes on (log 7). -/
def Channel.initAt (k : Channel) (now : U32) : Channel :=
  { Channel.reset with lastFlushT := now, nanDraws := k.nanDraws }

/-- The writes of `INIT` (R150): every field to its reset value, but `PREV`, `PREV_Z` and every `LAST_FLUSH_T`. -/
def State.initAt (s : State) (p : PhaseState) (z : Bool) (now : U32) : State :=
  { s with
    pos := 0, prev := p, lastEdgeT := 0, lastInterval := 0, lastDir := 0, edgeValid := false, pcntReg := 0, ovf := 0,
    idxFlag := false, prevZ := z
    ch0 := if 0 < s.cfg.nCh then s.ch0.initAt now else s.ch0
    ch1 := if 1 < s.cfg.nCh then s.ch1.initAt now else s.ch1 }

/-- The hardware reset in a run (R180): every field to R35's value. CFG is not reset; the input stream is the outside's;
the draw counters go on (log 12). -/
def State.hardReset (s : State) : State :=
  { State.resetWith s.cfg with
    input := s.input
    ch0 := { Channel.reset with nanDraws := s.ch0.nanDraws }
    ch1 := { Channel.reset with nanDraws := s.ch1.nanDraws } }

/-- A reserved word (R66): no state changes and the response is all zero (log 5). -/
def State.ignoreReserved (s : State) : State := s.quiet

end Sys2Proof.Machine
end

