-- ==== Sys2Proof/Machine/Index.lean ====
section
/-! DEFINITION. The index pulse latch (42_index_latch.md). -/

namespace Sys2Proof.Machine

/-- `INDEX` (R116): one sample of the index line. No response. -/
def execIndex (z : Bool) (s : State) : Host.Outcome State Fault Refusal :=
  .next ((s.setIdxFlag (idxFlagAfter s.idxFlag s.prevZ z)).setPrevZ z).quiet

/-- `GET_INDEX` (R117): the flag before the clear, then the clear. -/
def execGetIndex (s : State) : Host.Outcome State Fault Refusal :=
  .next ((s.setIdxFlag false).respond1 (laneOfBool s.idxFlag))

end Sys2Proof.Machine
end

