-- ==== Sys2Proof/Machine/LoadCell.lean ====
section
/-! DEFINITION. The load-cell channel operations (43_load_cell.md). An index that names no channel changes no state and
answers 0 (R42). -/

namespace Sys2Proof.Machine

/-- `LC_POLL` (R127), with the flush it may perform (R128). -/
def execLcPoll (ch : ChanIx) (ready : Bool) (smp : Sample) (now : U32) (s : State) : Host.Outcome State Fault Refusal :=
  match s.chan ch with
  | some k => .next ((s.setChan ch (k.poll s.cfg ch.toNat ready smp now)).respond1 0)
  | none => .next (s.respond1 0)

/-- `TARE` (R130): `OFFSET <- LAST_RAW`. -/
def execTare (ch : ChanIx) (s : State) : Host.Outcome State Fault Refusal :=
  match s.chan ch with
  | some k => .next ((s.setChan ch { k with offset := k.lastRaw }).respond1 0)
  | none => .next (s.respond1 0)

/-- `CALIBRATE` (R131): accepted exactly when the weight is greater than 0. -/
def execCalibrate (ch : ChanIx) (wt : F32) (s : State) : Host.Outcome State Fault Refusal :=
  match s.chan ch with
  | some k =>
    if f32Gt0 wt then
      .next ((s.setChan ch
        { k with scale := f32Div (i32ToF32 (k.lastRaw - k.offset)) wt
                            (Config.freeNaN ch.toNat k.nanDraws) }).respond1 0)
    else .next (s.respond1 0)
  | none => .next (s.respond1 0)

/-- `GET_FORCE` (R132). -/
def execGetForce (ch : ChanIx) (s : State) : Host.Outcome State Fault Refusal :=
  match s.chan ch with
  | some k => .next (s.respond1 (laneOfF32 k.filt))
  | none => .next (s.respond1 0)

/-- `GET_RAW` (R133). -/
def execGetRaw (ch : ChanIx) (s : State) : Host.Outcome State Fault Refusal :=
  match s.chan ch with
  | some k => .next (s.respond1 (laneOfI32 k.lastRaw))
  | none => .next (s.respond1 0)

/-- `GET_SCALE` (R134). -/
def execGetScale (ch : ChanIx) (s : State) : Host.Outcome State Fault Refusal :=
  match s.chan ch with
  | some k => .next (s.respond1 (laneOfF32 k.scale))
  | none => .next (s.respond1 0)

end Sys2Proof.Machine
end

