-- ==== Sys2Proof/Machine/Quadrature.lean ====
section
/-! DEFINITION. The quadrature decoder's events (40_quadrature_edge.md, 41_quadrature_pcnt.md): `PHASE` in both
variants, and the four position operations. -/

namespace Sys2Proof.Machine

/-- The writes of `PHASE` with `VARIANT = EDGE` (R82). `PREV` is written whatever the table or the filter decide. -/
def phaseEdge (new : PhaseState) (now : U32) (s : State) : State :=
  let d := qtab s.prev new
  let dt := subTs now s.lastEdgeT
  if d = 0 then s.setPrev new
  else if glitchRejects s.cfg s.edgeValid dt then s.setPrev new
  else (s.setPrev new).acceptEdge d (acceptedInterval s.edgeValid dt) now

/-- The writes of `PHASE` with `VARIANT = PCNT` (R101). `now` is ignored. -/
def phasePcnt (new : PhaseState) (s : State) : State :=
  let d := qtab s.prev new
  if d = 0 then s.setPrev new else (s.setPrev new).countBounded d

/-- `PHASE` (R81): one sample of the two phase lines. No response. -/
def execPhase (a b : Bool) (now : U32) (s : State) : Host.Outcome State Fault Refusal :=
  match s.cfg.variant with
  | .edge => .next (phaseEdge (phaseState a b) now s).quiet
  | .pcnt => .next (phasePcnt (phaseState a b) s).quiet

/-- `GET_POS` (R85). -/
def execGetPos (s : State) : Host.Outcome State Fault Refusal := .next (s.respond1 s.position)

/-- `RESET_POS` (R86). -/
def execResetPos (s : State) : Host.Outcome State Fault Refusal :=
  match s.cfg.variant with
  | .edge => .next ((s.setPos 0).respond1 0)
  | .pcnt => .next ((s.setCounter 0 0).respond1 0)

/-- `SET_POS` (R87), with the arithmetic of R104 in `VARIANT = PCNT`. -/
def execSetPos (v : I64) (s : State) : Host.Outcome State Fault Refusal :=
  match s.cfg.variant with
  | .edge => .next ((s.setPos v).respond1 0)
  | .pcnt => .next ((s.setCounter 0 (wrap64 (tdiv v.toInt (s.cfg.pcntRange * s.cfg.pcntScale)))).respond1 0)

/-- `TIMING_AVAIL` (R64): the configuration, exported. -/
def timingAvail (c : Cfg) : Bool := c.variant == .edge

/-- Lane `r1` of the `SNAPSHOT` response (R64): `{LAST_INTERVAL, LAST_EDGE_T}`. -/
def snapshotR1 (s : State) : Lane := s.lastInterval ++ s.lastEdgeT

/-- Lane `r2` of the `SNAPSHOT` response (R64): `{0, TIMING_AVAIL, EDGE_VALID, LAST_DIR}`. -/
def snapshotR2 (s : State) : Lane :=
  0#60 ++ BitVec.ofBool (timingAvail s.cfg) ++ BitVec.ofBool s.edgeValid ++ s.lastDir

/-- `SNAPSHOT` (R88). -/
def execSnapshot (s : State) : Host.Outcome State Fault Refusal :=
  .next (s.respond s.position (snapshotR1 s) (snapshotR2 s))

end Sys2Proof.Machine
end

