-- ==== Sys2Proof/Machine/System.lean ====
section
/-! DEFINITION. The one system operation (44_system.md, R152): `INIT`. -/

namespace Sys2Proof.Machine

/-- `INIT` (R150): the reset values, with the line levels and the time latched; the same in both variants. -/
def execInit (a b z : Bool) (now : U32) (s : State) : Host.Outcome State Fault Refusal :=
  .next ((s.initAt (phaseState a b) z now).respond1 0)

end Sys2Proof.Machine
end

