-- ==== Sys2Proof/Machine/Dispatch.lean ====
section
/-! DEFINITION. One arm for each event (R58). -/

namespace Sys2Proof.Machine

def exec (i : Instr) (s : State) : Host.Outcome State Fault Refusal :=
  match i with
  | .init a b z now => Sys2Proof.Machine.execInit a b z now s
  | .phase a b now => Sys2Proof.Machine.execPhase a b now s
  | .index z => Sys2Proof.Machine.execIndex z s
  | .getPos => Sys2Proof.Machine.execGetPos s
  | .resetPos => Sys2Proof.Machine.execResetPos s
  | .setPos v => Sys2Proof.Machine.execSetPos v s
  | .snapshot => Sys2Proof.Machine.execSnapshot s
  | .getIndex => Sys2Proof.Machine.execGetIndex s
  | .lcPoll ch ready smp now => Sys2Proof.Machine.execLcPoll ch ready smp now s
  | .tare ch => Sys2Proof.Machine.execTare ch s
  | .calibrate ch wt => Sys2Proof.Machine.execCalibrate ch wt s
  | .getForce ch => Sys2Proof.Machine.execGetForce ch s
  | .getRaw ch => Sys2Proof.Machine.execGetRaw ch s
  | .getScale ch => Sys2Proof.Machine.execGetScale ch s

end Sys2Proof.Machine
end

