-- ==== Sys2Proof/Machine/Step.lean ====
section
/-! DEFINITION. One step (R4, R45): the next stimulus of the input stream is taken and applied, whole. -/

namespace Sys2Proof.Machine

/-- One step. A CFG outside its legal ranges is refused (93 U5; log 6). With nothing presented the block idles
(R71 `IDLE`, R197; log 3). A hardware reset is R180's; a reserved word is ignored (R66; log 5); a legal word runs. -/
def step (s : State) : Host.Outcome State Fault Refusal :=
  if cfgLegal s.cfg then
    match s.fetch with
    | (none, t) => .next t.quiet
    | (some .reset, t) => .next t.hardReset
    | (some (.event w), t) =>
      match decode w with
      | .event i => exec i t
      | .reserved _ => .next t.ignoreReserved
  else .refused .illegalConfig

/-- `s` with the event word whose number is `w` (spec/opcode_table.json's numbering) presented next: it stands at the
front of the input stream, so the very next step takes it. Nothing else changes (log 3). -/
def State.withFetchWord (s : State) (_nbits w : Nat) : State :=
  { s with input := .event (BitVec.ofNat 80 w) :: s.input }

end Sys2Proof.Machine
end

