-- ==== Sys2Proof/Machine/Serial.lean ====
section
/-! DEFINITION. The serial side of a load-cell channel (R73), which produces the `ready` and `smp` operands of `LC_POLL`.
Logic levels only: what level means "available" and which clock edge samples are outside the block (R3 d, R73, D26). -/

namespace Sys2Proof.Machine

/-- What one poll of a channel's converter yields. -/
structure Acquisition where
  /-- Clock pulses issued. -/
  pulses : Nat
  ready : Bool
  smp : Sample
deriving DecidableEq, Repr

/-- At most one acquisition (R73): with a sample available, 25 clock pulses, the data line's levels at the first 24 being
the sample, most significant first, and the 25th yielding no bit; with none available, no pulse and `ready = 0`. -/
def acquire (available : Bool) (levels : List Bool) : Acquisition :=
  if available then ⟨25, true, assembleSample (levels.take 24)⟩ else ⟨0, false, 0⟩

/-- The poll event that an acquisition makes (R61, R73). -/
def Acquisition.pollEvent (q : Acquisition) (ch : ChanIx) (now : U32) : Instr := .lcPoll ch q.ready q.smp now

end Sys2Proof.Machine
end

