-- ==== Sys2Proof/Machine/Pseudo.lean ====
section
/-! DEFINITION. The pseudo-operations of R71 with their expansions, and the list of events of one clock cycle (R47,
R72). A clock is no state of the block: a cycle is the list of stimuli it presents (log 18). -/

namespace Sys2Proof.Machine

/-- One channel's operands of `POLL` (R71). -/
structure Reading where
  ready : Bool
  smp : Sample
deriving DecidableEq, Repr

/-- `POLL now=t` (R71, R153): one `LC_POLL` for each channel, in ascending order. -/
def pollOp (c : Cfg) (now : U32) (x0 x1 : Reading) : List Instr :=
  .lcPoll 0 x0.ready x0.smp now :: (if c.nCh = 2 then [.lcPoll 1 x1.ready x1.smp now] else [])

/-- `LINES a= b= z= now=` (R71). -/
def linesOp (a b z : Bool) (now : U32) : List Instr := [.phase a b now, .index z]

/-- `IDLE` (R71): no event. -/
def idleOp : List Instr := []

/-- The stimulus that presents an event's word. -/
def Stimulus.ofInstr (i : Instr) : Stimulus := .event (encode i)

/-- The stimuli of one clock cycle (R47, R72): `PHASE`, then `INDEX`, then at most one command word, whatever its
`op` (R72). -/
def cycleStimuli (a b z : Bool) (now : U32) (cmd : Option EventWord) : List Stimulus :=
  (linesOp a b z now).map Stimulus.ofInstr ++ cmd.toList.map Stimulus.event

/-- `s` with a list of stimuli presented after what its input stream still holds (R56). -/
def State.present (s : State) (xs : List Stimulus) : State := { s with input := s.input ++ xs }

/-- `s` with a trace of events presented (R70, R197). -/
def State.presentTrace (s : State) (tr : List Instr) : State := s.present (tr.map Stimulus.ofInstr)

end Sys2Proof.Machine
end

