-- ==== Sys2Proof/Safety.lean ====
section
/-! DEFINITION. What claims are stated in: the invariants of R36, reachable states, the run of a trace with its
responses (R197), the writers table (R37), agreement on the spec's state, which events commute (R52), what makes a word
reserved (R65), the sums and the glitch condition of R89, the reports of R118, and what it is to be an exact value
rounded once (R9). -/

namespace Sys2Proof.Safety

open Sys2Proof.Machine

/-! Invariants (R36). -/

/-- The invariants of one channel record: R36 (b), (c), (d). The upper bound of `SUM` is the one that 24-bit samples
give, `CNT * (2^23 - 1)`; R36 (c)'s symmetric bound follows from it, and (d) needs it (log 21). -/
structure ChannelInv (c : Cfg) (k : Channel) : Prop where
  cnt_below : k.cnt.toNat < max c.oversample.toNat 1
  sum_low : -((k.cnt.toNat : Int) * 2 ^ 23) ≤ k.sum.toInt
  sum_high : k.sum.toInt ≤ (k.cnt.toNat : Int) * (2 ^ 23 - 1)
  raw_range : -(2 ^ 23) ≤ k.lastRaw.toInt ∧ k.lastRaw.toInt ≤ 2 ^ 23 - 1
  offset_range : -(2 ^ 23) ≤ k.offset.toInt ∧ k.offset.toInt ≤ 2 ^ 23 - 1

/-- The invariants of the state: R36 (a) to (f), with a legal CFG; `fresh` is R14, R16 and R35 together: the edge times
rest at their reset values until an edge is accepted (log 21). -/
structure Inv (s : State) : Prop where
  cfg_legal : cfgLegal s.cfg = true
  reg_inside : -(s.cfg.pcntRange : Int) < s.pcntReg.toInt ∧ s.pcntReg.toInt < s.cfg.pcntRange
  chan0 : ChannelInv s.cfg s.ch0
  chan1 : ChannelInv s.cfg s.ch1
  dir_legal : s.lastDir.toInt = -1 ∨ s.lastDir.toInt = 0 ∨ s.lastDir.toInt = 1
  dir_valid : s.lastDir.toInt = 0 ↔ s.edgeValid = false
  fresh : s.edgeValid = false → s.lastInterval = 0 ∧ s.lastEdgeT = 0
  pcnt_dead : s.cfg.variant = .pcnt →
    s.pos = 0 ∧ s.edgeValid = false ∧ s.lastDir = 0 ∧ s.lastInterval = 0 ∧ s.lastEdgeT = 0
  edge_dead : s.cfg.variant = .edge → s.pcntReg = 0 ∧ s.ovf = 0

/-! Runs (R45, R197). -/

/-- The states a run can reach: from reset with configuration `c`, by steps, with anything presented between them. -/
inductive Reachable (c : Cfg) : State → Prop where
  | reset : Reachable c (State.resetWith c)
  | present {s : State} (xs : List Stimulus) : Reachable c s → Reachable c (s.present xs)
  | step {s t : State} : Reachable c s → Machine.step s = .next t → Reachable c t

/-- A trace applied from a state (R197): the state after it, and each host operation with its response. -/
def applyTrace : List Instr → State → Option (State × List (Instr × Response))
  | [], s => some (s, [])
  | i :: tr, s =>
    match exec i s with
    | .next t => (applyTrace tr t).map fun p => (p.1, if t.out.valid then (i, t.out) :: p.2 else p.2)
    | .fault _ => none
    | .refused _ => none

/-! Agreement of states. -/

/-- Equal in everything but the output port. -/
def sameButOut (s t : State) : Prop := { s with out := Response.none } = { t with out := Response.none }

/-- The spec's part of a channel record (R24 to R29): all but the model's draw counter. -/
def specChannel (k : Channel) : Channel := { k with nanDraws := 0 }

/-- Agreement on the state the spec gives the block (R10): the named fields and the spec's part of the records of the
channels that exist. CFG, the streams and `CH[c]` for `c >= N_CH` are no part of it. -/
structure sameSpecState (s t : State) : Prop where
  pos : s.pos = t.pos
  prev : s.prev = t.prev
  lastEdgeT : s.lastEdgeT = t.lastEdgeT
  lastInterval : s.lastInterval = t.lastInterval
  lastDir : s.lastDir = t.lastDir
  edgeValid : s.edgeValid = t.edgeValid
  pcntReg : s.pcntReg = t.pcntReg
  ovf : s.ovf = t.ovf
  idxFlag : s.idxFlag = t.idxFlag
  prevZ : s.prevZ = t.prevZ
  chan : ∀ c, (s.chan c).map specChannel = (t.chan c).map specChannel

/-- `t` differs from `s` at most in the output port and in `CH[c]`. -/
def onlyChannel (c : ChanIx) (s t : State) : Prop :=
  sameButOut t { s with
    ch0 := if c = 0 then t.ch0 else s.ch0
    ch1 := if c = 1 then t.ch1 else s.ch1 }

/-! The writers table (R37). -/

/-- The fields of R37's table; the channel fields with the channel's index. -/
inductive Field where
  | pos | pcntReg | ovf | prev | lastEdgeT | lastInterval | lastDir | edgeValid | idxFlag | prevZ
  | sum (c : ChanIx) | cnt (c : ChanIx) | lastRaw (c : ChanIx) | filt (c : ChanIx) | tared (c : ChanIx)
  | lastFlushT (c : ChanIx) | offset (c : ChanIx) | scale (c : ChanIx)
deriving DecidableEq, Repr

/-- The two states hold the same value in a field (a channel field of a channel that does not exist holds none). -/
def Field.agrees : Field → State → State → Prop
  | .pos, s, t => s.pos = t.pos
  | .pcntReg, s, t => s.pcntReg = t.pcntReg
  | .ovf, s, t => s.ovf = t.ovf
  | .prev, s, t => s.prev = t.prev
  | .lastEdgeT, s, t => s.lastEdgeT = t.lastEdgeT
  | .lastInterval, s, t => s.lastInterval = t.lastInterval
  | .lastDir, s, t => s.lastDir = t.lastDir
  | .edgeValid, s, t => s.edgeValid = t.edgeValid
  | .idxFlag, s, t => s.idxFlag = t.idxFlag
  | .prevZ, s, t => s.prevZ = t.prevZ
  | .sum c, s, t => (s.chan c).map Channel.sum = (t.chan c).map Channel.sum
  | .cnt c, s, t => (s.chan c).map Channel.cnt = (t.chan c).map Channel.cnt
  | .lastRaw c, s, t => (s.chan c).map Channel.lastRaw = (t.chan c).map Channel.lastRaw
  | .filt c, s, t => (s.chan c).map Channel.filt = (t.chan c).map Channel.filt
  | .tared c, s, t => (s.chan c).map Channel.tared = (t.chan c).map Channel.tared
  | .lastFlushT c, s, t => (s.chan c).map Channel.lastFlushT = (t.chan c).map Channel.lastFlushT
  | .offset c, s, t => (s.chan c).map Channel.offset = (t.chan c).map Channel.offset
  | .scale c, s, t => (s.chan c).map Channel.scale = (t.chan c).map Channel.scale

/-- An event is an `INIT`. -/
def isInit : Instr → Bool
  | .init _ _ _ _ => true
  | _ => false

/-- An event is a `PHASE`. -/
def isPhase : Instr → Bool
  | .phase _ _ _ => true
  | _ => false

/-- An event is an `INDEX`. -/
def isIndex : Instr → Bool
  | .index _ => true
  | _ => false

/-- An event is a `SET_POS`. -/
def isSetPos : Instr → Bool
  | .setPos _ => true
  | _ => false

/-- An event is an `LC_POLL` of channel `c`. -/
def isPollOf (c : ChanIx) : Instr → Bool
  | .lcPoll ch _ _ _ => ch == c
  | _ => false

/-- An event is a `CALIBRATE` of channel `c`. -/
def isCalibrateOf (c : ChanIx) : Instr → Bool
  | .calibrate ch _ => ch == c
  | _ => false

/-- The rows of R37's table: which events write a field. -/
def Field.writers : Field → Instr → Bool
  | .pos, i | .pcntReg, i | .ovf, i => isPhase i || i == .resetPos || isSetPos i || isInit i
  | .prev, i => isPhase i || isInit i
  | .lastEdgeT, i | .lastInterval, i | .lastDir, i | .edgeValid, i => isPhase i || isInit i
  | .idxFlag, i => isIndex i || i == .getIndex || isInit i
  | .prevZ, i => isIndex i || isInit i
  | .sum c, i | .cnt c, i | .lastRaw c, i | .filt c, i | .tared c, i | .lastFlushT c, i => isPollOf c i || isInit i
  | .offset c, i => isPollOf c i || i == .tare c || isInit i
  | .scale c, i => isCalibrateOf c i || isInit i

/-! Which events commute (R52). -/

/-- A quadrature operation: `PHASE` and the four position operations. -/
def isQuadrature (i : Instr) : Bool :=
  isPhase i || i == .getPos || i == .resetPos || isSetPos i || i == .snapshot

/-- The pairs R52 lists, in one order. -/
def listedPair (i j : Instr) : Bool :=
  (isPhase i && isIndex j) || (isPhase i && j.channel.isSome) ||
  ((isIndex i || i == .getIndex) && (isQuadrature j || j.channel.isSome)) ||
  (i.channel.isSome && j.channel.isSome && i.channel != j.channel)

/-- The pairs R52 lists, in either order. -/
def commutes (i j : Instr) : Bool := listedPair i j || listedPair j i

/-! Reserved words (R65). -/

/-- The bits of `data` that must be 0 in the format of an opcode (R59 to R61). -/
def mustBeZero (op : BitVec 4) : BitVec 64 :=
  if op = 0x1 then 0xFFFFFFF800000000
  else if op = 0x2 then 0xFFFFFFFC00000000
  else if op = 0x3 then 0xFFFFFFFFFFFFFFFE
  else if op = 0x6 then 0
  else if op = 0x9 then 0xFE00000000000000
  else if op = 0xB then 0xFFFFFFFF00000000
  else 0xFFFFFFFFFFFFFFFF

/-- R65, condition by condition; the formats without a channel are those of ops 0x1 to 0x8 (R58 to R60). -/
def reservedWord (w : EventWord) : Prop :=
  opField w = 0x0#4 ∨ opField w = 0xF#4 ∨ rsvField w ≠ 0 ∨ (opField w ≤ 0x8#4 ∧ chField w ≠ 0) ∨
    dataField w &&& mustBeZero (opField w) ≠ 0

/-! Sums of deltas (R89) and transparency (R105). -/

/-- One sample of the phase lines: the levels and the time. -/
structure PhaseSample where
  a : Bool
  b : Bool
  now : U32
deriving DecidableEq, Repr

/-- The phase state of a sample (R12). -/
def PhaseSample.state (x : PhaseSample) : PhaseState := phaseState x.a x.b

/-- The event that presents a sample. -/
def PhaseSample.event (x : PhaseSample) : Instr := .phase x.a x.b x.now

/-- The sum of the table's deltas along the phase states visited from `p` (R89 a). -/
def deltaSum : PhaseState → List PhaseState → Int
  | _, [] => 0
  | p, q :: qs => qtab p q + deltaSum q qs

/-- The glitch filter rejects none of the samples (R89: `GLITCH_US = 0`, or edges at least `GLITCH_US` apart). From the
phase state `p`, with the valid flag and the time of the last accepted edge: each valid transition comes at least `g`
after the accepted edge before it, where there is one. -/
def rejectsNone (g : U32) : PhaseState → Bool → U32 → List PhaseSample → Bool
  | _, _, _, [] => true
  | p, valid, last, x :: xs =>
    if qtab p x.state = 0 then rejectsNone g x.state valid last xs
    else (!valid || g ≤ subTs x.now last) && rejectsNone g x.state true x.now xs

/-- The events of R105's traces: `PHASE`, `INDEX`, `GET_POS`, `SNAPSHOT`, `RESET_POS`, and `SET_POS v` with
`PCNT_RANGE` dividing `v`. -/
def transparentEvent (c : Cfg) : Instr → Prop
  | .phase _ _ _ => True
  | .index _ => True
  | .getPos => True
  | .snapshot => True
  | .resetPos => True
  | .setPos v => (c.pcntRange : Int) ∣ v.toInt
  | .init _ _ _ _ => False
  | .getIndex => False
  | .lcPoll _ _ _ _ => False
  | .tare _ => False
  | .calibrate _ _ => False
  | .getForce _ => False
  | .getRaw _ => False
  | .getScale _ => False

/-! Index reports (R118). -/

/-- The rising transitions among the `INDEX` samples of a trace, the first compared with the level `pz`; an `INIT`
latches the level (R118). -/
def risings : Bool → List Instr → Nat
  | _, [] => 0
  | _, .init _ _ z _ :: tr => risings z tr
  | pz, .index z :: tr => (if indexRises pz z then 1 else 0) + risings z tr
  | pz, _ :: tr => risings pz tr

/-- The `GET_INDEX` responses equal to 1. -/
def indexReports (rs : List (Instr × Response)) : Nat := rs.countP fun p => p.1 == .getIndex && p.2.r0 == 1

/-- The values that the `GET_INDEX` operations of a trace answered, in order. -/
def indexAnswers (rs : List (Instr × Response)) : List Lane := (rs.filter fun p => p.1 == .getIndex).map fun p => p.2.r0

/-! Rounding (R9). -/

/-- The value of a finite pattern. -/
def f32Value (x : F32) : ℚ := f32Units x / 2 ^ 149

/-- Half a unit in the last place above the largest finite value: from here on a magnitude rounds to the infinity. -/
def f32Overflow : ℚ := (2 ^ 25 - 1) * 2 ^ 103

/-- `r` is the exact value `q` rounded once, to nearest, ties to even (R9): no finite value is nearer, and where another
one is as near, the pattern of `r` is even; from `f32Overflow` on it is the infinity; the sign is that of `q`. The sign of
a zero result for `q = 0` is left to the operation. -/
structure RoundsTo (q : ℚ) (r : F32) : Prop where
  nearest : |q| < f32Overflow → f32IsFinite r = true ∧ ∀ z, f32IsFinite z = true →
    |q - f32Value r| ≤ |q - f32Value z| ∧
      (|q - f32Value r| = |q - f32Value z| → f32Value z ≠ f32Value r → r.toNat % 2 = 0)
  overflow : f32Overflow ≤ |q| → f32IsInf r = true
  negative : q < 0 → f32Neg r = true
  positive : 0 < q → f32Neg r = false

end Sys2Proof.Safety
end

