-- ==== Sys2Proof/WellFormed.lean ====
section
/-! DEFINITION. When an event is in the form an assembler writes. Every operand is typed by its field's width, so the
only check left is R61's: with `ready = 0` the sample is ignored and "an assembler writes it as 0". An event outside
this form still has a legal word and runs (R61, R65; log 11). -/

namespace Sys2Proof

/-- R61: a poll that brings no sample carries a zero `smp` field. -/
def sampleCanonical (ready : Bool) (smp : Sample) : Bool := ready || smp == 0

/-- The form an assembler writes (R61). -/
def Instr.wellFormed : Instr → Bool
  | .lcPoll _ ready smp _ => sampleCanonical ready smp
  | .init _ _ _ _ => true
  | .phase _ _ _ => true
  | .index _ => true
  | .getPos => true
  | .resetPos => true
  | .setPos _ => true
  | .snapshot => true
  | .getIndex => true
  | .tare _ => true
  | .calibrate _ _ => true
  | .getForce _ => true
  | .getRaw _ => true
  | .getScale _ => true

end Sys2Proof
end

