-- ==== Sys2Proof/Certificates/Slice0/Obligations.lean ====
section
/-! DEFINITION. The statements for the provers. Each docstring says which rule of spec/ it formalises; what rests on a
choice of the model names the log entry. -/

open Sys2Proof Sys2Proof.Machine Sys2Proof.Safety

/-! ## Encoding (30_encoding.md) -/

/-- Words written out from the spec's formats (95_test_vectors.md V-E1, V-E2) decode as the spec says. -/
def Obligations.SpecWordsDecode : Prop :=
  decode 0x10000000000712345678 = .event (.init true true true 0x12345678) ∧
  decode 0x2000000000010000012C = .event (.phase false true 300) ∧
  decode 0x30000000000000000001 = .event (.index true) ∧
  decode 0x6000FFFFFFFFFFFFFFFB = .event (.setPos (-5)) ∧
  decode 0x80000000000000000000 = .event .getIndex ∧
  decode 0x910001FFFC1800002AF8 = .event (.lcPoll 1 true 0xFFFC18 11000) ∧
  decode 0xB200000000003F800000 = .event (.calibrate 2 0x3F800000) ∧
  decode 0xC5000000000000000000 = .event (.getForce 5) ∧
  decode 0x40000000000000000001 = .reserved .dataBits

/-- Decoding an event's word gives the event back, with every operand at every value its field admits (R57 to R61). -/
def Obligations.DecodeOfEncode : Prop := ∀ i : Instr, decode (encode i) = .event i

/-- R69: every legal word is the word of the event it decodes to, so two legal words with different bits never decode to
the same event with the same operands. (The model keeps an ignored `smp`, log 11.) -/
def Obligations.EncodeOfDecode : Prop := ∀ (w : EventWord) (i : Instr), decode w = .event i → encode i = w

/-- R65: which words are reserved. An `LC_POLL` is never reserved for its `smp` field. -/
def Obligations.ReservedWordsExactly : Prop := ∀ w : EventWord, (∃ why, decode w = .reserved why) ↔ reservedWord w

/-- The decoder and spec/opcode_table.json agree: a word that decodes matches exactly one row, that of its event's
mnemonic, and a word that matches a row decodes (R58, R69). -/
def Obligations.DecodeAgreesWithOpcodeTable : Prop :=
  (∀ (w : EventWord) (i : Instr), decode w = .event i →
    ∃ row ∈ opcodeTable, row.covers w = true ∧ row.mnemonic = i.mnemonic ∧
      ∀ other ∈ opcodeTable, other.covers w = true → other = row) ∧
  (∀ w : EventWord, (∃ row ∈ opcodeTable, row.covers w = true) → ∃ i, decode w = .event i)

/-- R43: a word is stored as ten bytes, the most significant first; a stream of bytes that begins with them decodes to the
word's meaning and the rest. -/
def Obligations.BytesMostSignificantFirst : Prop :=
  ∀ (w : EventWord) (rest : List Byte),
    (toBytes w).length = 10 ∧ (toBytes w).head? = some (w.extractLsb' 72 8) ∧
    joinBytes (toBytes w) = w ∧ decodeBytes (toBytes w ++ rest) = some (decode w, rest)

/-- R61: the sample that 24 serial bits spell is the sum of `d_i * 2^(23-i)`, the first received the most significant. -/
def Obligations.SampleBitsMostSignificantFirst : Prop :=
  ∀ levels : List Bool, levels.length = 24 →
    (assembleSample levels).toNat = ∑ i ∈ Finset.range 24, (levels.getD i false).toNat * 2 ^ (23 - i)

/-- R125: the value of a sample; and, as R135 says, accumulating it loses nothing, in a record that meets the
invariant. -/
def Obligations.SampleValue : Prop :=
  ∀ smp : Sample,
    (sext32 smp).toInt = (if smp.toNat < 0x800000 then (smp.toNat : Int) else (smp.toNat : Int) - 2 ^ 24) ∧
    -8388608 ≤ (sext32 smp).toInt ∧ (sext32 smp).toInt ≤ 8388607 ∧
    ∀ (c : Cfg) (k : Channel), ChannelInv c k →
      (k.accumulate smp).sum.toInt = k.sum.toInt + (sext32 smp).toInt ∧
      (k.accumulate smp).cnt.toNat = k.cnt.toNat + 1

/-! ## Steps (R4, R45), reset (R35, R180), refusals -/

/-- A step takes the next event word off the input stream and runs what it decodes to. -/
def Obligations.StepRunsTheDecodedEvent : Prop :=
  ∀ (s : State) (w : EventWord) (i : Instr) (rest : List Stimulus),
    cfgLegal s.cfg = true → s.input = .event w :: rest → decode w = .event i →
    step s = exec i { s with input := rest }

/-- R66's effect: a reserved word changes no state and gives the all-zero output (the model's choice against 93 U6's
advice to refuse, log 5). With nothing presented a step idles (log 3). -/
def Obligations.StepIgnoresReservedWord : Prop :=
  (∀ (s : State) (w : EventWord) (why : ReservedWhy) (rest : List Stimulus),
    cfgLegal s.cfg = true → s.input = .event w :: rest → decode w = .reserved why →
    step s = .next { s with input := rest, out := ⟨false, 0, 0, 0⟩ }) ∧
  (∀ s : State, cfgLegal s.cfg = true → s.input = [] → step s = .next { s with out := ⟨false, 0, 0, 0⟩ })

/-- R160: no exception, trap, fault or error for any event word in any state (with a CFG the rules are meant for). -/
def Obligations.EveryStepGoesOn : Prop :=
  (∀ s : State, cfgLegal s.cfg = true → ∃ t, step s = .next t) ∧ (∀ (i : Instr) (s : State), ∃ t, exec i s = .next t)

/-- 93 U5: a step is refused, by name, exactly when CFG lies outside the legal ranges of R5's table, written out here
(log 6). `GLITCH_US` and `FLUSH_TIMEOUT_US` may have any value. -/
def Obligations.StepRefusesExactlyIllegalConfig : Prop :=
  ∀ (s : State) (r : Refusal), step s = .refused r ↔ r = .illegalConfig ∧
    ¬((s.cfg.nCh = 1 ∨ s.cfg.nCh = 2) ∧
      (1 ≤ s.cfg.oversample.toNat ∧ s.cfg.oversample.toNat ≤ 2 ^ 32 - 1) ∧
      (f32IsFinite s.cfg.beta = true ∧ 0 < f32Value s.cfg.beta ∧ f32Value s.cfg.beta ≤ 1) ∧
      (1 ≤ s.cfg.pcntRange ∧ s.cfg.pcntRange ≤ 2 ^ 15 - 1) ∧
      (1 ≤ s.cfg.pcntScale ∧ s.cfg.pcntScale ≤ 2 ^ 31 - 1))

/-- R32: no event changes the configuration. The clauses about the input stream are R56's in the model's form: a step
takes the next stimulus off it, if there is one, an idle step (log 3) and a hardware reset (log 12) included, and an event
does not touch it. -/
def Obligations.ConfigurationNeverChanges : Prop :=
  (∀ s t : State, step s = .next t → t.cfg = s.cfg ∧ t.input = s.input.tail) ∧
  (∀ (i : Instr) (s t : State), exec i s = .next t → t.cfg = s.cfg ∧ t.input = s.input)

/-- R35: the reset values, for every configuration, and how the state after `INIT` differs from them. -/
def Obligations.ResetTable : Prop :=
  ∀ c : Cfg, cfgLegal c = true →
    let s := State.resetWith c
    s.cfg = c ∧ s.pos = 0 ∧ s.prev = 0 ∧ s.lastEdgeT = 0 ∧ s.lastInterval = 0 ∧ s.lastDir = 0 ∧ s.edgeValid = false ∧
    s.pcntReg = 0 ∧ s.ovf = 0 ∧ s.idxFlag = false ∧ s.prevZ = false ∧
    (∀ (ch : ChanIx) (k : Channel), s.chan ch = some k →
      k.sum = 0 ∧ k.cnt = 0 ∧ k.offset = 0 ∧ k.tared = false ∧ k.scale = 0 ∧ k.lastRaw = 0 ∧ k.filt = 0 ∧
      k.lastFlushT = 0) ∧
    (∀ (a b z : Bool) (now : U32), ∃ t, exec (.init a b z now) s = .next t ∧
      sameSpecState t { s with
        prev := t.prev
        prevZ := t.prevZ
        ch0 := { s.ch0 with lastFlushT := t.ch0.lastFlushT }
        ch1 := { s.ch1 with lastFlushT := t.ch1.lastFlushT } })

/-- R180: the hardware reset in a run gives the state of `INIT a=0 b=0 z=0 now=0`, which from reset is the reset state. -/
def Obligations.HardwareResetEqualsInitZero : Prop :=
  (∀ (s : State) (rest : List Stimulus), cfgLegal s.cfg = true → s.input = .reset :: rest →
    ∃ t u, step s = .next t ∧ exec (.init false false false 0) s = .next u ∧ sameSpecState t u ∧
      sameSpecState t (State.resetWith s.cfg) ∧ t.cfg = s.cfg ∧ t.input = rest ∧ t.out = ⟨false, 0, 0, 0⟩)

/-- R150: `INIT`, from any state: every field, the channels that exist and the response; nothing it wrote depends on the
state before. -/
def Obligations.InitResult : Prop :=
  ∀ (a b z : Bool) (now : U32) (s : State), ∃ t, exec (.init a b z now) s = .next t ∧
    t.pos = 0 ∧ t.prev.toNat = 2 * a.toNat + b.toNat ∧ t.lastEdgeT = 0 ∧ t.lastInterval = 0 ∧ t.lastDir = 0 ∧
    t.edgeValid = false ∧ t.pcntReg = 0 ∧ t.ovf = 0 ∧ t.idxFlag = false ∧ t.prevZ = z ∧
    (∀ ch : ChanIx, (t.chan ch).isSome = (s.chan ch).isSome ∧ ∀ k, t.chan ch = some k →
      k.sum = 0 ∧ k.cnt = 0 ∧ k.offset = 0 ∧ k.tared = false ∧ k.scale = 0 ∧ k.lastRaw = 0 ∧ k.filt = 0 ∧
      k.lastFlushT = now) ∧
    t.out = ⟨true, 0, 0, 0⟩ ∧ t.cfg = s.cfg ∧ t.input = s.input

/-! ## The quadrature decoder (40_quadrature_edge.md, 41_quadrature_pcnt.md) -/

/-- R80: the sixteen entries of the transition table, by old and new levels of A and B. -/
def Obligations.TransitionTable : Prop :=
  let q := fun (a b a' b' : Bool) => qtab (phaseState a b) (phaseState a' b')
  (q false false false false = 0 ∧ q false false false true = -1 ∧ q false false true false = 1 ∧
    q false false true true = 0) ∧
  (q false true false false = 1 ∧ q false true false true = 0 ∧ q false true true false = 0 ∧
    q false true true true = -1) ∧
  (q true false false false = -1 ∧ q true false false true = 0 ∧ q true false true false = 0 ∧
    q true false true true = 1) ∧
  (q true true false false = 0 ∧ q true true false true = 1 ∧ q true true true false = -1 ∧
    q true true true true = 0)

/-- R91 (the source's part of the table): antisymmetric, and nonzero exactly when one line changed. -/
def Obligations.TransitionTableAntisymmetric : Prop :=
  ∀ a b a' b' : Bool,
    qtab (phaseState a b) (phaseState a' b') = -qtab (phaseState a' b') (phaseState a b) ∧
    (qtab (phaseState a b) (phaseState a' b') ≠ 0 ↔ ((a ≠ a') ∧ b = b') ∨ (a = a' ∧ (b ≠ b')))

/-- R82 with R83, R84: `PHASE` in `VARIANT = EDGE`, both arms, every field. -/
def Obligations.PhaseEdgeResult : Prop :=
  ∀ (a b : Bool) (now : U32) (s : State), s.cfg.variant = .edge →
    let d := qtab s.prev (phaseState a b)
    let dt : Int := ((now.toNat : Int) - s.lastEdgeT.toNat) % 2 ^ 32
    ∃ t, exec (.phase a b now) s = .next t ∧ t.prev.toNat = 2 * a.toNat + b.toNat ∧
      (if d = 0 ∨ (s.edgeValid = true ∧ dt < (s.cfg.glitchUs.toNat : Int)) then
        t.pos = s.pos ∧ t.lastDir = s.lastDir ∧ t.lastInterval = s.lastInterval ∧ t.lastEdgeT = s.lastEdgeT ∧
        t.edgeValid = s.edgeValid
      else
        t.pos.toInt = (s.pos.toInt + d).bmod (2 ^ 64) ∧ t.lastDir.toInt = d ∧
        (t.lastInterval.toNat : Int) = (if s.edgeValid = true then dt else 0) ∧ t.lastEdgeT = now ∧
        t.edgeValid = true) ∧
      t.pcntReg = s.pcntReg ∧ t.ovf = s.ovf ∧ t.idxFlag = s.idxFlag ∧ t.prevZ = s.prevZ ∧ t.ch0 = s.ch0 ∧
      t.ch1 = s.ch1 ∧ t.cfg = s.cfg ∧ t.input = s.input ∧ t.out = ⟨false, 0, 0, 0⟩

/-- R83: at either end of the 64-bit range an accepted edge wraps; no saturation. -/
def Obligations.PositionWrapsAtTheEnds : Prop :=
  ∀ (a b : Bool) (now : U32) (s t : State), s.cfg.variant = .edge →
    (s.edgeValid = true → s.cfg.glitchUs ≤ subTs now s.lastEdgeT) → exec (.phase a b now) s = .next t →
    (s.pos.toInt = 2 ^ 63 - 1 → qtab s.prev (phaseState a b) = 1 → t.pos.toInt = -(2 ^ 63)) ∧
    (s.pos.toInt = -(2 ^ 63) → qtab s.prev (phaseState a b) = -1 → t.pos.toInt = 2 ^ 63 - 1)

/-- R89 (d): two valid transitions, the first accepted, the second closer than the glitch interval: the second changes
only `PREV`. -/
def Obligations.GlitchDropsTheSecondEdge : Prop :=
  ∀ (x y : PhaseSample) (s t u : State), s.cfg.variant = .edge →
    qtab s.prev x.state ≠ 0 → qtab x.state y.state ≠ 0 →
    (s.edgeValid = true → s.cfg.glitchUs ≤ subTs x.now s.lastEdgeT) →
    subTs y.now x.now < s.cfg.glitchUs →
    exec x.event s = .next t → exec y.event t = .next u →
    t.pos.toInt = (s.pos.toInt + qtab s.prev x.state).bmod (2 ^ 64) ∧ sameButOut u { t with prev := y.state }

/-- R89 (a): where the glitch filter rejects none of the samples (`GLITCH_US = 0`, or edges at least `GLITCH_US` apart),
the position after any sequence of samples is the position before plus the sum of the table's deltas, modulo 2^64. -/
def Obligations.PositionIsTheSumOfDeltas : Prop :=
  ∀ (xs : List PhaseSample) (s : State), s.cfg.variant = .edge →
    s.cfg.glitchUs = 0 ∨ rejectsNone s.cfg.glitchUs s.prev s.edgeValid s.lastEdgeT xs = true →
    ∃ t, applyTrace (xs.map PhaseSample.event) s = some (t, []) ∧
      t.pos.toInt = (s.pos.toInt + deltaSum s.prev (xs.map PhaseSample.state)).bmod (2 ^ 64)

/-- R89 (b): a sequence of samples followed by its reversal brings the position back, where the glitch filter rejects none
of them (`GLITCH_US = 0`, or edges at least `GLITCH_US` apart). (The rule says it of single-line transitions; a change of
both lines moves nothing either way.) -/
def Obligations.ReversalRestoresPosition : Prop :=
  ∀ (xs ys : List PhaseSample) (s : State), s.cfg.variant = .edge →
    s.cfg.glitchUs = 0 ∨ rejectsNone s.cfg.glitchUs s.prev s.edgeValid s.lastEdgeT (xs ++ ys) = true →
    ys.map PhaseSample.state = ((s.prev :: xs.map PhaseSample.state).reverse).tail →
    ∃ t, applyTrace ((xs ++ ys).map PhaseSample.event) s = some (t, []) ∧ t.pos = s.pos

/-- R101: `PHASE` in `VARIANT = PCNT`: the register, the limit events and the frame; `now` plays no part. -/
def Obligations.PhasePcntResult : Prop :=
  ∀ (a b : Bool) (now : U32) (s : State), s.cfg.variant = .pcnt →
    s.cfg.pcntRange ≤ 2 ^ 15 - 1 → -(s.cfg.pcntRange : Int) < s.pcntReg.toInt → s.pcntReg.toInt < s.cfg.pcntRange →
    let d := qtab s.prev (phaseState a b)
    let r := s.pcntReg.toInt + d
    ∃ t, exec (.phase a b now) s = .next t ∧ t.prev.toNat = 2 * a.toNat + b.toNat ∧
      (if d = 0 then t.pcntReg = s.pcntReg ∧ t.ovf = s.ovf
       else if r = s.cfg.pcntRange then t.pcntReg = 0 ∧ t.ovf.toInt = (s.ovf.toInt + 1).bmod (2 ^ 64)
       else if r = -(s.cfg.pcntRange : Int) then t.pcntReg = 0 ∧ t.ovf.toInt = (s.ovf.toInt - 1).bmod (2 ^ 64)
       else t.pcntReg.toInt = r ∧ t.ovf = s.ovf) ∧
      t.pos = s.pos ∧ t.lastDir = s.lastDir ∧ t.lastInterval = s.lastInterval ∧ t.lastEdgeT = s.lastEdgeT ∧
      t.edgeValid = s.edgeValid ∧ t.idxFlag = s.idxFlag ∧ t.prevZ = s.prevZ ∧ t.ch0 = s.ch0 ∧ t.ch1 = s.ch1 ∧
      t.cfg = s.cfg ∧ t.input = s.input ∧ t.out = ⟨false, 0, 0, 0⟩

/-- R102: in `VARIANT = PCNT` every valid transition moves the position by `d * PCNT_SCALE` modulo 2^64, limit event or
not. -/
def Obligations.PcntPositionIsContinuous : Prop :=
  ∀ (a b : Bool) (now : U32) (s t : State), s.cfg.variant = .pcnt →
    s.cfg.pcntRange ≤ 2 ^ 15 - 1 → -(s.cfg.pcntRange : Int) < s.pcntReg.toInt → s.pcntReg.toInt < s.cfg.pcntRange →
    exec (.phase a b now) s = .next t →
    t.position.toInt =
      (s.position.toInt + qtab s.prev (phaseState a b) * (s.cfg.pcntScale : Int)).bmod (2 ^ 64)

/-- R85 with R19 and R63: `GET_POS` in both variants; it changes nothing but the response. -/
def Obligations.GetPosResult : Prop :=
  ∀ s : State, ∃ t, exec .getPos s = .next t ∧ sameButOut t s ∧ t.out.valid = true ∧ t.out.r1 = 0 ∧ t.out.r2 = 0 ∧
    (s.cfg.variant = .edge → t.out.r0 = s.pos) ∧
    (s.cfg.variant = .pcnt → t.out.r0.toInt =
      ((s.ovf.toInt * s.cfg.pcntRange + s.pcntReg.toInt) * s.cfg.pcntScale).bmod (2 ^ 64))

/-- R86: `RESET_POS` in both variants: the position fields, the frame, and the position 0 afterwards. -/
def Obligations.ResetPosResult : Prop :=
  ∀ s : State, ∃ t, exec .resetPos s = .next t ∧ t.out = ⟨true, 0, 0, 0⟩ ∧ t.position = 0 ∧
    (s.cfg.variant = .edge → sameButOut t { s with pos := 0 }) ∧
    (s.cfg.variant = .pcnt → sameButOut t { s with pcntReg := 0, ovf := 0 })

/-- R87 and R104: `SET_POS` in both variants, exact in `EDGE`, truncated to a whole number of ranges in `PCNT`; `SET_POS
v=0` equals `RESET_POS`. -/
def Obligations.SetPosResult : Prop :=
  (∀ (v : I64) (s : State), cfgLegal s.cfg = true →
    let m : Int := s.cfg.pcntRange * s.cfg.pcntScale
    ∃ t, exec (.setPos v) s = .next t ∧ t.out = ⟨true, 0, 0, 0⟩ ∧
      (s.cfg.variant = .edge → sameButOut t { s with pos := v } ∧ t.position = v) ∧
      (s.cfg.variant = .pcnt → sameButOut t { s with pcntReg := 0, ovf := t.ovf } ∧
        t.ovf.toInt = Int.tdiv v.toInt m ∧ t.position.toInt = Int.tdiv v.toInt m * m ∧
        |v.toInt - t.position.toInt| < m ∧ 0 ≤ (v.toInt - t.position.toInt) * v.toInt ∧
        (m ∣ v.toInt → t.position = v))) ∧
  (∀ s : State, exec (.setPos 0) s = exec .resetPos s)

/-- R88 with R64: the three lanes of `SNAPSHOT`, from one state; it changes nothing but the response. The second part is
R88's corner cases, which rest on the invariant. -/
def Obligations.SnapshotResult : Prop :=
  (∀ s : State, ∃ t, exec .snapshot s = .next t ∧ sameButOut t s ∧ t.out.valid = true ∧ t.out.r0 = s.position ∧
    t.out.r1.toNat = s.lastInterval.toNat * 2 ^ 32 + s.lastEdgeT.toNat ∧
    t.out.r2.toNat = s.lastDir.toNat + 4 * s.edgeValid.toNat + 8 * (if s.cfg.variant = .edge then 1 else 0)) ∧
  (∀ s : State, Inv s →
    (s.cfg.variant = .pcnt → exec .snapshot s = .next { s with out := ⟨true, s.position, 0, 0⟩ }) ∧
    (s.cfg.variant = .edge → s.edgeValid = false →
      exec .snapshot s = .next { s with out := ⟨true, s.position, 0, 8⟩ }))

/-- R105: with `PCNT_SCALE = 1` and `GLITCH_US = 0` the two variants give the same responses in lane `r0` on every trace
of R105's events, from the reset state and after the same `INIT`. -/
def Obligations.VariantsAreTransparent : Prop :=
  ∀ (c : Cfg) (tr : List Instr), cfgLegal c = true → c.pcntScale = 1 → c.glitchUs = 0 →
    (∀ i ∈ tr, transparentEvent c i) →
    ∀ pre : List Instr, pre = [] ∨ (∃ a b z now, pre = [.init a b z now]) →
    ∃ s rs t qs,
      applyTrace (pre ++ tr) (State.resetWith { c with variant := .edge }) = some (s, rs) ∧
      applyTrace (pre ++ tr) (State.resetWith { c with variant := .pcnt }) = some (t, qs) ∧
      rs.map (fun p => (p.1, p.2.r0)) = qs.map (fun p => (p.1, p.2.r0))

/-! ## The index latch (42_index_latch.md) -/

/-- R116: `INDEX`, every field. -/
def Obligations.IndexResult : Prop :=
  ∀ (z : Bool) (s : State), ∃ t, exec (.index z) s = .next t ∧ t.prevZ = z ∧
    (t.idxFlag = true ↔ s.idxFlag = true ∨ (s.prevZ = false ∧ z = true)) ∧
    sameButOut t { s with idxFlag := t.idxFlag, prevZ := t.prevZ } ∧ t.out = ⟨false, 0, 0, 0⟩

/-- R117: `GET_INDEX` answers the flag and clears it; `PREV_Z` and everything else stay. -/
def Obligations.GetIndexResult : Prop :=
  ∀ s : State, ∃ t, exec .getIndex s = .next t ∧ sameButOut t { s with idxFlag := false } ∧ t.out.valid = true ∧
    t.out.r0.toNat = (if s.idxFlag = true then 1 else 0) ∧ t.out.r1 = 0 ∧ t.out.r2 = 0

/-- R118: over any trace the reports never exceed the rising transitions (one more when the flag was set before). -/
def Obligations.IndexReportsAtMostRisings : Prop :=
  ∀ (tr : List Instr) (s : State), ∃ t rs, applyTrace tr s = some (t, rs) ∧
    indexReports rs ≤ risings s.prevZ tr + (if s.idxFlag = true then 1 else 0)

/-- R118: any positive number of rising transitions, with no `GET_INDEX` and no `INIT` between, gives the single
response 1, at the next `GET_INDEX`; the one after it, with no `INDEX` between, answers 0. -/
def Obligations.RisingIsReportedOnce : Prop :=
  ∀ (mid quietTail : List Instr) (s : State),
    (∀ i ∈ mid, i ≠ .getIndex ∧ isInit i = false) → 0 < risings s.prevZ mid →
    (∀ i ∈ quietTail, i ≠ .getIndex ∧ isIndex i = false) →
    ∃ t rs, applyTrace (mid ++ [.getIndex] ++ quietTail ++ [.getIndex]) s = some (t, rs) ∧ indexAnswers rs = [1, 0]

/-! ## The load cell (43_load_cell.md) -/

/-- R42: an operation on a channel that does not exist changes no state and answers zero. -/
def Obligations.MissingChannelIsSilent : Prop :=
  ∀ (s : State) (ch : ChanIx) (i : Instr), s.cfg.nCh ≤ ch.toNat → i.channel = some ch →
    exec i s = .next { s with out := ⟨true, 0, 0, 0⟩ }

/-- R127, no flush due: the sample is accumulated, if one is ready, and nothing else changes. -/
def Obligations.PollAccumulates : Prop :=
  ∀ (s : State) (ch : ChanIx) (k : Channel) (ready : Bool) (smp : Sample) (now : U32),
    s.chan ch = some k → ChannelInv s.cfg k →
    (k.cnt.toNat + ready.toNat = 0 ∨
      (k.cnt.toNat + ready.toNat < s.cfg.oversample.toNat ∧
        ((now.toNat : Int) - k.lastFlushT.toNat) % (2 ^ 32 : Int) < (s.cfg.flushTimeoutUs.toNat : Int))) →
    ∃ t k', exec (.lcPoll ch ready smp now) s = .next t ∧ t.chan ch = some k' ∧ onlyChannel ch s t ∧
      t.out = ⟨true, 0, 0, 0⟩ ∧
      k'.sum.toInt = k.sum.toInt + (if ready = true then smp.toInt else 0) ∧
      k'.cnt.toNat = k.cnt.toNat + ready.toNat ∧
      k'.offset = k.offset ∧ k'.tared = k.tared ∧ k'.scale = k.scale ∧ k'.lastRaw = k.lastRaw ∧ k'.filt = k.filt ∧
      k'.lastFlushT = k.lastFlushT

/-- R127 and R128, a flush due: the average, the auto-tare, the scaling, the filter step, the emptied accumulator. A
filtered force that is a NaN is some NaN (R9, 93 U8: a free value, so the statement holds for every one). -/
def Obligations.PollFlushes : Prop :=
  ∀ (s : State) (ch : ChanIx) (k : Channel) (ready : Bool) (smp : Sample) (now : U32),
    s.chan ch = some k → ChannelInv s.cfg k →
    1 ≤ k.cnt.toNat + ready.toNat →
    (s.cfg.oversample.toNat ≤ k.cnt.toNat + ready.toNat ∨
      (s.cfg.flushTimeoutUs.toNat : Int) ≤ ((now.toNat : Int) - k.lastFlushT.toNat) % (2 ^ 32 : Int)) →
    let sum : Int := k.sum.toInt + (if ready = true then smp.toInt else 0)
    let cnt : Int := k.cnt.toNat + ready.toNat
    ∃ (t : State) (k' : Channel) (diff : I32), exec (.lcPoll ch ready smp now) s = .next t ∧ t.chan ch = some k' ∧ onlyChannel ch s t ∧
      t.out = ⟨true, 0, 0, 0⟩ ∧
      k'.lastRaw.toInt = Int.tdiv sum cnt ∧ k'.tared = true ∧
      k'.offset = (if k.tared = true then k.offset else k'.lastRaw) ∧
      k'.sum = 0 ∧ k'.cnt = 0 ∧ k'.scale = k.scale ∧ k'.lastFlushT = now ∧
      diff.toInt = k'.lastRaw.toInt - k'.offset.toInt ∧
      ∀ w : F32,
        let inst := if f32Gt0 k.scale = true then f32Div (i32ToF32 diff) k.scale w else 0x00000000
        let filt := f32Add (f32Mul s.cfg.beta inst w) (f32Mul (f32Sub 0x3F800000 s.cfg.beta w) k.filt w) w
        k'.filt = filt ∨ (f32IsNan k'.filt = true ∧ f32IsNan filt = true)

/-- R61: with `ready = 0` the step does not depend on `smp`. -/
def Obligations.SampleIgnoredWhenNotReady : Prop :=
  ∀ (s : State) (ch : ChanIx) (smp smp' : Sample) (now : U32),
    exec (.lcPoll ch false smp now) s = exec (.lcPoll ch false smp' now) s

/-- R130: `TARE` writes `OFFSET` of a channel that exists, and nothing else; otherwise it does nothing. -/
def Obligations.TareResult : Prop :=
  (∀ (s : State) (ch : ChanIx) (k : Channel), s.chan ch = some k →
    ∃ t, exec (.tare ch) s = .next t ∧ t.chan ch = some { k with offset := k.lastRaw } ∧ onlyChannel ch s t ∧
      t.out = ⟨true, 0, 0, 0⟩) ∧
  (∀ (s : State) (ch : ChanIx), s.cfg.nCh ≤ ch.toNat →
    exec (.tare ch) s = .next { s with out := ⟨true, 0, 0, 0⟩ })

/-- R131: `CALIBRATE` on a channel that exists is accepted exactly when the weight is greater than 0, with the quotient of
the exact difference, and rejected otherwise; on another channel it does nothing. The quotient is never a NaN, so no free
value enters. -/
def Obligations.CalibrateResult : Prop :=
  (∀ (s : State) (ch : ChanIx) (k : Channel) (wt : F32), s.chan ch = some k → ChannelInv s.cfg k →
    ∃ (t : State) (diff : I32), exec (.calibrate ch wt) s = .next t ∧ t.out = ⟨true, 0, 0, 0⟩ ∧
      diff.toInt = k.lastRaw.toInt - k.offset.toInt ∧
      (f32Gt0 wt = true → onlyChannel ch s t ∧ ∀ w : F32, f32IsNan (f32Div (i32ToF32 diff) wt w) = false ∧
        t.chan ch = some { k with scale := f32Div (i32ToF32 diff) wt w }) ∧
      (f32Gt0 wt = false → sameButOut t s)) ∧
  (∀ (s : State) (ch : ChanIx) (wt : F32), s.cfg.nCh ≤ ch.toNat →
    exec (.calibrate ch wt) s = .next { s with out := ⟨true, 0, 0, 0⟩ })

/-- The source's numeric example (R137 a, S6): a difference of 5000 and a weight of 10.0 store the scale 500.0, and the
same difference then gives the unfiltered force 10.0. -/
def Obligations.CalibrateSourceExample : Prop :=
  ∀ (s : State) (ch : ChanIx) (k : Channel), s.chan ch = some k → k.lastRaw - k.offset = 5000 →
    ∃ t k', exec (.calibrate ch 0x41200000) s = .next t ∧ t.chan ch = some k' ∧ k'.scale = 0x43FA0000 ∧
      ∀ w : F32, instForce k'.scale 5000 w = 0x41200000

/-- R132, R133, R134: the three accessors, with the widening of R63; 0 where there is no channel. -/
def Obligations.AccessorResults : Prop :=
  (∀ (s : State) (ch : ChanIx) (k : Channel), s.chan ch = some k →
    (∃ t, exec (.getForce ch) s = .next t ∧ sameButOut t s ∧ t.out.valid = true ∧ t.out.r0.toNat = k.filt.toNat ∧
      t.out.r1 = 0 ∧ t.out.r2 = 0) ∧
    (∃ t, exec (.getRaw ch) s = .next t ∧ sameButOut t s ∧ t.out.valid = true ∧ t.out.r0.toInt = k.lastRaw.toInt ∧
      t.out.r1 = 0 ∧ t.out.r2 = 0) ∧
    (∃ t, exec (.getScale ch) s = .next t ∧ sameButOut t s ∧ t.out.valid = true ∧ t.out.r0.toNat = k.scale.toNat ∧
      t.out.r1 = 0 ∧ t.out.r2 = 0)) ∧
  (∀ (s : State) (ch : ChanIx) (i : Instr), s.cfg.nCh ≤ ch.toNat →
    i = .getForce ch ∨ i = .getRaw ch ∨ i = .getScale ch →
    exec i s = .next { s with out := ⟨true, 0, 0, 0⟩ })

/-- R126, R23: an operation on one channel leaves every other channel's record alone, and neither what it leaves in its
own channel nor its response depends on anything but CFG and that channel. -/
def Obligations.ChannelsAreIsolated : Prop :=
  (∀ (i : Instr) (c c' : ChanIx) (s t : State), i.channel = some c → c ≠ c' → exec i s = .next t →
    t.chan c' = s.chan c') ∧
  (∀ (i : Instr) (c : ChanIx) (s s' t t' : State), i.channel = some c → s.cfg = s'.cfg → s.chan c = s'.chan c →
    exec i s = .next t → exec i s' = .next t' → t.chan c = t'.chan c ∧ t.out = t'.out)

/-- R136: once `FILT` is a NaN, every later event but `INIT` leaves it a NaN. -/
def Obligations.NanForcePersists : Prop :=
  ∀ (i : Instr) (s t : State) (c : ChanIx) (k : Channel), s.chan c = some k → f32IsNan k.filt = true →
    isInit i = false → exec i s = .next t → ∃ k', t.chan c = some k' ∧ f32IsNan k'.filt = true

/-- R136: with `BETA` in its legal range a NaN `FILT` arises only from an infinite or NaN one. -/
def Obligations.NanForceOnlyFromInfinity : Prop :=
  ∀ (i : Instr) (s t : State) (c : ChanIx) (k k' : Channel), cfgLegal s.cfg = true → s.chan c = some k →
    f32IsFinite k.filt = true → exec i s = .next t → t.chan c = some k' → f32IsNan k'.filt = false

/-- R192, R131 (c): while the scale is not greater than 0 a force of `+0.0` stays `+0.0`, whatever is polled. -/
def Obligations.UncalibratedForceStaysZero : Prop :=
  ∀ (s t : State) (c ch : ChanIx) (k k' : Channel) (ready : Bool) (smp : Sample) (now : U32),
    cfgLegal s.cfg = true → s.chan c = some k → f32Gt0 k.scale = false → k.filt = 0 →
    exec (.lcPoll ch ready smp now) s = .next t → t.chan c = some k' → k'.filt = 0

/-! ## Binary32 (R9) -/

/-- R9: every operation gives the exact result rounded once, to nearest, ties to even, on all finite operands (the
divisor not a zero), whatever the free value `w` is; an exact sum of value 0 has the sign that log 16 names, and a product
or quotient the sign of its operands, a zero included. The last part says the same of `roundMag n d`, the magnitude
pattern for `n / d` units of 2^-149, on which they all rest. -/
def Obligations.RoundsToNearestEven : Prop :=
  (∀ x y w : F32, f32IsFinite x = true → f32IsFinite y = true →
    RoundsTo (f32Value x + f32Value y) (f32Add x y w) ∧
    (f32Value x + f32Value y = 0 → f32Neg (f32Add x y w) = (f32Neg x && f32Neg y)) ∧
    RoundsTo (f32Value x - f32Value y) (f32Sub x y w) ∧
    (f32Value x - f32Value y = 0 → f32Neg (f32Sub x y w) = (f32Neg x && !f32Neg y)) ∧
    RoundsTo (f32Value x * f32Value y) (f32Mul x y w) ∧ f32Neg (f32Mul x y w) = (f32Neg x != f32Neg y) ∧
    (f32Value y ≠ 0 →
      RoundsTo (f32Value x / f32Value y) (f32Div x y w) ∧ f32Neg (f32Div x y w) = (f32Neg x != f32Neg y))) ∧
  (∀ n : I32, RoundsTo (n.toInt : ℚ) (i32ToF32 n) ∧ (n = 0 → i32ToF32 n = 0)) ∧
  (∀ n d m : Nat, 0 < d → roundMag n d < infMag → m < infMag →
    |(n : Int) - magUnits (roundMag n d) * d| ≤ |(n : Int) - magUnits m * d| ∧
    (|(n : Int) - magUnits (roundMag n d) * d| = |(n : Int) - magUnits m * d| → m ≠ roundMag n d →
      roundMag n d % 2 = 0))

/-- R9 with log 16 (IEEE 754's rules, PRESUMED): NaN operands, infinite operands, products of zero and infinity, and
division by and of zeros and infinities, whatever the free value `w` is. `f32Mag x = 0` says that `x` is a zero. -/
def Obligations.SpecialOperands : Prop :=
  ∀ x y w : F32,
    (f32IsNan x = true ∨ f32IsNan y = true →
      f32IsNan (f32Add x y w) = true ∧ f32IsNan (f32Sub x y w) = true ∧ f32IsNan (f32Mul x y w) = true ∧
      f32IsNan (f32Div x y w) = true) ∧
    (f32IsInf x = true → f32IsFinite y = true →
      f32Add x y w = x ∧ f32Sub x y w = x ∧
      (f32Mag y = 0 → f32IsNan (f32Mul x y w) = true) ∧
      (f32Mag y ≠ 0 → f32IsInf (f32Mul x y w) = true ∧ f32Neg (f32Mul x y w) = (f32Neg x != f32Neg y)) ∧
      f32IsInf (f32Div x y w) = true ∧ f32Neg (f32Div x y w) = (f32Neg x != f32Neg y)) ∧
    (f32IsFinite x = true → f32IsInf y = true →
      f32Add x y w = y ∧
      (f32IsInf (f32Sub x y w) = true ∧ f32Neg (f32Sub x y w) = !f32Neg y) ∧
      (f32Mag x = 0 → f32IsNan (f32Mul x y w) = true) ∧
      (f32Mag x ≠ 0 → f32IsInf (f32Mul x y w) = true ∧ f32Neg (f32Mul x y w) = (f32Neg x != f32Neg y)) ∧
      f32Mag (f32Div x y w) = 0 ∧ f32Neg (f32Div x y w) = (f32Neg x != f32Neg y)) ∧
    (f32IsInf x = true → f32IsInf y = true →
      (f32Neg x = f32Neg y → f32Add x y w = x ∧ f32IsNan (f32Sub x y w) = true) ∧
      (f32Neg x ≠ f32Neg y → f32IsNan (f32Add x y w) = true ∧ f32Sub x y w = x) ∧
      (f32IsInf (f32Mul x y w) = true ∧ f32Neg (f32Mul x y w) = (f32Neg x != f32Neg y)) ∧
      f32IsNan (f32Div x y w) = true) ∧
    (f32IsFinite x = true → f32Mag y = 0 →
      (f32Mag x = 0 → f32IsNan (f32Div x y w) = true) ∧
      (f32Mag x ≠ 0 → f32IsInf (f32Div x y w) = true ∧ f32Neg (f32Div x y w) = (f32Neg x != f32Neg y)))

/-- R9: the result is infinite exactly from half a unit in the last place above the largest finite value on. -/
def Obligations.OverflowsToInfinity : Prop :=
  ∀ (n d : Nat), 0 < d → (roundMag n d = infMag ↔ (2 ^ 25 - 1) * 2 ^ 252 * d ≤ n)

/-- R9, R36 (d): an integer of magnitude at most 2^24 converts exactly. -/
def Obligations.SmallIntegersConvertExactly : Prop :=
  ∀ n : I32, |n.toInt| ≤ 2 ^ 24 →
    f32IsFinite (i32ToF32 n) = true ∧ f32Units (i32ToF32 n) = n.toInt * 2 ^ 149

/-- R9: what `f32_gt0` is true of. -/
def Obligations.GreaterThanZero : Prop :=
  ∀ x : F32, f32Gt0 x = true ↔
    (f32IsFinite x = true ∧ 0 < f32Units x) ∨ (f32IsInf x = true ∧ f32Neg x = false)

/-! ## The whole machine -/

/-- R37: an event not listed for a field never writes it. -/
def Obligations.OnlyListedEventsWrite : Prop :=
  ∀ (f : Field) (i : Instr) (s t : State), exec i s = .next t → f.writers i = false → f.agrees s t

/-- R44 (c), (d): the five pure accessors change nothing and repeat their response; a second `GET_INDEX` answers 0. -/
def Obligations.AccessorsRepeat : Prop :=
  (∀ (i : Instr) (s t u : State),
    (i = .getPos ∨ i = .snapshot ∨ (∃ c, i = .getForce c) ∨ (∃ c, i = .getRaw c) ∨ (∃ c, i = .getScale c)) →
    exec i s = .next t → exec i t = .next u → sameButOut t s ∧ u = t) ∧
  (∀ s t u : State, exec .getIndex s = .next t → exec .getIndex t = .next u → u.out = ⟨true, 0, 0, 0⟩)

/-- The reset state of a block with a legal configuration meets the invariant. -/
def Obligations.ResetMeetsInvariant : Prop := ∀ c : Cfg, cfgLegal c = true → Inv (State.resetWith c)

/-- R36: every step keeps the invariant. -/
def Obligations.StepKeepsInvariant : Prop := ∀ s t : State, Inv s → step s = .next t → Inv t

/-- R36, item by item as the spec writes it, in every reachable state of a block with a legal configuration. -/
def Obligations.ReachableStatesMeetR36 : Prop :=
  ∀ (c : Cfg) (s : State), cfgLegal c = true → Reachable c s →
    (-(c.pcntRange : Int) < s.pcntReg.toInt ∧ s.pcntReg.toInt < c.pcntRange) ∧
    (∀ (ch : ChanIx) (k : Channel), s.chan ch = some k →
      k.cnt.toNat < max c.oversample.toNat 1 ∧ |k.sum.toInt| ≤ k.cnt.toNat * 2 ^ 23 ∧
      (-(2 ^ 23) ≤ k.lastRaw.toInt ∧ k.lastRaw.toInt ≤ 2 ^ 23 - 1) ∧
      (-(2 ^ 23) ≤ k.offset.toInt ∧ k.offset.toInt ≤ 2 ^ 23 - 1) ∧
      |k.lastRaw.toInt - k.offset.toInt| ≤ 2 ^ 24 - 1 ∧ (k.lastRaw - k.offset).toInt = k.lastRaw.toInt - k.offset.toInt ∧
      f32Units (i32ToF32 (k.lastRaw - k.offset)) = (k.lastRaw.toInt - k.offset.toInt) * 2 ^ 149) ∧
    (s.lastDir = 0#2 ∨ s.lastDir = 1#2 ∨ s.lastDir = 3#2) ∧ (s.lastDir = 0 ↔ s.edgeValid = false) ∧
    (c.variant = .pcnt →
      s.pos = 0 ∧ s.edgeValid = false ∧ s.lastDir = 0 ∧ s.lastInterval = 0 ∧ s.lastEdgeT = 0) ∧
    (c.variant = .edge → s.pcntReg = 0 ∧ s.ovf = 0)

/-- R52: the pairs it lists commute: the same state either way, and each event the same response. -/
def Obligations.DisjointEventsCommute : Prop :=
  ∀ (i j : Instr) (s : State), commutes i j = true →
    ∃ si sij sj sji, exec i s = .next si ∧ exec j si = .next sij ∧ exec j s = .next sj ∧ exec i sj = .next sji ∧
      sameButOut sij sji ∧ si.out = sji.out ∧ sij.out = sj.out

/-- R168, R47: one clock cycle with the command word of any event `i` is `PHASE`, then `INDEX`, then `i` (`p`, `q` and
`t` are the states after each), and without a command word it is the first two. What R168 draws from it: the count of the
same cycle is in the response of `GET_POS` and `SNAPSHOT`, and is overwritten by `RESET_POS`, `SET_POS` (which leaves the
position it would have left from `s`) and `INIT`; the first two keep the edge timing of the count; a rising index
transition of the same cycle is reported by `GET_INDEX`, which leaves the flag clear, and discarded by `INIT`. -/
def Obligations.SameCycleOrder : Prop :=
  ∀ (s : State) (a b z : Bool) (now : U32), cfgLegal s.cfg = true → s.input = [] →
    ∃ p q, exec (.phase a b now) s = .next p ∧ exec (.index z) p = .next q ∧
      Host.Core.run core 2 (s.present (cycleStimuli a b z now none)) = .next q ∧
      ∀ i : Instr, ∃ t, exec i q = .next t ∧
        Host.Core.run core 3 (s.present (cycleStimuli a b z now (some (encode i)))) = .next t ∧
        (i = .getPos → t.out = ⟨true, p.position, 0, 0⟩) ∧
        (i = .snapshot → t.out.valid = true ∧ t.out.r0 = p.position ∧
          t.out.r1.toNat = p.lastInterval.toNat * 2 ^ 32 + p.lastEdgeT.toNat ∧
          t.out.r2.toNat = p.lastDir.toNat + 4 * p.edgeValid.toNat + 8 * (if s.cfg.variant = .edge then 1 else 0)) ∧
        (i = .resetPos → t.position = 0) ∧
        (∀ v, i = .setPos v → ∃ u, exec (.setPos v) s = .next u ∧ t.position = u.position) ∧
        (i = .resetPos ∨ (∃ v, i = .setPos v) → t.prev = p.prev ∧ t.lastEdgeT = p.lastEdgeT ∧
          t.lastInterval = p.lastInterval ∧ t.lastDir = p.lastDir ∧ t.edgeValid = p.edgeValid) ∧
        (i = .getIndex → t.idxFlag = false ∧ (s.prevZ = false → z = true → t.out = ⟨true, 1, 0, 0⟩)) ∧
        (isInit i = true → t.position = 0 ∧ t.edgeValid = false ∧ t.idxFlag = false)

/-- R71, R153: `POLL` polls every channel that exists, each by its own operands. -/
def Obligations.PollServesEveryChannel : Prop :=
  ∀ (s : State) (now : U32) (x0 x1 : Reading), s.cfg.nCh = 1 ∨ s.cfg.nCh = 2 →
    ∃ t rs, applyTrace (pollOp s.cfg now x0 x1) s = some (t, rs) ∧ rs.length = s.cfg.nCh ∧
      t.chan 0 = some (s.ch0.poll s.cfg 0 x0.ready x0.smp now) ∧
      (s.cfg.nCh = 2 → t.chan 1 = some (s.ch1.poll s.cfg 1 x1.ready x1.smp now))

/-- R45, R197: stepping through a presented trace is applying its events in order, each to the state the one before left;
the last output is that of the last event. -/
def Obligations.RunAppliesTheTrace : Prop :=
  ∀ (tr : List Instr) (s : State), cfgLegal s.cfg = true → s.input = [] →
    ∃ t rs, applyTrace tr s = some (t, rs) ∧ Host.Core.run core tr.length (s.presentTrace tr) = .next t
end

