-- ==== Sys2Proof/Laws/Binary32.lean ====
section
/-! SUPPORT. Binary32 (R9): packing and classes of patterns, the order and spacing of the finite values, what rounding a
quotient does, and how little the free value of a NaN matters. -/

namespace Sys2Proof.Machine

/-! Patterns. -/

theorem f32Mag_lt (x : F32) : f32Mag x < 2 ^ 31 := Nat.mod_lt _ (by decide)

theorem f32Mag_pack (neg : Bool) {m : Nat} (h : m < 2 ^ 31) : f32Mag (f32Pack neg m) = m := by
  unfold f32Mag f32Pack
  rw [BitVec.toNat_ofNat]
  cases neg <;> simp <;> omega

theorem f32Neg_pack (neg : Bool) {m : Nat} (h : m < 2 ^ 31) : f32Neg (f32Pack neg m) = neg := by
  unfold f32Neg f32Pack
  rw [BitVec.msb_eq_decide, BitVec.toNat_ofNat]
  cases neg <;> simp <;> omega

/-- A pattern is its sign and magnitude. -/
theorem f32Pack_self (x : F32) : f32Pack (f32Neg x) (f32Mag x) = x := by
  apply BitVec.eq_of_toNat_eq
  unfold f32Pack f32Neg f32Mag
  rw [BitVec.toNat_ofNat, BitVec.msb_eq_decide]
  have := x.isLt
  simp only [decide_eq_true_eq]
  split <;> omega

/-- The three classes exclude each other and cover every pattern. -/
theorem f32_class (x : F32) :
    (f32IsNan x = true ∧ f32IsInf x = false ∧ f32IsFinite x = false) ∨
    (f32IsNan x = false ∧ f32IsInf x = true ∧ f32IsFinite x = false) ∨
    (f32IsNan x = false ∧ f32IsInf x = false ∧ f32IsFinite x = true) := by
  simp only [f32IsNan, f32IsInf, f32IsFinite, decide_eq_true_eq, decide_eq_false_iff_not, beq_iff_eq,
    beq_eq_false_iff_ne]
  omega

theorem f32IsNan_pack (neg : Bool) {m : Nat} (h : m ≤ infMag) : f32IsNan (f32Pack neg m) = false := by
  have hm : m < 2 ^ 31 := lt_of_le_of_lt h (by decide)
  simp [f32IsNan, f32Mag_pack neg hm, h]

theorem f32IsFinite_pack (neg : Bool) {m : Nat} (h : m < infMag) : f32IsFinite (f32Pack neg m) = true := by
  have hm : m < 2 ^ 31 := lt_trans h (by decide)
  simp [f32IsFinite, f32Mag_pack neg hm, h]

/-- A produced NaN is a NaN, whatever the free value is. -/
theorem f32IsNan_nan (w : F32) : f32IsNan (f32Nan w) = true := by
  unfold f32Nan
  cases h : f32IsNan w
  · rw [if_neg (by simp)]; decide
  · rw [if_pos rfl, h]

/-- The value of a packed finite pattern. -/
theorem f32Units_pack (neg : Bool) {m : Nat} (h : m < 2 ^ 31) :
    f32Units (f32Pack neg m) = if neg then -(magUnits m : Int) else magUnits m := by
  simp [f32Units, f32Neg_pack neg h, f32Mag_pack neg h]

/-! The sign turned, as `f32_sub` turns it. -/

theorem f32Neg_turn (x : F32) : f32Neg (x ^^^ f32NZero) = !f32Neg x := by
  have h : BitVec.msb (0x80000000#32) = true := by decide
  simp [f32Neg, f32NZero, h]

theorem f32Mag_turn (x : F32) : f32Mag (x ^^^ f32NZero) = f32Mag x := by
  have e : ∀ y : F32, f32Mag y = (y.extractLsb' 0 31).toNat := fun y => by simp [f32Mag, BitVec.extractLsb'_toNat]
  rw [e, e, BitVec.extractLsb'_xor]
  simp [f32NZero]

theorem f32Units_turn (x : F32) : f32Units (x ^^^ f32NZero) = -f32Units x := by
  unfold f32Units
  rw [f32Neg_turn, f32Mag_turn]
  cases f32Neg x <;> simp

/-! The finite values. -/

/-- A significand of 24 bits at exponent `k`, or a smaller one at exponent 0, or the carry 2^24: the pattern
`k * 2^23 + q` holds the value `q * 2^k`. -/
theorem magUnits_layout {k q : Nat} (hq : q ≤ 2 ^ 24) (hk : k = 0 ∨ 2 ^ 23 ≤ q) :
    magUnits (k * 2 ^ 23 + q) = q * 2 ^ k := by
  unfold magUnits
  by_cases h1 : q < 2 ^ 23
  · have hk0 : k = 0 := by omega
    subst hk0
    rw [if_pos (by omega)]; simp
  · by_cases h2 : q < 2 ^ 24
    · have hd : (k * 2 ^ 23 + q) / 2 ^ 23 = k + 1 := by omega
      have hm : (k * 2 ^ 23 + q) % 2 ^ 23 = q - 2 ^ 23 := by omega
      rw [hd, hm, if_neg (by omega), Nat.add_sub_cancel, show 2 ^ 23 + (q - 2 ^ 23) = q by omega]
    · have hq2 : q = 2 ^ 24 := by omega
      have hd : (k * 2 ^ 23 + q) / 2 ^ 23 = k + 2 := by omega
      have hm : (k * 2 ^ 23 + q) % 2 ^ 23 = 0 := by omega
      rw [hd, hm, if_neg (by omega), hq2, show k + 2 - 1 = k + 1 by omega, pow_succ]
      omega

/-- Every pattern is such a layout. -/
theorem mag_layout (m : Nat) : ∃ k q, m = k * 2 ^ 23 + q ∧ q < 2 ^ 24 ∧ (k = 0 ∨ 2 ^ 23 ≤ q) := by
  by_cases h : m / 2 ^ 23 = 0
  · exact ⟨0, m, by omega, by omega, .inl rfl⟩
  · exact ⟨m / 2 ^ 23 - 1, m % 2 ^ 23 + 2 ^ 23, by omega, by omega, .inr (by omega)⟩

/-- The values rise with the patterns, by the spacing of the lower one. -/
theorem magUnits_succ {k q : Nat} (hq : q < 2 ^ 24) (hk : k = 0 ∨ 2 ^ 23 ≤ q) :
    magUnits (k * 2 ^ 23 + q + 1) = magUnits (k * 2 ^ 23 + q) + 2 ^ k := by
  rw [add_assoc, magUnits_layout (by omega) (by omega), magUnits_layout (by omega) hk]
  ring

theorem magUnits_strictMono : StrictMono magUnits := by
  apply strictMono_nat_of_lt_succ
  intro m
  obtain ⟨k, q, rfl, hq, hk⟩ := mag_layout m
  rw [magUnits_succ hq hk]
  have := Nat.two_pow_pos k
  omega

/-- From `k * 2^23 + 2^23` on the values are whole multiples of `2^k`. -/
theorem magUnits_dvd {k m : Nat} (h : k = 0 ∨ k * 2 ^ 23 + 2 ^ 23 ≤ m) : 2 ^ k ∣ magUnits m := by
  obtain rfl | h := h
  · simp
  · obtain ⟨k', q, rfl, hq, hk⟩ := mag_layout m
    rw [magUnits_layout (by omega) hk]
    exact Dvd.dvd.mul_left (pow_dvd_pow 2 (by omega)) q

/-! Rounding. -/

/-- A rounded quotient is within half of the divisor, and even where it is exactly half away. -/
theorem roundQuot_spec (n : Nat) {d : Nat} (hd : 0 < d) :
    2 * |(n : Int) - roundQuot n d * d| ≤ d ∧
      (2 * |(n : Int) - roundQuot n d * d| = d → roundQuot n d % 2 = 0) := by
  have hn := Nat.div_add_mod n d
  have hr := Nat.mod_lt n hd
  have hz : (n : Int) = d * (n / d : Nat) + (n % d : Nat) := by exact_mod_cast hn.symm
  unfold roundQuot
  generalize n / d = q at *
  generalize n % d = r at *
  simp only
  split
  · rename_i h
    have e : (n : Int) - ((q + 1 : Nat) : Int) * d = (r : Int) - d := by push_cast; rw [hz]; ring
    rw [e, abs_of_neg (by omega)]
    refine ⟨by omega, fun _ => ?_⟩
    omega
  · rename_i h
    have e : (n : Int) - (q : Int) * d = (r : Int) := by rw [hz]; ring
    rw [e, abs_of_nonneg (by omega)]
    refine ⟨by omega, fun _ => ?_⟩
    omega

/-- Without excess bits the quotient is below 2^24; with `k` of them it fills bit `23 + k`. -/
theorem excessBits_spec (n d : Nat) :
    n / d < 2 ^ (24 + excessBits n d) ∧ (excessBits n d = 0 ∨ 2 ^ (23 + excessBits n d) ≤ n / d) := by
  unfold excessBits
  by_cases h0 : n / d = 0
  · rw [h0]; simp
  · have h1 := Nat.log2_self_le h0
    have h2 := @Nat.lt_log2_self (n / d)
    by_cases h : Nat.log2 (n / d) ≤ 23
    · rw [Nat.sub_eq_zero_of_le h]
      exact ⟨lt_of_lt_of_le h2 (Nat.pow_le_pow_right (by decide) (by omega)), .inl rfl⟩
    · refine ⟨?_, .inr ?_⟩
      · rwa [show 24 + (Nat.log2 (n / d) - 23) = Nat.log2 (n / d) + 1 by omega]
      · rwa [show 23 + (Nat.log2 (n / d) - 23) = Nat.log2 (n / d) by omega]

/-- The significand that rounding gives has 24 bits, or is the carry, or is short at exponent 0. -/
theorem roundQuot_significand (n d : Nat) :
    roundQuot n (d * 2 ^ excessBits n d) ≤ 2 ^ 24 ∧
      (excessBits n d = 0 ∨ 2 ^ 23 ≤ roundQuot n (d * 2 ^ excessBits n d)) := by
  obtain ⟨h1, h2⟩ := excessBits_spec n d
  generalize excessBits n d = k at *
  have hq : n / (d * 2 ^ k) = n / d / 2 ^ k := (Nat.div_div_eq_div_mul n d (2 ^ k)).symm
  have hlt : n / (d * 2 ^ k) < 2 ^ 24 := by
    rw [hq]; apply Nat.div_lt_of_lt_mul; rwa [← pow_add, Nat.add_comm]
  have hge : k = 0 ∨ 2 ^ 23 ≤ n / (d * 2 ^ k) := by
    refine h2.imp_right fun h => ?_
    rw [hq, Nat.le_div_iff_mul_le (Nat.two_pow_pos k), ← pow_add]; exact h
  unfold roundQuot
  simp only
  split <;> omega

theorem roundMag_le (n d : Nat) : roundMag n d ≤ infMag := min_le_right _ _

/-- A finite result is the layout of its significand, and holds that value. -/
theorem roundMag_finite {n d : Nat} (h : roundMag n d < infMag) :
    roundMag n d = excessBits n d * 2 ^ 23 + roundQuot n (d * 2 ^ excessBits n d) ∧
      magUnits (roundMag n d) = roundQuot n (d * 2 ^ excessBits n d) * 2 ^ excessBits n d := by
  have e : roundMag n d = excessBits n d * 2 ^ 23 + roundQuot n (d * 2 ^ excessBits n d) := by
    unfold roundMag at h ⊢
    simp only at h ⊢
    omega
  refine ⟨e, ?_⟩
  obtain ⟨h1, h2⟩ := roundQuot_significand n d
  rw [e, magUnits_layout h1 h2]

/-- Far enough below the largest finite value the result is finite. -/
theorem roundMag_small {n d : Nat} (hd : 0 < d) (h : n < 2 ^ 200 * d) : roundMag n d < infMag := by
  obtain ⟨h1, -⟩ := roundQuot_significand n d
  obtain ⟨-, h2⟩ := excessBits_spec n d
  have hk : excessBits n d ≤ 177 := by
    by_contra hc
    have h3 : 2 ^ (23 + excessBits n d) ≤ n / d := h2.resolve_left (by omega)
    have h4 : 2 ^ 200 ≤ 2 ^ (23 + excessBits n d) := Nat.pow_le_pow_right (by decide) (by omega)
    have h5 : n / d < 2 ^ 200 := (Nat.div_lt_iff_lt_mul hd).mpr h
    omega
  unfold roundMag infMag
  simp only
  omega

theorem roundQuot_zero (d : Nat) : roundQuot 0 d = 0 := by
  simp [roundQuot]

theorem roundMag_zero (d : Nat) : roundMag 0 d = 0 := by
  simp [roundMag, excessBits, roundQuot_zero]

/-! The free value of a NaN. -/

/-- Equal, or both some NaN: all that the free value can change. -/
def f32Alike (x y : F32) : Prop := x = y ∨ (f32IsNan x = true ∧ f32IsNan y = true)

theorem f32Alike.refl (x : F32) : f32Alike x x := .inl rfl

theorem f32Alike_nan (w w' : F32) : f32Alike (f32Nan w) (f32Nan w') := .inr ⟨f32IsNan_nan w, f32IsNan_nan w'⟩

theorem f32Add_nan_left {x : F32} (h : f32IsNan x = true) (y w : F32) : f32Add x y w = f32Nan w := by
  simp [f32Add, h]

theorem f32Add_nan_right {y : F32} (h : f32IsNan y = true) (x w : F32) : f32Add x y w = f32Nan w := by
  simp [f32Add, h]

theorem f32Mul_nan_left {x : F32} (h : f32IsNan x = true) (y w : F32) : f32Mul x y w = f32Nan w := by
  simp [f32Mul, h]

theorem f32Mul_nan_right {y : F32} (h : f32IsNan y = true) (x w : F32) : f32Mul x y w = f32Nan w := by
  simp [f32Mul, h]

/-- The sum depends on its operands' NaNs and on the free value only in which NaN it gives. -/
theorem f32Add_alike {x x' y y' : F32} (hx : f32Alike x x') (hy : f32Alike y y') (w w' : F32) :
    f32Alike (f32Add x y w) (f32Add x' y' w') := by
  obtain rfl | ⟨h1, h2⟩ := hx
  · obtain rfl | ⟨h3, h4⟩ := hy
    · unfold f32Add
      split
      · exact f32Alike_nan w w'
      · split
        · split
          · exact f32Alike_nan w w'
          · exact .refl _
        · exact .refl _
    · rw [f32Add_nan_right h3, f32Add_nan_right h4]; exact f32Alike_nan w w'
  · rw [f32Add_nan_left h1, f32Add_nan_left h2]; exact f32Alike_nan w w'

/-- The product likewise. -/
theorem f32Mul_alike {x x' y y' : F32} (hx : f32Alike x x') (hy : f32Alike y y') (w w' : F32) :
    f32Alike (f32Mul x y w) (f32Mul x' y' w') := by
  obtain rfl | ⟨h1, h2⟩ := hx
  · obtain rfl | ⟨h3, h4⟩ := hy
    · simp only [f32Mul]
      split
      · exact f32Alike_nan w w'
      · split
        · split
          · exact f32Alike_nan w w'
          · exact .refl _
        · split
          · split
            · exact f32Alike_nan w w'
            · exact .refl _
          · exact .refl _
    · rw [f32Mul_nan_right h3, f32Mul_nan_right h4]; exact f32Alike_nan w w'
  · rw [f32Mul_nan_left h1, f32Mul_nan_left h2]; exact f32Alike_nan w w'

/-- The quotient of the same operands likewise. -/
theorem f32Div_alike (x y w w' : F32) : f32Alike (f32Div x y w) (f32Div x y w') := by
  simp only [f32Div]
  split
  · exact f32Alike_nan w w'
  · split
    · split
      · exact f32Alike_nan w w'
      · exact .refl _
    · split
      · exact .refl _
      · split
        · split
          · exact f32Alike_nan w w'
          · exact .refl _
        · exact .refl _

/-- A converted integer is finite. -/
theorem i32ToF32_finite (n : I32) : f32IsFinite (i32ToF32 n) = true := by
  apply f32IsFinite_pack
  apply roundMag_small (by decide)
  have h1 := BitVec.le_toInt n
  have h2 := BitVec.toInt_lt (x := n)
  have h3 : n.toInt.natAbs ≤ 2 ^ 31 := by omega
  have h4 : n.toInt.natAbs * 2 ^ 149 ≤ 2 ^ 31 * 2 ^ 149 := Nat.mul_le_mul_right _ h3
  omega

/-- The quotient of a finite pattern by one greater than 0 is never a NaN (R128, R131), and the free value plays no
part in it. -/
theorem f32Div_by_positive {x y : F32} (hx : f32IsFinite x = true) (hy : f32Gt0 y = true) (w : F32) :
    f32IsNan (f32Div x y w) = false := by
  have hxn : f32IsNan x = false ∧ f32IsInf x = false := by
    obtain ⟨-, -, h⟩ | ⟨-, -, h⟩ | ⟨h1, h2, -⟩ := f32_class x
    · rw [hx] at h; cases h
    · rw [hx] at h; cases h
    · exact ⟨h1, h2⟩
  simp only [f32Gt0, Bool.and_eq_true, Bool.not_eq_true', decide_eq_true_eq] at hy
  simp only [f32Div, hxn, hy.1.1, Bool.or_self, Bool.false_eq_true, if_false]
  split
  · exact f32IsNan_pack _ (by decide)
  · rw [if_neg (by omega)]
    exact f32IsNan_pack _ (roundMag_le _ _)

/-! The coefficient of the filter (R5, R129). -/

/-- A legal `BETA` is a finite pattern above +0.0 and at most 1.0. -/
theorem betaLegal_facts {b : F32} (h : betaLegal b = true) :
    f32Neg b = false ∧ f32Mag b = b.toNat ∧ 0 < f32Mag b ∧ f32Mag b ≤ 0x3F800000 := by
  simp [betaLegal, f32One, BitVec.lt_def, BitVec.le_def] at h
  have hm : f32Mag b = b.toNat := by unfold f32Mag; omega
  refine ⟨?_, hm, by omega, by omega⟩
  simp [f32Neg, BitVec.msb_eq_decide]
  omega

/-- Turning the sign of a positive pattern. -/
theorem f32Pack_turn {b : F32} (h : f32Neg b = false) : b ^^^ f32NZero = f32Pack true (f32Mag b) := by
  have h6 : b.toNat < 2 ^ 31 := by simpa [f32Neg, BitVec.msb_eq_decide] using h
  have hm : f32Mag b = b.toNat := Nat.mod_eq_of_lt h6
  rw [hm]
  apply BitVec.eq_of_toNat_eq
  simp only [f32NZero, f32Pack, if_true, BitVec.toNat_xor, BitVec.toNat_ofNat]
  rw [Nat.mod_eq_of_lt (show 2 ^ 31 + b.toNat < 2 ^ 32 by omega), Nat.xor_comm]
  have h7 := Nat.two_pow_add_eq_or_of_lt h6 1
  simp only [Nat.mul_one] at h7
  rw [h7]
  apply Nat.eq_of_testBit_eq
  intro i
  by_cases hi : i = 31
  · subst hi; simp [Nat.testBit_lt_two_pow h6]
  · simp [show (2147483648 : Nat) = 2 ^ 31 from rfl, Nat.testBit_two_pow_of_ne (Ne.symm hi)]

end Sys2Proof.Machine
end

