-- ==== Sys2Proof/Laws/State.lean ====
section
/-! SUPPORT. One lemma for each field of State under each named update, so that no proof unfolds a record update. -/

namespace Sys2Proof.Machine

variable (s : State)

/-! `quiet` -/
@[simp] theorem State.quiet_cfg : (s.quiet).cfg = s.cfg := rfl
@[simp] theorem State.quiet_input : (s.quiet).input = s.input := rfl
@[simp] theorem State.quiet_out : (s.quiet).out = Response.none := rfl
@[simp] theorem State.quiet_pos : (s.quiet).pos = s.pos := rfl
@[simp] theorem State.quiet_prev : (s.quiet).prev = s.prev := rfl
@[simp] theorem State.quiet_lastEdgeT : (s.quiet).lastEdgeT = s.lastEdgeT := rfl
@[simp] theorem State.quiet_lastInterval : (s.quiet).lastInterval = s.lastInterval := rfl
@[simp] theorem State.quiet_lastDir : (s.quiet).lastDir = s.lastDir := rfl
@[simp] theorem State.quiet_edgeValid : (s.quiet).edgeValid = s.edgeValid := rfl
@[simp] theorem State.quiet_pcntReg : (s.quiet).pcntReg = s.pcntReg := rfl
@[simp] theorem State.quiet_ovf : (s.quiet).ovf = s.ovf := rfl
@[simp] theorem State.quiet_idxFlag : (s.quiet).idxFlag = s.idxFlag := rfl
@[simp] theorem State.quiet_prevZ : (s.quiet).prevZ = s.prevZ := rfl
@[simp] theorem State.quiet_ch0 : (s.quiet).ch0 = s.ch0 := rfl
@[simp] theorem State.quiet_ch1 : (s.quiet).ch1 = s.ch1 := rfl

/-! `respond` -/
@[simp] theorem State.respond_cfg (r0 r1 r2 : Lane) : (s.respond r0 r1 r2).cfg = s.cfg := rfl
@[simp] theorem State.respond_input (r0 r1 r2 : Lane) : (s.respond r0 r1 r2).input = s.input := rfl
@[simp] theorem State.respond_out (r0 r1 r2 : Lane) : (s.respond r0 r1 r2).out = ⟨true, r0, r1, r2⟩ := rfl
@[simp] theorem State.respond_pos (r0 r1 r2 : Lane) : (s.respond r0 r1 r2).pos = s.pos := rfl
@[simp] theorem State.respond_prev (r0 r1 r2 : Lane) : (s.respond r0 r1 r2).prev = s.prev := rfl
@[simp] theorem State.respond_lastEdgeT (r0 r1 r2 : Lane) : (s.respond r0 r1 r2).lastEdgeT = s.lastEdgeT := rfl
@[simp] theorem State.respond_lastInterval (r0 r1 r2 : Lane) : (s.respond r0 r1 r2).lastInterval = s.lastInterval := rfl
@[simp] theorem State.respond_lastDir (r0 r1 r2 : Lane) : (s.respond r0 r1 r2).lastDir = s.lastDir := rfl
@[simp] theorem State.respond_edgeValid (r0 r1 r2 : Lane) : (s.respond r0 r1 r2).edgeValid = s.edgeValid := rfl
@[simp] theorem State.respond_pcntReg (r0 r1 r2 : Lane) : (s.respond r0 r1 r2).pcntReg = s.pcntReg := rfl
@[simp] theorem State.respond_ovf (r0 r1 r2 : Lane) : (s.respond r0 r1 r2).ovf = s.ovf := rfl
@[simp] theorem State.respond_idxFlag (r0 r1 r2 : Lane) : (s.respond r0 r1 r2).idxFlag = s.idxFlag := rfl
@[simp] theorem State.respond_prevZ (r0 r1 r2 : Lane) : (s.respond r0 r1 r2).prevZ = s.prevZ := rfl
@[simp] theorem State.respond_ch0 (r0 r1 r2 : Lane) : (s.respond r0 r1 r2).ch0 = s.ch0 := rfl
@[simp] theorem State.respond_ch1 (r0 r1 r2 : Lane) : (s.respond r0 r1 r2).ch1 = s.ch1 := rfl

/-! `respond1` -/
@[simp] theorem State.respond1_cfg (r0 : Lane) : (s.respond1 r0).cfg = s.cfg := rfl
@[simp] theorem State.respond1_input (r0 : Lane) : (s.respond1 r0).input = s.input := rfl
@[simp] theorem State.respond1_out (r0 : Lane) : (s.respond1 r0).out = ⟨true, r0, 0, 0⟩ := rfl
@[simp] theorem State.respond1_pos (r0 : Lane) : (s.respond1 r0).pos = s.pos := rfl
@[simp] theorem State.respond1_prev (r0 : Lane) : (s.respond1 r0).prev = s.prev := rfl
@[simp] theorem State.respond1_lastEdgeT (r0 : Lane) : (s.respond1 r0).lastEdgeT = s.lastEdgeT := rfl
@[simp] theorem State.respond1_lastInterval (r0 : Lane) : (s.respond1 r0).lastInterval = s.lastInterval := rfl
@[simp] theorem State.respond1_lastDir (r0 : Lane) : (s.respond1 r0).lastDir = s.lastDir := rfl
@[simp] theorem State.respond1_edgeValid (r0 : Lane) : (s.respond1 r0).edgeValid = s.edgeValid := rfl
@[simp] theorem State.respond1_pcntReg (r0 : Lane) : (s.respond1 r0).pcntReg = s.pcntReg := rfl
@[simp] theorem State.respond1_ovf (r0 : Lane) : (s.respond1 r0).ovf = s.ovf := rfl
@[simp] theorem State.respond1_idxFlag (r0 : Lane) : (s.respond1 r0).idxFlag = s.idxFlag := rfl
@[simp] theorem State.respond1_prevZ (r0 : Lane) : (s.respond1 r0).prevZ = s.prevZ := rfl
@[simp] theorem State.respond1_ch0 (r0 : Lane) : (s.respond1 r0).ch0 = s.ch0 := rfl
@[simp] theorem State.respond1_ch1 (r0 : Lane) : (s.respond1 r0).ch1 = s.ch1 := rfl

/-! `setPrev` -/
@[simp] theorem State.setPrev_cfg (p : PhaseState) : (s.setPrev p).cfg = s.cfg := rfl
@[simp] theorem State.setPrev_input (p : PhaseState) : (s.setPrev p).input = s.input := rfl
@[simp] theorem State.setPrev_out (p : PhaseState) : (s.setPrev p).out = s.out := rfl
@[simp] theorem State.setPrev_pos (p : PhaseState) : (s.setPrev p).pos = s.pos := rfl
@[simp] theorem State.setPrev_prev (p : PhaseState) : (s.setPrev p).prev = p := rfl
@[simp] theorem State.setPrev_lastEdgeT (p : PhaseState) : (s.setPrev p).lastEdgeT = s.lastEdgeT := rfl
@[simp] theorem State.setPrev_lastInterval (p : PhaseState) : (s.setPrev p).lastInterval = s.lastInterval := rfl
@[simp] theorem State.setPrev_lastDir (p : PhaseState) : (s.setPrev p).lastDir = s.lastDir := rfl
@[simp] theorem State.setPrev_edgeValid (p : PhaseState) : (s.setPrev p).edgeValid = s.edgeValid := rfl
@[simp] theorem State.setPrev_pcntReg (p : PhaseState) : (s.setPrev p).pcntReg = s.pcntReg := rfl
@[simp] theorem State.setPrev_ovf (p : PhaseState) : (s.setPrev p).ovf = s.ovf := rfl
@[simp] theorem State.setPrev_idxFlag (p : PhaseState) : (s.setPrev p).idxFlag = s.idxFlag := rfl
@[simp] theorem State.setPrev_prevZ (p : PhaseState) : (s.setPrev p).prevZ = s.prevZ := rfl
@[simp] theorem State.setPrev_ch0 (p : PhaseState) : (s.setPrev p).ch0 = s.ch0 := rfl
@[simp] theorem State.setPrev_ch1 (p : PhaseState) : (s.setPrev p).ch1 = s.ch1 := rfl

/-! `acceptEdge` -/
@[simp] theorem State.acceptEdge_cfg (d : Int) (iv now : U32) : (s.acceptEdge d iv now).cfg = s.cfg := rfl
@[simp] theorem State.acceptEdge_input (d : Int) (iv now : U32) : (s.acceptEdge d iv now).input = s.input := rfl
@[simp] theorem State.acceptEdge_out (d : Int) (iv now : U32) : (s.acceptEdge d iv now).out = s.out := rfl
@[simp] theorem State.acceptEdge_pos (d : Int) (iv now : U32) : (s.acceptEdge d iv now).pos = wrap64 (s.pos.toInt + d) := rfl
@[simp] theorem State.acceptEdge_prev (d : Int) (iv now : U32) : (s.acceptEdge d iv now).prev = s.prev := rfl
@[simp] theorem State.acceptEdge_lastEdgeT (d : Int) (iv now : U32) : (s.acceptEdge d iv now).lastEdgeT = now := rfl
@[simp] theorem State.acceptEdge_lastInterval (d : Int) (iv now : U32) : (s.acceptEdge d iv now).lastInterval = iv := rfl
@[simp] theorem State.acceptEdge_lastDir (d : Int) (iv now : U32) : (s.acceptEdge d iv now).lastDir = BitVec.ofInt 2 d := rfl
@[simp] theorem State.acceptEdge_edgeValid (d : Int) (iv now : U32) : (s.acceptEdge d iv now).edgeValid = true := rfl
@[simp] theorem State.acceptEdge_pcntReg (d : Int) (iv now : U32) : (s.acceptEdge d iv now).pcntReg = s.pcntReg := rfl
@[simp] theorem State.acceptEdge_ovf (d : Int) (iv now : U32) : (s.acceptEdge d iv now).ovf = s.ovf := rfl
@[simp] theorem State.acceptEdge_idxFlag (d : Int) (iv now : U32) : (s.acceptEdge d iv now).idxFlag = s.idxFlag := rfl
@[simp] theorem State.acceptEdge_prevZ (d : Int) (iv now : U32) : (s.acceptEdge d iv now).prevZ = s.prevZ := rfl
@[simp] theorem State.acceptEdge_ch0 (d : Int) (iv now : U32) : (s.acceptEdge d iv now).ch0 = s.ch0 := rfl
@[simp] theorem State.acceptEdge_ch1 (d : Int) (iv now : U32) : (s.acceptEdge d iv now).ch1 = s.ch1 := rfl

/-! `setCounter` -/
@[simp] theorem State.setCounter_cfg (r : I16) (o : I64) : (s.setCounter r o).cfg = s.cfg := rfl
@[simp] theorem State.setCounter_input (r : I16) (o : I64) : (s.setCounter r o).input = s.input := rfl
@[simp] theorem State.setCounter_out (r : I16) (o : I64) : (s.setCounter r o).out = s.out := rfl
@[simp] theorem State.setCounter_pos (r : I16) (o : I64) : (s.setCounter r o).pos = s.pos := rfl
@[simp] theorem State.setCounter_prev (r : I16) (o : I64) : (s.setCounter r o).prev = s.prev := rfl
@[simp] theorem State.setCounter_lastEdgeT (r : I16) (o : I64) : (s.setCounter r o).lastEdgeT = s.lastEdgeT := rfl
@[simp] theorem State.setCounter_lastInterval (r : I16) (o : I64) : (s.setCounter r o).lastInterval = s.lastInterval := rfl
@[simp] theorem State.setCounter_lastDir (r : I16) (o : I64) : (s.setCounter r o).lastDir = s.lastDir := rfl
@[simp] theorem State.setCounter_edgeValid (r : I16) (o : I64) : (s.setCounter r o).edgeValid = s.edgeValid := rfl
@[simp] theorem State.setCounter_pcntReg (r : I16) (o : I64) : (s.setCounter r o).pcntReg = r := rfl
@[simp] theorem State.setCounter_ovf (r : I16) (o : I64) : (s.setCounter r o).ovf = o := rfl
@[simp] theorem State.setCounter_idxFlag (r : I16) (o : I64) : (s.setCounter r o).idxFlag = s.idxFlag := rfl
@[simp] theorem State.setCounter_prevZ (r : I16) (o : I64) : (s.setCounter r o).prevZ = s.prevZ := rfl
@[simp] theorem State.setCounter_ch0 (r : I16) (o : I64) : (s.setCounter r o).ch0 = s.ch0 := rfl
@[simp] theorem State.setCounter_ch1 (r : I16) (o : I64) : (s.setCounter r o).ch1 = s.ch1 := rfl

/-! `setPos` -/
@[simp] theorem State.setPos_cfg (v : I64) : (s.setPos v).cfg = s.cfg := rfl
@[simp] theorem State.setPos_input (v : I64) : (s.setPos v).input = s.input := rfl
@[simp] theorem State.setPos_out (v : I64) : (s.setPos v).out = s.out := rfl
@[simp] theorem State.setPos_pos (v : I64) : (s.setPos v).pos = v := rfl
@[simp] theorem State.setPos_prev (v : I64) : (s.setPos v).prev = s.prev := rfl
@[simp] theorem State.setPos_lastEdgeT (v : I64) : (s.setPos v).lastEdgeT = s.lastEdgeT := rfl
@[simp] theorem State.setPos_lastInterval (v : I64) : (s.setPos v).lastInterval = s.lastInterval := rfl
@[simp] theorem State.setPos_lastDir (v : I64) : (s.setPos v).lastDir = s.lastDir := rfl
@[simp] theorem State.setPos_edgeValid (v : I64) : (s.setPos v).edgeValid = s.edgeValid := rfl
@[simp] theorem State.setPos_pcntReg (v : I64) : (s.setPos v).pcntReg = s.pcntReg := rfl
@[simp] theorem State.setPos_ovf (v : I64) : (s.setPos v).ovf = s.ovf := rfl
@[simp] theorem State.setPos_idxFlag (v : I64) : (s.setPos v).idxFlag = s.idxFlag := rfl
@[simp] theorem State.setPos_prevZ (v : I64) : (s.setPos v).prevZ = s.prevZ := rfl
@[simp] theorem State.setPos_ch0 (v : I64) : (s.setPos v).ch0 = s.ch0 := rfl
@[simp] theorem State.setPos_ch1 (v : I64) : (s.setPos v).ch1 = s.ch1 := rfl

/-! `setIdxFlag` -/
@[simp] theorem State.setIdxFlag_cfg (f : Bool) : (s.setIdxFlag f).cfg = s.cfg := rfl
@[simp] theorem State.setIdxFlag_input (f : Bool) : (s.setIdxFlag f).input = s.input := rfl
@[simp] theorem State.setIdxFlag_out (f : Bool) : (s.setIdxFlag f).out = s.out := rfl
@[simp] theorem State.setIdxFlag_pos (f : Bool) : (s.setIdxFlag f).pos = s.pos := rfl
@[simp] theorem State.setIdxFlag_prev (f : Bool) : (s.setIdxFlag f).prev = s.prev := rfl
@[simp] theorem State.setIdxFlag_lastEdgeT (f : Bool) : (s.setIdxFlag f).lastEdgeT = s.lastEdgeT := rfl
@[simp] theorem State.setIdxFlag_lastInterval (f : Bool) : (s.setIdxFlag f).lastInterval = s.lastInterval := rfl
@[simp] theorem State.setIdxFlag_lastDir (f : Bool) : (s.setIdxFlag f).lastDir = s.lastDir := rfl
@[simp] theorem State.setIdxFlag_edgeValid (f : Bool) : (s.setIdxFlag f).edgeValid = s.edgeValid := rfl
@[simp] theorem State.setIdxFlag_pcntReg (f : Bool) : (s.setIdxFlag f).pcntReg = s.pcntReg := rfl
@[simp] theorem State.setIdxFlag_ovf (f : Bool) : (s.setIdxFlag f).ovf = s.ovf := rfl
@[simp] theorem State.setIdxFlag_idxFlag (f : Bool) : (s.setIdxFlag f).idxFlag = f := rfl
@[simp] theorem State.setIdxFlag_prevZ (f : Bool) : (s.setIdxFlag f).prevZ = s.prevZ := rfl
@[simp] theorem State.setIdxFlag_ch0 (f : Bool) : (s.setIdxFlag f).ch0 = s.ch0 := rfl
@[simp] theorem State.setIdxFlag_ch1 (f : Bool) : (s.setIdxFlag f).ch1 = s.ch1 := rfl

/-! `setPrevZ` -/
@[simp] theorem State.setPrevZ_cfg (z : Bool) : (s.setPrevZ z).cfg = s.cfg := rfl
@[simp] theorem State.setPrevZ_input (z : Bool) : (s.setPrevZ z).input = s.input := rfl
@[simp] theorem State.setPrevZ_out (z : Bool) : (s.setPrevZ z).out = s.out := rfl
@[simp] theorem State.setPrevZ_pos (z : Bool) : (s.setPrevZ z).pos = s.pos := rfl
@[simp] theorem State.setPrevZ_prev (z : Bool) : (s.setPrevZ z).prev = s.prev := rfl
@[simp] theorem State.setPrevZ_lastEdgeT (z : Bool) : (s.setPrevZ z).lastEdgeT = s.lastEdgeT := rfl
@[simp] theorem State.setPrevZ_lastInterval (z : Bool) : (s.setPrevZ z).lastInterval = s.lastInterval := rfl
@[simp] theorem State.setPrevZ_lastDir (z : Bool) : (s.setPrevZ z).lastDir = s.lastDir := rfl
@[simp] theorem State.setPrevZ_edgeValid (z : Bool) : (s.setPrevZ z).edgeValid = s.edgeValid := rfl
@[simp] theorem State.setPrevZ_pcntReg (z : Bool) : (s.setPrevZ z).pcntReg = s.pcntReg := rfl
@[simp] theorem State.setPrevZ_ovf (z : Bool) : (s.setPrevZ z).ovf = s.ovf := rfl
@[simp] theorem State.setPrevZ_idxFlag (z : Bool) : (s.setPrevZ z).idxFlag = s.idxFlag := rfl
@[simp] theorem State.setPrevZ_prevZ (z : Bool) : (s.setPrevZ z).prevZ = z := rfl
@[simp] theorem State.setPrevZ_ch0 (z : Bool) : (s.setPrevZ z).ch0 = s.ch0 := rfl
@[simp] theorem State.setPrevZ_ch1 (z : Bool) : (s.setPrevZ z).ch1 = s.ch1 := rfl

/-! `present` -/
@[simp] theorem State.present_cfg (xs : List Stimulus) : (s.present xs).cfg = s.cfg := rfl
@[simp] theorem State.present_input (xs : List Stimulus) : (s.present xs).input = s.input ++ xs := rfl
@[simp] theorem State.present_out (xs : List Stimulus) : (s.present xs).out = s.out := rfl
@[simp] theorem State.present_pos (xs : List Stimulus) : (s.present xs).pos = s.pos := rfl
@[simp] theorem State.present_prev (xs : List Stimulus) : (s.present xs).prev = s.prev := rfl
@[simp] theorem State.present_lastEdgeT (xs : List Stimulus) : (s.present xs).lastEdgeT = s.lastEdgeT := rfl
@[simp] theorem State.present_lastInterval (xs : List Stimulus) : (s.present xs).lastInterval = s.lastInterval := rfl
@[simp] theorem State.present_lastDir (xs : List Stimulus) : (s.present xs).lastDir = s.lastDir := rfl
@[simp] theorem State.present_edgeValid (xs : List Stimulus) : (s.present xs).edgeValid = s.edgeValid := rfl
@[simp] theorem State.present_pcntReg (xs : List Stimulus) : (s.present xs).pcntReg = s.pcntReg := rfl
@[simp] theorem State.present_ovf (xs : List Stimulus) : (s.present xs).ovf = s.ovf := rfl
@[simp] theorem State.present_idxFlag (xs : List Stimulus) : (s.present xs).idxFlag = s.idxFlag := rfl
@[simp] theorem State.present_prevZ (xs : List Stimulus) : (s.present xs).prevZ = s.prevZ := rfl
@[simp] theorem State.present_ch0 (xs : List Stimulus) : (s.present xs).ch0 = s.ch0 := rfl
@[simp] theorem State.present_ch1 (xs : List Stimulus) : (s.present xs).ch1 = s.ch1 := rfl

/-! `initAt` -/
@[simp] theorem State.initAt_cfg (p : PhaseState) (z : Bool) (now : U32) : (s.initAt p z now).cfg = s.cfg := rfl
@[simp] theorem State.initAt_input (p : PhaseState) (z : Bool) (now : U32) : (s.initAt p z now).input = s.input := rfl
@[simp] theorem State.initAt_out (p : PhaseState) (z : Bool) (now : U32) : (s.initAt p z now).out = s.out := rfl
@[simp] theorem State.initAt_pos (p : PhaseState) (z : Bool) (now : U32) : (s.initAt p z now).pos = 0 := rfl
@[simp] theorem State.initAt_prev (p : PhaseState) (z : Bool) (now : U32) : (s.initAt p z now).prev = p := rfl
@[simp] theorem State.initAt_lastEdgeT (p : PhaseState) (z : Bool) (now : U32) : (s.initAt p z now).lastEdgeT = 0 := rfl
@[simp] theorem State.initAt_lastInterval (p : PhaseState) (z : Bool) (now : U32) : (s.initAt p z now).lastInterval = 0 := rfl
@[simp] theorem State.initAt_lastDir (p : PhaseState) (z : Bool) (now : U32) : (s.initAt p z now).lastDir = 0 := rfl
@[simp] theorem State.initAt_edgeValid (p : PhaseState) (z : Bool) (now : U32) : (s.initAt p z now).edgeValid = false := rfl
@[simp] theorem State.initAt_pcntReg (p : PhaseState) (z : Bool) (now : U32) : (s.initAt p z now).pcntReg = 0 := rfl
@[simp] theorem State.initAt_ovf (p : PhaseState) (z : Bool) (now : U32) : (s.initAt p z now).ovf = 0 := rfl
@[simp] theorem State.initAt_idxFlag (p : PhaseState) (z : Bool) (now : U32) : (s.initAt p z now).idxFlag = false := rfl
@[simp] theorem State.initAt_prevZ (p : PhaseState) (z : Bool) (now : U32) : (s.initAt p z now).prevZ = z := rfl
@[simp] theorem State.initAt_ch0 (p : PhaseState) (z : Bool) (now : U32) : (s.initAt p z now).ch0 = (if 0 < s.cfg.nCh then s.ch0.initAt now else s.ch0) := rfl
@[simp] theorem State.initAt_ch1 (p : PhaseState) (z : Bool) (now : U32) : (s.initAt p z now).ch1 = (if 1 < s.cfg.nCh then s.ch1.initAt now else s.ch1) := rfl

/-! `setChan` -/
@[simp] theorem State.setChan_cfg (c : ChanIx) (k : Channel) : (s.setChan c k).cfg = s.cfg := by
  unfold State.setChan; split <;> rfl
@[simp] theorem State.setChan_input (c : ChanIx) (k : Channel) : (s.setChan c k).input = s.input := by
  unfold State.setChan; split <;> rfl
@[simp] theorem State.setChan_out (c : ChanIx) (k : Channel) : (s.setChan c k).out = s.out := by
  unfold State.setChan; split <;> rfl
@[simp] theorem State.setChan_pos (c : ChanIx) (k : Channel) : (s.setChan c k).pos = s.pos := by
  unfold State.setChan; split <;> rfl
@[simp] theorem State.setChan_prev (c : ChanIx) (k : Channel) : (s.setChan c k).prev = s.prev := by
  unfold State.setChan; split <;> rfl
@[simp] theorem State.setChan_lastEdgeT (c : ChanIx) (k : Channel) : (s.setChan c k).lastEdgeT = s.lastEdgeT := by
  unfold State.setChan; split <;> rfl
@[simp] theorem State.setChan_lastInterval (c : ChanIx) (k : Channel) : (s.setChan c k).lastInterval = s.lastInterval := by
  unfold State.setChan; split <;> rfl
@[simp] theorem State.setChan_lastDir (c : ChanIx) (k : Channel) : (s.setChan c k).lastDir = s.lastDir := by
  unfold State.setChan; split <;> rfl
@[simp] theorem State.setChan_edgeValid (c : ChanIx) (k : Channel) : (s.setChan c k).edgeValid = s.edgeValid := by
  unfold State.setChan; split <;> rfl
@[simp] theorem State.setChan_pcntReg (c : ChanIx) (k : Channel) : (s.setChan c k).pcntReg = s.pcntReg := by
  unfold State.setChan; split <;> rfl
@[simp] theorem State.setChan_ovf (c : ChanIx) (k : Channel) : (s.setChan c k).ovf = s.ovf := by
  unfold State.setChan; split <;> rfl
@[simp] theorem State.setChan_idxFlag (c : ChanIx) (k : Channel) : (s.setChan c k).idxFlag = s.idxFlag := by
  unfold State.setChan; split <;> rfl
@[simp] theorem State.setChan_prevZ (c : ChanIx) (k : Channel) : (s.setChan c k).prevZ = s.prevZ := by
  unfold State.setChan; split <;> rfl

theorem State.setChan_ch0 (c : ChanIx) (k : Channel) : (s.setChan c k).ch0 = if c = 0 then k else s.ch0 := by
  rcases c with ⟨⟨n, h⟩⟩
  rcases n with _ | _ | n <;> rfl

theorem State.setChan_ch1 (c : ChanIx) (k : Channel) : (s.setChan c k).ch1 = if c = 1 then k else s.ch1 := by
  rcases c with ⟨⟨n, h⟩⟩
  rcases n with _ | _ | n <;> rfl

/-! `hardReset` and `resetWith` -/

@[simp] theorem State.hardReset_cfg : s.hardReset.cfg = s.cfg := rfl
@[simp] theorem State.hardReset_input : s.hardReset.input = s.input := rfl
@[simp] theorem State.hardReset_out : s.hardReset.out = Response.none := rfl
@[simp] theorem State.hardReset_pos : s.hardReset.pos = 0 := rfl
@[simp] theorem State.hardReset_prev : s.hardReset.prev = 0 := rfl
@[simp] theorem State.hardReset_lastEdgeT : s.hardReset.lastEdgeT = 0 := rfl
@[simp] theorem State.hardReset_lastInterval : s.hardReset.lastInterval = 0 := rfl
@[simp] theorem State.hardReset_lastDir : s.hardReset.lastDir = 0 := rfl
@[simp] theorem State.hardReset_edgeValid : s.hardReset.edgeValid = false := rfl
@[simp] theorem State.hardReset_pcntReg : s.hardReset.pcntReg = 0 := rfl
@[simp] theorem State.hardReset_ovf : s.hardReset.ovf = 0 := rfl
@[simp] theorem State.hardReset_idxFlag : s.hardReset.idxFlag = false := rfl
@[simp] theorem State.hardReset_prevZ : s.hardReset.prevZ = false := rfl
@[simp] theorem State.hardReset_ch0 : s.hardReset.ch0 = { Channel.reset with nanDraws := s.ch0.nanDraws } := rfl
@[simp] theorem State.hardReset_ch1 : s.hardReset.ch1 = { Channel.reset with nanDraws := s.ch1.nanDraws } := rfl

@[simp] theorem State.resetWith_cfg (c : Cfg) : (State.resetWith c).cfg = c := rfl
@[simp] theorem State.resetWith_input (c : Cfg) : (State.resetWith c).input = [] := rfl
@[simp] theorem State.resetWith_out (c : Cfg) : (State.resetWith c).out = Response.none := rfl
@[simp] theorem State.resetWith_pos (c : Cfg) : (State.resetWith c).pos = 0 := rfl
@[simp] theorem State.resetWith_prev (c : Cfg) : (State.resetWith c).prev = 0 := rfl
@[simp] theorem State.resetWith_lastEdgeT (c : Cfg) : (State.resetWith c).lastEdgeT = 0 := rfl
@[simp] theorem State.resetWith_lastInterval (c : Cfg) : (State.resetWith c).lastInterval = 0 := rfl
@[simp] theorem State.resetWith_lastDir (c : Cfg) : (State.resetWith c).lastDir = 0 := rfl
@[simp] theorem State.resetWith_edgeValid (c : Cfg) : (State.resetWith c).edgeValid = false := rfl
@[simp] theorem State.resetWith_pcntReg (c : Cfg) : (State.resetWith c).pcntReg = 0 := rfl
@[simp] theorem State.resetWith_ovf (c : Cfg) : (State.resetWith c).ovf = 0 := rfl
@[simp] theorem State.resetWith_idxFlag (c : Cfg) : (State.resetWith c).idxFlag = false := rfl
@[simp] theorem State.resetWith_prevZ (c : Cfg) : (State.resetWith c).prevZ = false := rfl
@[simp] theorem State.resetWith_ch0 (c : Cfg) : (State.resetWith c).ch0 = Channel.reset := rfl
@[simp] theorem State.resetWith_ch1 (c : Cfg) : (State.resetWith c).ch1 = Channel.reset := rfl

end Sys2Proof.Machine
end

