-- ==== Sys2Proof/Laws/Ops.lean ====
section
/-! SUPPORT. One lemma for each shared operation, saying what it can do: the input stream, the position, the channel
space, the bounded counter, the poll and the flush. -/

namespace Sys2Proof.Machine

/-! The input stream. -/

theorem State.fetch_nil {s : State} (h : s.input = []) : s.fetch = (none, s) := by simp [State.fetch, h]

theorem State.fetch_cons {s : State} {x : Stimulus} {rest : List Stimulus} (h : s.input = x :: rest) :
    s.fetch = (some x, { s with input := rest }) := by simp [State.fetch, h]

/-! The position (R19). -/

theorem State.position_edge {s : State} (h : s.cfg.variant = .edge) : s.position = s.pos := by
  simp [State.position, h]

theorem State.position_pcnt {s : State} (h : s.cfg.variant = .pcnt) :
    s.position = wrap64 ((s.ovf.toInt * s.cfg.pcntRange + s.pcntReg.toInt) * s.cfg.pcntScale) := by
  simp [State.position, h]

/-- The position depends on CFG and the three position fields only. -/
theorem State.position_congr {s t : State} (hc : s.cfg = t.cfg) (hp : s.pos = t.pos) (ho : s.ovf = t.ovf)
    (hr : s.pcntReg = t.pcntReg) : s.position = t.position := by
  simp [State.position, hc, hp, ho, hr]

/-! Wrapping (R7). -/

theorem wrap64_toInt (n : Int) : (wrap64 n).toInt = n.bmod (2 ^ 64) := by simp [wrap64]

theorem wrap16_toInt (n : Int) : (wrap16 n).toInt = n.bmod (2 ^ 16) := by simp [wrap16]

/-- A number in the i64 range is its own wrap. -/
theorem wrap64_toInt_of_range {n : Int} (h1 : -(2 ^ 63) ≤ n) (h2 : n < 2 ^ 63) : (wrap64 n).toInt = n := by
  rw [wrap64_toInt]; exact Int.bmod_eq_of_le (by omega) (by omega)

/-- A number in the i16 range is its own wrap. -/
theorem wrap16_toInt_of_range {n : Int} (h1 : -(2 ^ 15) ≤ n) (h2 : n < 2 ^ 15) : (wrap16 n).toInt = n := by
  rw [wrap16_toInt]; exact Int.bmod_eq_of_le (by omega) (by omega)

/-! Times (R84). -/

theorem subTs_toNat (x y : U32) : ((subTs x y).toNat : Int) = ((x.toNat : Int) - y.toNat) % 2 ^ 32 := by
  unfold subTs
  rw [BitVec.toNat_sub]
  have := x.isLt
  have := y.isLt
  omega

/-! The phase state and the table (R12, R80). -/

theorem phaseState_toNat (a b : Bool) : (phaseState a b).toNat = 2 * a.toNat + b.toNat := by
  cases a <;> cases b <;> decide

/-- The table's entries are -1, 0 and +1 (R80). -/
theorem qtab_values (p q : PhaseState) : qtab p q = -1 ∨ qtab p q = 0 ∨ qtab p q = 1 := by
  revert p q; decide

/-- The table is antisymmetric (R91). -/
theorem qtab_antisymm (p q : PhaseState) : qtab p q = -qtab q p := by revert p q; decide

/-! The channel space (R33, R41, R42). -/

/-- An index at or above `N_CH` names nothing. -/
theorem State.chan_missing {s : State} {c : ChanIx} (h : s.cfg.nCh ≤ c.toNat) : s.chan c = none := by
  simp [State.chan, Nat.not_lt.mpr h]

/-- An index that names a record is 0 or 1, below `N_CH`, and the record is that of its index. -/
theorem State.chan_some {s : State} {c : ChanIx} {k : Channel} (h : s.chan c = some k) :
    c.toNat < s.cfg.nCh ∧ ((c = 0 ∧ k = s.ch0) ∨ (c = 1 ∧ k = s.ch1)) := by
  unfold State.chan at h
  split at h
  · refine ⟨‹_›, ?_⟩
    split at h
    · exact .inl ⟨BitVec.eq_of_toNat_eq (by simpa using ‹c.toNat = 0›), by simpa using h.symm⟩
    · exact .inr ⟨BitVec.eq_of_toNat_eq (by simpa using ‹c.toNat = 1›), by simpa using h.symm⟩
    · simp at h
  · simp at h

theorem State.chan_zero (s : State) : s.chan 0 = if 0 < s.cfg.nCh then some s.ch0 else none := rfl

theorem State.chan_one (s : State) : s.chan 1 = if 1 < s.cfg.nCh then some s.ch1 else none := rfl

/-- The record at an index depends on `N_CH` and the two records only. -/
theorem State.chan_congr {s t : State} (hc : s.cfg = t.cfg) (h0 : s.ch0 = t.ch0) (h1 : s.ch1 = t.ch1) (c : ChanIx) :
    s.chan c = t.chan c := by
  simp [State.chan, hc, h0, h1]

/-- What is read of the records agrees where the records that exist agree on it. -/
theorem State.chan_map_congr {α : Type} {s t : State} (f : Channel → α) (hc : s.cfg.nCh = t.cfg.nCh)
    (h0 : 0 < s.cfg.nCh → f s.ch0 = f t.ch0) (h1 : 1 < s.cfg.nCh → f s.ch1 = f t.ch1) (c : ChanIx) :
    (s.chan c).map f = (t.chan c).map f := by
  unfold State.chan
  rw [← hc]
  by_cases h : c.toNat < s.cfg.nCh
  · rw [if_pos h, if_pos h]
    split
    · simpa using h0 (by omega)
    · simpa using h1 (by omega)
    · rfl
  · rw [if_neg h, if_neg h]

/-- Which indexes name a record depends on `N_CH` only. -/
theorem State.chan_isSome_congr {s t : State} (hc : s.cfg.nCh = t.cfg.nCh) (c : ChanIx) :
    (s.chan c).isSome = (t.chan c).isSome := by
  have h := State.chan_map_congr (fun _ => ()) hc (fun _ => rfl) (fun _ => rfl) c
  cases h1 : s.chan c <;> cases h2 : t.chan c <;> simp_all

@[simp] theorem State.chan_quiet (s : State) (c : ChanIx) : s.quiet.chan c = s.chan c := rfl

@[simp] theorem State.chan_respond1 (s : State) (r : Lane) (c : ChanIx) : (s.respond1 r).chan c = s.chan c := rfl

@[simp] theorem State.chan_respond (s : State) (r0 r1 r2 : Lane) (c : ChanIx) :
    (s.respond r0 r1 r2).chan c = s.chan c := rfl

/-- Writing a record that exists, then reading it. -/
theorem State.chan_setChan_same {s : State} {c : ChanIx} {k : Channel} (h : s.chan c = some k) (k' : Channel) :
    (s.setChan c k').chan c = some k' := by
  obtain ⟨hlt, ⟨rfl, -⟩ | ⟨rfl, -⟩⟩ := State.chan_some h
  · rw [State.chan_zero, State.setChan_cfg, if_pos (by simpa using hlt), State.setChan_ch0]; rfl
  · rw [State.chan_one, State.setChan_cfg, if_pos (by simpa using hlt), State.setChan_ch1]; rfl

/-- Writing one record leaves every other index alone (R23, R126). -/
theorem State.chan_setChan_other {s : State} {c c' : ChanIx} (h : c ≠ c') (k : Channel) :
    (s.setChan c k).chan c' = s.chan c' := by
  unfold State.chan
  rw [State.setChan_cfg]
  split
  · split
    · rw [State.setChan_ch0, if_neg]
      rintro rfl; exact h (BitVec.eq_of_toNat_eq (by simpa using (‹c'.toNat = 0›).symm))
    · rw [State.setChan_ch1, if_neg]
      rintro rfl; exact h (BitVec.eq_of_toNat_eq (by simpa using (‹c'.toNat = 1›).symm))
    · rfl
  · rfl

/-! The bounded counter (R101). -/

/-- What one valid transition does to the register and the overflow counter, with every other field alone. -/
theorem State.countBounded_cases (s : State) (d : Int) :
    (s.pcntReg.toInt + d = s.cfg.pcntRange ∧ s.countBounded d = s.setCounter 0 (wrap64 (s.ovf.toInt + 1))) ∨
    (s.pcntReg.toInt + d ≠ s.cfg.pcntRange ∧ s.pcntReg.toInt + d = -(s.cfg.pcntRange : Int) ∧
      s.countBounded d = s.setCounter 0 (wrap64 (s.ovf.toInt - 1))) ∨
    (s.pcntReg.toInt + d ≠ s.cfg.pcntRange ∧ s.pcntReg.toInt + d ≠ -(s.cfg.pcntRange : Int) ∧
      s.countBounded d = s.setCounter (wrap16 (s.pcntReg.toInt + d)) s.ovf) := by
  by_cases h1 : s.pcntReg.toInt + d = s.cfg.pcntRange
  · exact .inl ⟨h1, by simp [State.countBounded, h1]⟩
  · by_cases h2 : s.pcntReg.toInt + d = -(s.cfg.pcntRange : Int)
    · exact .inr (.inl ⟨h1, h2, by
        simp only [State.countBounded]; rw [if_neg h1, if_pos h2]⟩)
    · exact .inr (.inr ⟨h1, h2, by
        simp only [State.countBounded]; rw [if_neg h1, if_neg h2]⟩)

/-! The channel path (R127, R128). -/

/-- The record of a poll after its sample, before the flush test (R127). -/
def Channel.sampled (k : Channel) (ready : Bool) (smp : Sample) : Channel := if ready then k.accumulate smp else k

/-- A poll either leaves the sampled record, or flushes it. -/
theorem Channel.poll_cases (k : Channel) (c : Cfg) (ix : Nat) (ready : Bool) (smp : Sample) (now : U32) :
    (flushDue c (k.sampled ready smp).cnt now k.lastFlushT = false ∧
      k.poll c ix ready smp now = k.sampled ready smp) ∨
    (flushDue c (k.sampled ready smp).cnt now k.lastFlushT = true ∧
      k.poll c ix ready smp now = (k.sampled ready smp).flush c ix now) := by
  have hl : (k.sampled ready smp).lastFlushT = k.lastFlushT := by cases ready <;> rfl
  have hp : k.poll c ix ready smp now =
      if flushDue c (k.sampled ready smp).cnt now (k.sampled ready smp).lastFlushT
      then (k.sampled ready smp).flush c ix now else k.sampled ready smp := rfl
  rw [hl] at hp
  cases h : flushDue c (k.sampled ready smp).cnt now k.lastFlushT
  · exact .inl ⟨rfl, by rw [hp, h]; rfl⟩
  · exact .inr ⟨rfl, by rw [hp, h]; rfl⟩

/-- The flush test in numbers (R127, R84). -/
theorem flushDue_iff (c : Cfg) (cnt now last : U32) :
    flushDue c cnt now last = true ↔ 1 ≤ cnt.toNat ∧
      (c.oversample.toNat ≤ cnt.toNat ∨ (c.flushTimeoutUs.toNat : Int) ≤ ((now.toNat : Int) - last.toNat) % 2 ^ 32) := by
  rw [← subTs_toNat]
  simp [flushDue, BitVec.le_def]

/-- The glitch filter in numbers (R82, R84). -/
theorem glitchRejects_iff (c : Cfg) (v : Bool) (now last : U32) :
    glitchRejects c v (subTs now last) = true ↔
      v = true ∧ ((now.toNat : Int) - last.toNat) % 2 ^ 32 < (c.glitchUs.toNat : Int) := by
  rw [← subTs_toNat]
  simp [glitchRejects, BitVec.lt_def]

/-- With `GLITCH_US = 0` the filter rejects nothing (R82 d). -/
theorem glitchRejects_zero {c : Cfg} (h : c.glitchUs = 0) (v : Bool) (dt : U32) : glitchRejects c v dt = false := by
  cases v <;> simp [glitchRejects, h, BitVec.lt_def]

end Sys2Proof.Machine
end

