-- ==== Sys2Proof/Laws/Exec.lean ====
section
/-! SUPPORT. What each event does, as one plain function of the state: the meanings answer a next state and nothing
else. Proofs cite `exec_eq` and the equations of `effect` instead of unfolding the meanings. -/

namespace Sys2Proof.Laws

open Sys2Proof.Machine

/-- What an event that addresses channel `ch` does: `f` on the record, if there is one, and nothing otherwise (R42). -/
def onChannel (s : State) (ch : ChanIx) (f : Channel → State) : State :=
  match s.chan ch with
  | some k => f k
  | none => s.respond1 0

/-- `CALIBRATE` on a record (R131). -/
def calibrated (s : State) (ch : ChanIx) (wt : F32) (k : Channel) : State :=
  if f32Gt0 wt then
    (s.setChan ch
      { k with scale := f32Div (i32ToF32 (k.lastRaw - k.offset)) wt (Config.freeNaN ch.toNat k.nanDraws) }).respond1 0
  else s.respond1 0

/-- The state an event leaves. -/
def effect (i : Instr) (s : State) : State :=
  match i with
  | .init a b z now => (s.initAt (phaseState a b) z now).respond1 0
  | .phase a b now =>
    match s.cfg.variant with
    | .edge => (phaseEdge (phaseState a b) now s).quiet
    | .pcnt => (phasePcnt (phaseState a b) s).quiet
  | .index z => ((s.setIdxFlag (idxFlagAfter s.idxFlag s.prevZ z)).setPrevZ z).quiet
  | .getPos => s.respond1 s.position
  | .resetPos =>
    match s.cfg.variant with
    | .edge => (s.setPos 0).respond1 0
    | .pcnt => (s.setCounter 0 0).respond1 0
  | .setPos v =>
    match s.cfg.variant with
    | .edge => (s.setPos v).respond1 0
    | .pcnt => (s.setCounter 0 (wrap64 (tdiv v.toInt (s.cfg.pcntRange * s.cfg.pcntScale)))).respond1 0
  | .snapshot => s.respond s.position (snapshotR1 s) (snapshotR2 s)
  | .getIndex => (s.setIdxFlag false).respond1 (laneOfBool s.idxFlag)
  | .lcPoll ch ready smp now =>
    onChannel s ch fun k => (s.setChan ch (k.poll s.cfg ch.toNat ready smp now)).respond1 0
  | .tare ch => onChannel s ch fun k => (s.setChan ch { k with offset := k.lastRaw }).respond1 0
  | .calibrate ch wt => onChannel s ch (calibrated s ch wt)
  | .getForce ch => onChannel s ch fun k => s.respond1 (laneOfF32 k.filt)
  | .getRaw ch => onChannel s ch fun k => s.respond1 (laneOfI32 k.lastRaw)
  | .getScale ch => onChannel s ch fun k => s.respond1 (laneOfF32 k.scale)

/-- Every event answers the next state that `effect` names. -/
theorem exec_eq (i : Instr) (s : State) : exec i s = .next (effect i s) := by
  cases i with
  | phase a b now =>
    simp only [exec, execPhase, effect]
    cases s.cfg.variant <;> rfl
  | resetPos =>
    simp only [exec, execResetPos, effect]
    cases s.cfg.variant <;> rfl
  | setPos v =>
    simp only [exec, execSetPos, effect]
    cases s.cfg.variant <;> rfl
  | lcPoll ch ready smp now =>
    simp only [exec, execLcPoll, effect, onChannel]
    cases s.chan ch <;> rfl
  | tare ch =>
    simp only [exec, execTare, effect, onChannel]
    cases s.chan ch <;> rfl
  | calibrate ch wt =>
    simp only [exec, execCalibrate, effect, onChannel, calibrated]
    cases s.chan ch with
    | none => rfl
    | some k => cases f32Gt0 wt <;> rfl
  | getForce ch =>
    simp only [exec, execGetForce, effect, onChannel]
    cases s.chan ch <;> rfl
  | getRaw ch =>
    simp only [exec, execGetRaw, effect, onChannel]
    cases s.chan ch <;> rfl
  | getScale ch =>
    simp only [exec, execGetScale, effect, onChannel]
    cases s.chan ch <;> rfl
  | _ => rfl

/-- The inversion form of `exec_eq`. -/
theorem exec_next {i : Instr} {s t : State} (h : exec i s = .next t) : t = effect i s := by
  rw [exec_eq] at h
  injection h with h
  exact h.symm

theorem onChannel_some {s : State} {ch : ChanIx} {k : Channel} (h : s.chan ch = some k) (f : Channel → State) :
    onChannel s ch f = f k := by simp [onChannel, h]

theorem onChannel_none {s : State} {ch : ChanIx} (h : s.chan ch = none) (f : Channel → State) :
    onChannel s ch f = s.respond1 0 := by simp [onChannel, h]

/-- What an event of the channel space can do: nothing but the response, or one record of its channel written. -/
theorem effect_channel_cases {i : Instr} {ch : ChanIx} (s : State) (hi : i.channel = some ch) :
    (∃ r, effect i s = s.respond1 r) ∨
      (∃ k k', s.chan ch = some k ∧ effect i s = (s.setChan ch k').respond1 0) := by
  cases i <;> simp only [Instr.channel, reduceCtorEq, Option.some.injEq] at hi <;> subst hi <;>
    simp only [effect, onChannel] <;> split
  all_goals first
    | exact .inl ⟨_, rfl⟩
    | exact .inr ⟨_, _, ‹_›, rfl⟩
    | skip
  simp only [calibrated]
  split
  · exact .inr ⟨_, _, ‹_›, rfl⟩
  · exact .inl ⟨_, rfl⟩

/-- What a step can do, with a legal CFG: idle, reset, run the event the word decodes to, or ignore a reserved word. -/
theorem step_cases {s t : State} (h : Machine.step s = .next t) :
    cfgLegal s.cfg = true ∧
      ((s.input = [] ∧ t = s.quiet) ∨
       (∃ rest, s.input = .reset :: rest ∧ t = State.hardReset { s with input := rest }) ∨
       (∃ w i rest, s.input = .event w :: rest ∧ decode w = .event i ∧ t = effect i { s with input := rest }) ∨
       (∃ w why rest, s.input = .event w :: rest ∧ decode w = .reserved why ∧
          t = State.quiet { s with input := rest })) := by
  unfold Machine.step at h
  split at h
  · refine ⟨‹_›, ?_⟩
    cases hin : s.input with
    | nil =>
      rw [State.fetch_nil hin] at h
      injection h with h
      exact .inl ⟨rfl, h.symm⟩
    | cons x rest =>
      rw [State.fetch_cons hin] at h
      cases x with
      | reset =>
        injection h with h
        exact .inr (.inl ⟨rest, rfl, h.symm⟩)
      | event w =>
        simp only at h
        cases hd : decode w with
        | event i =>
          rw [hd] at h
          exact .inr (.inr (.inl ⟨w, i, rest, rfl, hd, exec_next h⟩))
        | reserved why =>
          rw [hd] at h
          injection h with h
          exact .inr (.inr (.inr ⟨w, why, rest, rfl, hd, h.symm⟩))
  · simp at h

/-- No event reads or changes CFG or the input stream. -/
theorem effect_cfg (i : Instr) (s : State) : (effect i s).cfg = s.cfg ∧ (effect i s).input = s.input := by
  cases hc : i.channel with
  | some ch =>
    obtain ⟨r, h⟩ | ⟨k, k', -, h⟩ := effect_channel_cases s hc <;> rw [h] <;> simp
  | none =>
    cases i with
    | phase a b now =>
      simp only [effect]
      split
      · simp only [phaseEdge]; split
        · simp
        · split <;> simp
      · simp only [phasePcnt]; split
        · simp
        · obtain ⟨-, h⟩ | ⟨-, -, h⟩ | ⟨-, -, h⟩ :=
            State.countBounded_cases (s.setPrev (phaseState a b)) (qtab s.prev (phaseState a b)) <;> rw [h] <;> simp
    | resetPos => simp only [effect]; split <;> simp
    | setPos v => simp only [effect]; split <;> simp
    | init => simp [effect]
    | index => simp [effect]
    | getPos => simp [effect]
    | snapshot => simp [effect]
    | getIndex => simp [effect]
    | _ => simp [Instr.channel] at hc

/-! The decoder's step in both variants (R82, R101). -/

/-- In `VARIANT = EDGE` a sample either only moves `PREV`, or is an accepted edge. -/
theorem phaseEdge_cases (new : PhaseState) (now : U32) (s : State) :
    ((qtab s.prev new = 0 ∨ glitchRejects s.cfg s.edgeValid (subTs now s.lastEdgeT) = true) ∧
      phaseEdge new now s = s.setPrev new) ∨
    ((qtab s.prev new ≠ 0 ∧ glitchRejects s.cfg s.edgeValid (subTs now s.lastEdgeT) = false) ∧
      phaseEdge new now s = (s.setPrev new).acceptEdge (qtab s.prev new)
        (acceptedInterval s.edgeValid (subTs now s.lastEdgeT)) now) := by
  unfold phaseEdge
  by_cases h : qtab s.prev new = 0
  · simp [h]
  · cases h2 : glitchRejects s.cfg s.edgeValid (subTs now s.lastEdgeT) <;> simp [h, h2]

/-- In `VARIANT = PCNT` a sample either only moves `PREV`, or counts. -/
theorem phasePcnt_cases (new : PhaseState) (s : State) :
    (qtab s.prev new = 0 ∧ phasePcnt new s = s.setPrev new) ∨
    (qtab s.prev new ≠ 0 ∧ phasePcnt new s = (s.setPrev new).countBounded (qtab s.prev new)) := by
  unfold phasePcnt
  by_cases h : qtab s.prev new = 0 <;> simp [h]

theorem effect_phase_edge {s : State} (h : s.cfg.variant = .edge) (a b : Bool) (now : U32) :
    effect (.phase a b now) s = (phaseEdge (phaseState a b) now s).quiet := by simp [effect, h]

theorem effect_phase_pcnt {s : State} (h : s.cfg.variant = .pcnt) (a b : Bool) (now : U32) :
    effect (.phase a b now) s = (phasePcnt (phaseState a b) s).quiet := by simp [effect, h]

/-- No event reads the input stream. -/
theorem effect_input (i : Instr) (s : State) (x : List Stimulus) :
    effect i { s with input := x } = { effect i s with input := x } := by
  have hch : ∀ c, State.chan { s with input := x } c = s.chan c := fun _ => rfl
  cases i with
  | phase a b now =>
    cases hv : s.cfg.variant
    · rw [effect_phase_edge hv, effect_phase_edge (by exact hv)]
      simp only [phaseEdge]
      split
      · rfl
      · split <;> rfl
    · rw [effect_phase_pcnt hv, effect_phase_pcnt (by exact hv)]
      simp only [phasePcnt]
      split
      · rfl
      · simp only [State.countBounded, State.setPrev_pcntReg, State.setPrev_cfg, State.setPrev_ovf]
        by_cases h1 : s.pcntReg.toInt + qtab s.prev (phaseState a b) = s.cfg.pcntRange
        · simp only [h1, if_true]; rfl
        · by_cases h2 : s.pcntReg.toInt + qtab s.prev (phaseState a b) = -(s.cfg.pcntRange : Int)
          · simp only [h1, if_false]; simp only [h2, if_true]; rfl
          · simp only [h1, h2, if_false]; rfl
  | resetPos => simp only [effect]; cases s.cfg.variant <;> rfl
  | setPos v => simp only [effect]; cases s.cfg.variant <;> rfl
  | init => rfl
  | index => rfl
  | getPos => rfl
  | snapshot => rfl
  | getIndex => rfl
  | lcPoll ch r smp now =>
    simp only [effect, onChannel]; rw [hch]; cases s.chan ch
    · rfl
    · simp only [State.setChan]; split <;> rfl
  | tare ch =>
    simp only [effect, onChannel]; rw [hch]; cases s.chan ch
    · rfl
    · simp only [State.setChan]; split <;> rfl
  | calibrate ch wt =>
    simp only [effect, onChannel, calibrated]; rw [hch]; cases s.chan ch
    · rfl
    · simp only []
      split
      · simp only [State.setChan]; split <;> rfl
      · rfl
  | getForce ch => simp only [effect, onChannel]; rw [hch]; cases s.chan ch <;> rfl
  | getRaw ch => simp only [effect, onChannel]; rw [hch]; cases s.chan ch <;> rfl
  | getScale ch => simp only [effect, onChannel]; rw [hch]; cases s.chan ch <;> rfl

end Sys2Proof.Laws
end

