-- ==== Sys2Proof/Laws/Channel.lean ====
section
/-! SUPPORT. The load-cell channel path in numbers: the sample, the accumulator, the average, and the invariant of a
record under a poll. Also the small facts about a legal CFG and about agreement of states. -/

namespace Sys2Proof.Laws

open Sys2Proof.Machine Sys2Proof.Safety

/-- What a legal CFG says of the bounded counter (R5). -/
theorem cfgLegal_counter {c : Cfg} (h : cfgLegal c = true) :
    1 ≤ c.pcntRange ∧ c.pcntRange ≤ 2 ^ 15 - 1 ∧ 1 ≤ c.pcntScale := by
  simp [cfgLegal] at h; omega

/-- What a legal CFG says of the number of channels (R5). -/
theorem cfgLegal_nCh {c : Cfg} (h : cfgLegal c = true) : c.nCh = 1 ∨ c.nCh = 2 := by
  simp [cfgLegal] at h; omega

/-- What a legal CFG says of the oversampling target (R5). -/
theorem cfgLegal_oversample {c : Cfg} (h : cfgLegal c = true) : 1 ≤ c.oversample.toNat := by
  simp [cfgLegal, BitVec.le_def] at h; omega

/-- Agreement in everything but the output, field by field. -/
theorem sameButOut_fields {s t : State} (e : sameButOut s t) :
    s.cfg = t.cfg ∧ s.input = t.input ∧ s.pos = t.pos ∧ s.prev = t.prev ∧ s.lastEdgeT = t.lastEdgeT ∧
      s.lastInterval = t.lastInterval ∧ s.lastDir = t.lastDir ∧ s.edgeValid = t.edgeValid ∧ s.pcntReg = t.pcntReg ∧
      s.ovf = t.ovf ∧ s.idxFlag = t.idxFlag ∧ s.prevZ = t.prevZ ∧ s.ch0 = t.ch0 ∧ s.ch1 = t.ch1 := by
  simpa [sameButOut] using e

/-- Writing one record leaves everything else as it was (R23, R126). -/
theorem setChan_onlyChannel (s : State) (ch : ChanIx) (k : Channel) (r : Lane) :
    onlyChannel ch s ((s.setChan ch k).respond1 r) := by
  have e : s.setChan ch k = { s with ch0 := (s.setChan ch k).ch0, ch1 := (s.setChan ch k).ch1 } := by
    unfold State.setChan; split <;> rfl
  have h0 := State.setChan_ch0 s ch k
  have h1 := State.setChan_ch1 s ch k
  unfold onlyChannel sameButOut
  rw [State.respond1_ch0, State.respond1_ch1]
  have h2 : (if ch = 0 then (s.setChan ch k).ch0 else s.ch0) = (s.setChan ch k).ch0 := by rw [h0]; split <;> rfl
  have h3 : (if ch = 1 then (s.setChan ch k).ch1 else s.ch1) = (s.setChan ch k).ch1 := by rw [h1]; split <;> rfl
  rw [h2, h3]
  conv_lhs => rw [e]
  rfl

/-- A quotient toward zero stays within bounds on both sides (R135). -/
theorem tdiv_bounds {n c a b : Int} (hc : 0 < c) (ha : 0 ≤ a) (hb : 0 ≤ b) (h1 : -(c * a) ≤ n) (h2 : n ≤ c * b) :
    -a ≤ Int.tdiv n c ∧ Int.tdiv n c ≤ b := by
  rcases le_or_gt 0 n with h | h
  · rw [Int.tdiv_eq_ediv_of_nonneg h]
    exact ⟨by have := Int.ediv_nonneg h hc.le; omega, Int.ediv_le_of_le_mul hc (by rw [mul_comm]; exact h2)⟩
  · have e : Int.tdiv n c = -((-n) / c) := by rw [← Int.tdiv_eq_ediv_of_nonneg (by omega), Int.neg_tdiv, neg_neg]
    have h3 := Int.ediv_nonneg (a := -n) (by omega) hc.le
    have h4 : (-n) / c ≤ a := Int.ediv_le_of_le_mul hc (by rw [mul_comm]; omega)
    omega

/-- The value of a sample survives the sign extension (R125). -/
theorem sext32_toInt (smp : Sample) : (sext32 smp).toInt = smp.toInt :=
  BitVec.toInt_signExtend_of_le (by decide)

/-- The range of a sample (R125). -/
theorem sample_bounds (smp : Sample) : -(2 ^ 23) ≤ smp.toInt ∧ smp.toInt ≤ 2 ^ 23 - 1 := by
  have h1 := BitVec.le_toInt smp
  have h2 := BitVec.toInt_lt (x := smp)
  norm_num at *
  omega

@[simp] theorem sampled_offset (k : Channel) (ready : Bool) (smp : Sample) :
    (k.sampled ready smp).offset = k.offset := by cases ready <;> rfl

@[simp] theorem sampled_tared (k : Channel) (ready : Bool) (smp : Sample) :
    (k.sampled ready smp).tared = k.tared := by cases ready <;> rfl

@[simp] theorem sampled_scale (k : Channel) (ready : Bool) (smp : Sample) :
    (k.sampled ready smp).scale = k.scale := by cases ready <;> rfl

@[simp] theorem sampled_lastRaw (k : Channel) (ready : Bool) (smp : Sample) :
    (k.sampled ready smp).lastRaw = k.lastRaw := by cases ready <;> rfl

@[simp] theorem sampled_filt (k : Channel) (ready : Bool) (smp : Sample) :
    (k.sampled ready smp).filt = k.filt := by cases ready <;> rfl

@[simp] theorem sampled_lastFlushT (k : Channel) (ready : Bool) (smp : Sample) :
    (k.sampled ready smp).lastFlushT = k.lastFlushT := by cases ready <;> rfl

/-- In a record that meets the invariant, accumulating a sample loses nothing (R125, R127). -/
theorem sampled_spec {c : Cfg} {k : Channel} (h : ChannelInv c k) (ready : Bool) (smp : Sample) :
    (k.sampled ready smp).sum.toInt = k.sum.toInt + (if ready = true then smp.toInt else 0) ∧
      (k.sampled ready smp).cnt.toNat = k.cnt.toNat + ready.toNat := by
  have hc := h.cnt_below
  have hsl := h.sum_low
  have hsh := h.sum_high
  have hb := sample_bounds smp
  have := k.cnt.isLt
  have := c.oversample.isLt
  have e : ((sext32 smp).signExtend 64).toInt = smp.toInt := by
    rw [BitVec.toInt_signExtend_of_le (by decide), sext32_toInt]
  cases ready
  · simp [Channel.sampled]
  · simp only [Channel.sampled, Channel.accumulate, if_true]
    constructor
    · rw [BitVec.toInt_add, e]
      apply Int.bmod_eq_of_le <;> omega
    · rw [BitVec.toNat_add]; simp; omega

/-- The average of a flush is the exact quotient, within the range of a sample (R128, R36 d). -/
theorem average_spec {c : Cfg} {k : Channel} (h : ChannelInv c k) (ready : Bool) (smp : Sample)
    (hn : 1 ≤ k.cnt.toNat + ready.toNat) :
    (k.sampled ready smp).average.toInt =
        Int.tdiv (k.sum.toInt + (if ready = true then smp.toInt else 0)) (k.cnt.toNat + ready.toNat : Nat) ∧
      -(2 ^ 23) ≤ (k.sampled ready smp).average.toInt ∧ (k.sampled ready smp).average.toInt ≤ 2 ^ 23 - 1 := by
  obtain ⟨hs, hc⟩ := sampled_spec h ready smp
  have hsl := h.sum_low
  have hsh := h.sum_high
  have hb := sample_bounds smp
  have hq : -(2 ^ 23) ≤ Int.tdiv (k.sampled ready smp).sum.toInt (k.sampled ready smp).cnt.toNat ∧
      Int.tdiv (k.sampled ready smp).sum.toInt (k.sampled ready smp).cnt.toNat ≤ 2 ^ 23 - 1 := by
    apply tdiv_bounds (by omega) (by omega) (by omega)
    · rw [hs, hc]; cases ready <;> simp <;> omega
    · rw [hs, hc]; cases ready <;> simp <;> omega
  have e : (k.sampled ready smp).average.toInt =
      Int.tdiv (k.sampled ready smp).sum.toInt (k.sampled ready smp).cnt.toNat := by
    simp only [Channel.average, tdiv]
    rw [BitVec.toInt_ofInt]
    apply Int.bmod_eq_of_le <;> omega
  rw [e]
  exact ⟨by rw [hs, hc], hq⟩

/-- A poll keeps the invariant of its record (R36 b, c, d). -/
theorem poll_keeps {c : Cfg} {k : Channel} (h : ChannelInv c k) (ix : Nat) (ready : Bool) (smp : Sample) (now : U32) :
    ChannelInv c (k.poll c ix ready smp now) := by
  obtain ⟨hs, hc⟩ := sampled_spec h ready smp
  have hsl := h.sum_low
  have hsh := h.sum_high
  have hb := sample_bounds smp
  have hr := ready.toNat_le
  have hc1 := h.cnt_below
  obtain ⟨hd, e⟩ | ⟨hd, e⟩ := Channel.poll_cases k c ix ready smp now
  · rw [e]
    have hd' := (flushDue_iff c (k.sampled ready smp).cnt now k.lastFlushT).not.mp (by simp [hd])
    refine ⟨?_, ?_, ?_, ?_, ?_⟩
    · by_contra hh; apply hd'; omega
    · rw [hs, hc]; cases ready <;> simp <;> omega
    · rw [hs, hc]; cases ready <;> simp <;> omega
    · rw [sampled_lastRaw]; exact h.raw_range
    · rw [sampled_offset]; exact h.offset_range
  · rw [e]
    have hd' := (flushDue_iff c (k.sampled ready smp).cnt now k.lastFlushT).mp hd
    have ha := (average_spec h ready smp (by omega)).2
    refine ⟨?_, ?_, ?_, ?_, ?_⟩
    · simp [Channel.flush]
    · simp [Channel.flush]
    · simp [Channel.flush]
    · exact ha
    · simp only [Channel.flush, offsetAfterFlush, sampled_offset]
      split
      · exact h.offset_range
      · exact ha

/-! What an event does to the records (R37, R126). -/

/-- An event that addresses no channel and is no `INIT` leaves both records alone. -/
theorem effect_records {i : Instr} (s : State) (hc : i.channel = none) (hi : isInit i = false) :
    (effect i s).ch0 = s.ch0 ∧ (effect i s).ch1 = s.ch1 := by
  cases i with
  | phase a b now =>
    cases hv : s.cfg.variant
    · rw [effect_phase_edge hv]
      obtain ⟨_, e⟩ | ⟨_, e⟩ := phaseEdge_cases (phaseState a b) now s <;> rw [e] <;> simp
    · rw [effect_phase_pcnt hv]
      obtain ⟨_, e⟩ | ⟨_, e⟩ := phasePcnt_cases (phaseState a b) s <;> rw [e]
      · simp
      · obtain ⟨-, h⟩ | ⟨-, -, h⟩ | ⟨-, -, h⟩ :=
          State.countBounded_cases (s.setPrev (phaseState a b)) (qtab s.prev (phaseState a b)) <;> rw [h] <;> simp
  | resetPos => simp only [effect]; split <;> simp
  | setPos v => simp only [effect]; split <;> simp
  | init => simp [isInit] at hi
  | index => simp [effect]
  | getPos => simp [effect]
  | snapshot => simp [effect]
  | getIndex => simp [effect]
  | _ => simp [Instr.channel] at hc

/-- An event that addresses a channel leaves the decoder's and the latch's fields alone. -/
theorem effect_decoder {i : Instr} {ch : ChanIx} (s : State) (hc : i.channel = some ch) :
    (effect i s).pos = s.pos ∧ (effect i s).prev = s.prev ∧ (effect i s).lastEdgeT = s.lastEdgeT ∧
      (effect i s).lastInterval = s.lastInterval ∧ (effect i s).lastDir = s.lastDir ∧
      (effect i s).edgeValid = s.edgeValid ∧ (effect i s).pcntReg = s.pcntReg ∧ (effect i s).ovf = s.ovf ∧
      (effect i s).idxFlag = s.idxFlag ∧ (effect i s).prevZ = s.prevZ := by
  obtain ⟨r, h⟩ | ⟨k, k', -, h⟩ := effect_channel_cases s hc <;> rw [h] <;> simp

/-- An event that addresses one channel leaves every other index alone. -/
theorem effect_other_chan {i : Instr} {c' c : ChanIx} (s : State) (hc : i.channel = some c') (hne : c' ≠ c) :
    (effect i s).chan c = s.chan c := by
  obtain ⟨r, h⟩ | ⟨k, k', -, h⟩ := effect_channel_cases s hc <;> rw [h]
  · rfl
  · rw [State.chan_respond1, State.chan_setChan_other hne]

/-- No event makes a channel that does not exist. -/
theorem effect_chan_none {s : State} {c : ChanIx} (i : Instr) (hk : s.chan c = none) : (effect i s).chan c = none := by
  have h := State.chan_isSome_congr (s := effect i s) (t := s) (by rw [(effect_cfg _ _).1]) c
  rw [hk] at h
  simpa using h

/-- All that an event other than `INIT` can make of a record: leave it, poll it, tare it or calibrate it. -/
theorem effect_chan_some {s : State} {c : ChanIx} {k : Channel} (i : Instr) (hi : isInit i = false)
    (hk : s.chan c = some k) :
    ∃ k', (effect i s).chan c = some k' ∧
      (k' = k ∨
       (∃ r smp now, i = .lcPoll c r smp now ∧ k' = k.poll s.cfg c.toNat r smp now) ∨
       (i = .tare c ∧ k' = { k with offset := k.lastRaw }) ∨
       (∃ wt, i = .calibrate c wt ∧
          k' = { k with scale := f32Div (i32ToF32 (k.lastRaw - k.offset)) wt (Config.freeNaN c.toNat k.nanDraws) })) := by
  cases hc : i.channel with
  | none =>
    refine ⟨k, ?_, .inl rfl⟩
    rw [State.chan_congr (effect_cfg i s).1 (effect_records s hc hi).1 (effect_records s hc hi).2, hk]
  | some c' =>
    by_cases hne : c' = c
    · subst hne
      cases i <;> simp [Instr.channel] at hc <;> subst hc <;> simp only [effect, onChannel_some hk, calibrated]
      case lcPoll r smp now => exact ⟨_, State.chan_setChan_same hk _, .inr (.inl ⟨_, _, _, rfl, rfl⟩)⟩
      case tare => exact ⟨_, State.chan_setChan_same hk _, by simp⟩
      case calibrate =>
        split
        · exact ⟨_, State.chan_setChan_same hk _, .inr (.inr (.inr ⟨_, rfl, rfl⟩))⟩
        · exact ⟨_, hk, .inl rfl⟩
      all_goals exact ⟨_, hk, .inl rfl⟩
    · exact ⟨k, by rw [effect_other_chan s hc hne, hk], .inl rfl⟩

/-- The force a poll leaves: the old one, or that of a flush. -/
theorem poll_filt (k : Channel) (c : Cfg) (ix : Nat) (ready : Bool) (smp : Sample) (now : U32) :
    (k.poll c ix ready smp now).filt = k.filt ∨
      ∃ diff w, (k.poll c ix ready smp now).filt = iirStep c.beta (instForce k.scale diff w) k.filt w := by
  obtain ⟨-, e⟩ | ⟨-, e⟩ := Channel.poll_cases k c ix ready smp now <;> rw [e]
  · exact .inl (sampled_filt ..)
  · refine .inr ⟨(k.sampled ready smp).average - offsetAfterFlush (k.sampled ready smp).tared
      (k.sampled ready smp).offset (k.sampled ready smp).average, Config.freeNaN ix (k.sampled ready smp).nanDraws, ?_⟩
    simp only [Channel.flush, sampled_filt, sampled_scale]

end Sys2Proof.Laws
end

