-- ==== Sys2Proof/Laws/Decode.lean ====
section
/-! SUPPORT. The fields of a laid-out word and of each format's data (R57, R59 to R61). -/

namespace Sys2Proof

/-! The fixed fields of `layout`. -/

@[simp] theorem opField_layout (op : BitVec 4) (ch : ChanIx) (d : BitVec 64) : opField (layout op ch d) = op := by
  unfold opField layout
  ext i hi
  simp only [BitVec.getElem_extractLsb', BitVec.getLsbD_append]
  rw [if_neg (by omega), if_neg (by omega), if_neg (by omega), BitVec.getLsbD_eq_getElem (by omega)]
  congr 1; omega

@[simp] theorem chField_layout (op : BitVec 4) (ch : ChanIx) (d : BitVec 64) : chField (layout op ch d) = ch := by
  unfold chField layout
  ext i hi
  simp only [BitVec.getElem_extractLsb', BitVec.getLsbD_append]
  rw [if_neg (by omega), if_neg (by omega), if_pos (by omega), BitVec.getLsbD_eq_getElem (by omega)]
  congr 1; omega

@[simp] theorem rsvField_layout (op : BitVec 4) (ch : ChanIx) (d : BitVec 64) : rsvField (layout op ch d) = 0 := by
  unfold rsvField layout
  ext i hi
  simp only [BitVec.getElem_extractLsb', BitVec.getLsbD_append]
  rw [if_neg (by omega), if_pos (by omega)]
  simp

@[simp] theorem dataField_layout (op : BitVec 4) (ch : ChanIx) (d : BitVec 64) : dataField (layout op ch d) = d := by
  unfold dataField layout
  ext i hi
  simp only [BitVec.getElem_extractLsb', BitVec.getLsbD_append]
  rw [if_pos (by omega), Nat.zero_add, BitVec.getLsbD_eq_getElem (by omega)]

theorem rsvField_zero_bit (w : EventWord) (h : rsvField w = 0) (j : Nat) (hj : j < 8) :
    w.getLsbD (64 + j) = false := by
  have := congrArg (fun x => x.getLsbD j) h
  simp only [rsvField, BitVec.getLsbD_extractLsb', hj] at this
  simpa using this

/-- A word with a zero `rsv` field is the layout of its other fields (R57). -/
theorem layout_fields (w : EventWord) (h : rsvField w = 0) :
    layout (opField w) (chField w) (dataField w) = w := by
  apply BitVec.eq_of_getLsbD_eq
  intro i hi
  simp only [layout, BitVec.getLsbD_append]
  split
  · simp only [dataField, BitVec.getLsbD_extractLsb']; simp [*]
  · split
    · have h2 := rsvField_zero_bit w h (i - 64) (by omega)
      rw [show 64 + (i - 64) = i by omega] at h2
      simp [h2]
    · split
      · simp only [chField, BitVec.getLsbD_extractLsb', show 72 + (i - 64 - 8) = i by omega]; simp; omega
      · simp only [opField, BitVec.getLsbD_extractLsb', show 76 + (i - 64 - 8 - 4) = i by omega]; simp; omega

/-- A laid-out word whose opcode is not reserved decodes by its fields (R69). -/
theorem decode_layout (op : BitVec 4) (ch : ChanIx) (d : BitVec 64) (h0 : op ≠ 0x0#4) (hf : op ≠ 0xF#4) :
    decode (layout op ch d) = decodeFields op ch d := by
  simp [decode, h0, hf]

/-! The operand fields of each format's data. -/

@[simp] theorem lowWord_append (x : BitVec 32) (now : U32) : lowWord (x ++ now) = now := by
  unfold lowWord
  ext i hi
  simp only [BitVec.getElem_extractLsb', BitVec.getLsbD_append]
  rw [if_pos (by omega), Nat.zero_add, BitVec.getLsbD_eq_getElem (by omega)]

@[simp] theorem lowWord_dataI (a b z : Bool) (now : U32) : lowWord (dataI a b z now) = now := lowWord_append _ _

@[simp] theorem aField_dataI (a b z : Bool) (now : U32) : aField (dataI a b z now) = a := by
  unfold aField dataI; simp only [BitVec.getLsbD_append]; simp

@[simp] theorem bField_dataI (a b z : Bool) (now : U32) : bField (dataI a b z now) = b := by
  unfold bField dataI; simp only [BitVec.getLsbD_append]; simp

@[simp] theorem zFieldI_dataI (a b z : Bool) (now : U32) : zFieldI (dataI a b z now) = z := by
  unfold zFieldI dataI; simp only [BitVec.getLsbD_append]; simp

@[simp] theorem zeroFrom_dataI (a b z : Bool) (now : U32) : zeroFrom (dataI a b z now) 35 = true := by
  unfold zeroFrom dataI
  rw [beq_iff_eq]
  apply BitVec.eq_of_getLsbD_eq
  intro i hi
  simp only [BitVec.getLsbD_ushiftRight, BitVec.getLsbD_append]
  rw [if_neg (by omega), if_neg (by omega), if_neg (by omega), if_neg (by omega)]
  simp

@[simp] theorem lowWord_dataP (a b : Bool) (now : U32) : lowWord (dataP a b now) = now := lowWord_append _ _

@[simp] theorem aField_dataP (a b : Bool) (now : U32) : aField (dataP a b now) = a := by
  unfold aField dataP; simp only [BitVec.getLsbD_append]; simp

@[simp] theorem bField_dataP (a b : Bool) (now : U32) : bField (dataP a b now) = b := by
  unfold bField dataP; simp only [BitVec.getLsbD_append]; simp

@[simp] theorem zeroFrom_dataP (a b : Bool) (now : U32) : zeroFrom (dataP a b now) 34 = true := by
  unfold zeroFrom dataP
  rw [beq_iff_eq]
  apply BitVec.eq_of_getLsbD_eq
  intro i hi
  simp only [BitVec.getLsbD_ushiftRight, BitVec.getLsbD_append]
  rw [if_neg (by omega), if_neg (by omega), if_neg (by omega)]
  simp

@[simp] theorem zField_dataZ (z : Bool) : zField (dataZ z) = z := by cases z <;> decide

@[simp] theorem zeroFrom_dataZ (z : Bool) : zeroFrom (dataZ z) 1 = true := by cases z <;> decide

@[simp] theorem lowWord_dataW (wt : F32) : lowWord (dataW wt) = wt := lowWord_append _ _

@[simp] theorem zeroFrom_dataW (wt : F32) : zeroFrom (dataW wt) 32 = true := by
  unfold zeroFrom dataW
  rw [beq_iff_eq]
  apply BitVec.eq_of_getLsbD_eq
  intro i hi
  simp only [BitVec.getLsbD_ushiftRight, BitVec.getLsbD_append]
  rw [if_neg (by omega)]
  simp

@[simp] theorem lowWord_dataL (ready : Bool) (smp : Sample) (now : U32) : lowWord (dataL ready smp now) = now :=
  lowWord_append _ _

@[simp] theorem readyField_dataL (ready : Bool) (smp : Sample) (now : U32) :
    readyField (dataL ready smp now) = ready := by
  unfold readyField dataL; simp only [BitVec.getLsbD_append]; simp

@[simp] theorem smpField_dataL (ready : Bool) (smp : Sample) (now : U32) : smpField (dataL ready smp now) = smp := by
  unfold smpField dataL
  ext i hi
  simp only [BitVec.getElem_extractLsb', BitVec.getLsbD_append]
  rw [if_neg (by omega), if_pos (by omega), BitVec.getLsbD_eq_getElem (by omega)]
  congr 1; omega

@[simp] theorem zeroFrom_dataL (ready : Bool) (smp : Sample) (now : U32) :
    zeroFrom (dataL ready smp now) 57 = true := by
  unfold zeroFrom dataL
  rw [beq_iff_eq]
  apply BitVec.eq_of_getLsbD_eq
  intro i hi
  simp only [BitVec.getLsbD_ushiftRight, BitVec.getLsbD_append]
  rw [if_neg (by omega), if_neg (by omega), if_neg (by omega)]
  simp

@[simp] theorem zeroFrom_zero (n : Nat) : zeroFrom 0#64 n = true := by simp [zeroFrom]

@[simp] theorem zeroFrom_all (v : BitVec 64) : zeroFrom v 64 = true := by
  unfold zeroFrom
  rw [beq_iff_eq]
  apply BitVec.eq_of_getLsbD_eq
  intro i hi
  simp

/-- What `zeroFrom` says of a bit. -/
theorem zeroFrom_bit (d : BitVec 64) (n i : Nat) (h : zeroFrom d n = true) (hi : n ≤ i) : d.getLsbD i = false := by
  unfold zeroFrom at h
  rw [beq_iff_eq] at h
  have := congrArg (fun x => x.getLsbD (i - n)) h
  simp only [BitVec.getLsbD_ushiftRight, show n + (i - n) = i by omega] at this
  simpa using this

/-! What an accepted format gives. -/

theorem withChannel_event {d : BitVec 64} {n : Nat} {i j : Instr} (h : withChannel d n i = .event j) :
    zeroFrom d n = true ∧ i = j := by
  unfold withChannel at h
  split at h
  · exact ⟨‹_›, by simpa using h⟩
  · simp at h

theorem noChannel_event {ch : ChanIx} {d : BitVec 64} {n : Nat} {i j : Instr} (h : noChannel ch d n i = .event j) :
    ch = 0 ∧ zeroFrom d n = true ∧ i = j := by
  unfold noChannel at h
  split at h
  · exact ⟨‹_›, withChannel_event h⟩
  · simp at h

/-- An accepted word has an opcode that is not reserved, a zero `rsv`, and decodes by its fields. -/
theorem decode_event {w : EventWord} {i : Instr} (h : decode w = .event i) :
    opField w ≠ 0x0#4 ∧ opField w ≠ 0xF#4 ∧ rsvField w = 0 ∧
      decodeFields (opField w) (chField w) (dataField w) = .event i := by
  unfold decode at h
  split at h
  · simp at h
  · split at h
    · rename_i h1 h2
      exact ⟨fun e => h1 (.inl e), fun e => h1 (.inr e), h2, h⟩
    · simp at h

end Sys2Proof
end

