-- ==== Sys2Proof/Laws/PerInstr.lean ====
section
/-! SUPPORT. Statements for all instructions, made for each: the word of an event decodes to the event. -/

/-- Decoding an event's word gives the event back (R57 to R61). -/
def Sys2Proof.Laws.RoundTrip.Statement (i : Sys2Proof.Instr) : Prop :=
  Sys2Proof.decode (Sys2Proof.encode i) = .event i

namespace Sys2Proof.Laws.RoundTrip

theorem init (a b z : Bool) (now : U32) : Statement (.init a b z now) := by
  simp [Statement, encode, decode_layout, decodeFields, noChannel, withChannel]

theorem phase (a b : Bool) (now : U32) : Statement (.phase a b now) := by
  simp [Statement, encode, decode_layout, decodeFields, noChannel, withChannel]

theorem index (z : Bool) : Statement (.index z) := by
  simp [Statement, encode, decode_layout, decodeFields, noChannel, withChannel]

theorem getPos : Statement .getPos := by
  simp [Statement, encode, decode_layout, decodeFields, noChannel, withChannel]

theorem resetPos : Statement .resetPos := by
  simp [Statement, encode, decode_layout, decodeFields, noChannel, withChannel]

theorem setPos (v : I64) : Statement (.setPos v) := by
  simp [Statement, encode, decode_layout, decodeFields, noChannel, withChannel]

theorem snapshot : Statement .snapshot := by
  simp [Statement, encode, decode_layout, decodeFields, noChannel, withChannel]

theorem getIndex : Statement .getIndex := by
  simp [Statement, encode, decode_layout, decodeFields, noChannel, withChannel]

theorem lcPoll (ch : ChanIx) (ready : Bool) (smp : Sample) (now : U32) : Statement (.lcPoll ch ready smp now) := by
  simp [Statement, encode, decode_layout, decodeFields, withChannel]

theorem tare (ch : ChanIx) : Statement (.tare ch) := by
  simp [Statement, encode, decode_layout, decodeFields, withChannel]

theorem calibrate (ch : ChanIx) (wt : F32) : Statement (.calibrate ch wt) := by
  simp [Statement, encode, decode_layout, decodeFields, withChannel]

theorem getForce (ch : ChanIx) : Statement (.getForce ch) := by
  simp [Statement, encode, decode_layout, decodeFields, withChannel]

theorem getRaw (ch : ChanIx) : Statement (.getRaw ch) := by
  simp [Statement, encode, decode_layout, decodeFields, withChannel]

theorem getScale (ch : ChanIx) : Statement (.getScale ch) := by
  simp [Statement, encode, decode_layout, decodeFields, withChannel]

end Sys2Proof.Laws.RoundTrip
end

