-- ==== Sys2Proof/Laws/Trace.lean ====
section
/-! SUPPORT. A trace applied event by event (R197): its first event, its parts, and that it always answers. What it is
that the glitch filter rejects none of a list of samples (R89), and the answers of `GET_INDEX` (R118). -/

namespace Sys2Proof.Laws

open Sys2Proof.Machine Sys2Proof.Safety

@[simp] theorem applyTrace_nil (s : State) : applyTrace [] s = some (s, []) := rfl

theorem applyTrace_cons (i : Instr) (tr : List Instr) (s : State) :
    applyTrace (i :: tr) s =
      (applyTrace tr (effect i s)).map fun p =>
        (p.1, if (effect i s).out.valid then (i, (effect i s).out) :: p.2 else p.2) := by
  simp [applyTrace, exec_eq]

theorem applyTrace_some (tr : List Instr) (s : State) : ∃ t rs, applyTrace tr s = some (t, rs) := by
  induction tr generalizing s with
  | nil => exact ⟨_, _, rfl⟩
  | cons i tr ih =>
    obtain ⟨t, rs, h⟩ := ih (effect i s)
    exact ⟨_, _, by rw [applyTrace_cons, h]; rfl⟩

theorem applyTrace_append {xs : List Instr} {s t : State} {rs : List (Instr × Response)}
    (h : applyTrace xs s = some (t, rs)) (ys : List Instr) :
    applyTrace (xs ++ ys) s = (applyTrace ys t).map fun p => (p.1, rs ++ p.2) := by
  induction xs generalizing s t rs with
  | nil => simp at h; obtain ⟨rfl, rfl⟩ := h; simp
  | cons i xs ih =>
    rw [applyTrace_cons] at h
    obtain ⟨t', rs', h'⟩ := applyTrace_some xs (effect i s)
    rw [h'] at h
    simp at h
    obtain ⟨rfl, rfl⟩ := h
    rw [List.cons_append, applyTrace_cons, ih h', Option.map_map]
    congr 1
    funext p
    simp
    split <;> rfl

/-! Samples none of which the filter rejects (R89). -/

/-- The first sample of such a list either counts nothing, or is an accepted edge; the rest is such a list from there. -/
theorem rejectsNone_cons {s : State} {x : PhaseSample} {xs : List PhaseSample}
    (h : rejectsNone s.cfg.glitchUs s.prev s.edgeValid s.lastEdgeT (x :: xs) = true) :
    (qtab s.prev x.state = 0 ∧ phaseEdge x.state x.now s = s.setPrev x.state ∧
      rejectsNone s.cfg.glitchUs x.state s.edgeValid s.lastEdgeT xs = true) ∨
    (qtab s.prev x.state ≠ 0 ∧
      phaseEdge x.state x.now s = (s.setPrev x.state).acceptEdge (qtab s.prev x.state)
        (acceptedInterval s.edgeValid (subTs x.now s.lastEdgeT)) x.now ∧
      rejectsNone s.cfg.glitchUs x.state true x.now xs = true) := by
  unfold rejectsNone at h
  by_cases h0 : qtab s.prev x.state = 0
  · rw [if_pos h0] at h
    exact .inl ⟨h0, by simp [phaseEdge, h0], h⟩
  · rw [if_neg h0, Bool.and_eq_true, Bool.or_eq_true, Bool.not_eq_true', decide_eq_true_eq] at h
    have hr : glitchRejects s.cfg s.edgeValid (subTs x.now s.lastEdgeT) = false := by
      obtain ⟨h1 | h1, -⟩ := h
      · simp [glitchRejects, h1]
      · simp only [glitchRejects, Bool.and_eq_false_iff, decide_eq_false_iff_not]
        exact .inr (by bv_omega)
    exact .inr ⟨h0, by simp [phaseEdge, h0, hr], h.2⟩

/-- A filter that is off rejects nothing (R5, R82). -/
theorem rejectsNone_off (p : PhaseState) (valid : Bool) (last : U32) (xs : List PhaseSample) :
    rejectsNone 0 p valid last xs = true := by
  induction xs generalizing p valid last with
  | nil => rfl
  | cons x xs ih =>
    unfold rejectsNone
    split
    · exact ih ..
    · rw [ih, Bool.and_true, Bool.or_eq_true, decide_eq_true_eq]
      exact .inr (by simp [BitVec.le_def])

/-! The answers of `GET_INDEX` (R118). -/

@[simp] theorem indexAnswers_nil : indexAnswers [] = [] := rfl

@[simp] theorem indexAnswers_append (rs qs : List (Instr × Response)) :
    indexAnswers (rs ++ qs) = indexAnswers rs ++ indexAnswers qs := by simp [indexAnswers]

@[simp] theorem indexAnswers_get (r : Response) (rs : List (Instr × Response)) :
    indexAnswers ((.getIndex, r) :: rs) = r.r0 :: indexAnswers rs := rfl

theorem indexAnswers_other {i : Instr} (h : i ≠ .getIndex) (r : Response) (rs : List (Instr × Response)) :
    indexAnswers ((i, r) :: rs) = indexAnswers rs := by simp [indexAnswers, h]

end Sys2Proof.Laws
end

