-- ==== Sys2Proof/Machine/Text.lean ====
section
/-! DEFINITION. The textual form of a trace (R70, R43): one event a line, the mnemonic and then the operands as
`name=value`, values decimal or `0x` hexadecimal, floats as exact decimal literals or `bits:0x…`, comments from `#`.
Where R70 leaves a detail open, log 19 says what is taken. -/

namespace Sys2Proof.Machine.Text

/-! Writing. -/

def hexDigit (n : Nat) : Char := ['0', '1', '2', '3', '4', '5', '6', '7', '8', '9', 'A', 'B', 'C', 'D', 'E', 'F'].getD n '0'

/-- The low `width` hexadecimal digits of `n`, the most significant first (R43). -/
def hexDigits (width n : Nat) : List Char := (List.range width).map fun k => hexDigit (n / 16 ^ (width - 1 - k) % 16)

def hexLit (width n : Nat) : List Char := ['0', 'x'] ++ hexDigits width n

/-- An event word as 20 hexadecimal digits (R43). -/
def wordText (w : EventWord) : String := String.ofList (hexLit 20 w.toNat)

def bitText (x : Bool) : List Char := if x then ['1'] else ['0']

/-- ` name=value`. -/
def field (name : String) (value : List Char) : List Char := [' '] ++ name.toList ++ ['='] ++ value

/-- The operands of an event, in the order of R70's examples; every value in hexadecimal, a float as its bits. -/
def operands : Instr → List Char
  | .init a b z now => field "a" (bitText a) ++ field "b" (bitText b) ++ field "z" (bitText z) ++ field "now" (hexLit 8 now.toNat)
  | .phase a b now => field "a" (bitText a) ++ field "b" (bitText b) ++ field "now" (hexLit 8 now.toNat)
  | .index z => field "z" (bitText z)
  | .getPos => []
  | .resetPos => []
  | .setPos v => field "v" ((if v.msb then ['-'] else []) ++ hexLit 16 v.toInt.natAbs)
  | .snapshot => []
  | .getIndex => []
  | .lcPoll ch ready smp now =>
    field "ch" (hexLit 1 ch.toNat) ++ field "ready" (bitText ready) ++ field "smp" (hexLit 6 smp.toNat) ++
      field "now" (hexLit 8 now.toNat)
  | .tare ch => field "ch" (hexLit 1 ch.toNat)
  | .calibrate ch wt => field "ch" (hexLit 1 ch.toNat) ++ field "wt" ("bits:".toList ++ hexLit 8 wt.toNat)
  | .getForce ch => field "ch" (hexLit 1 ch.toNat)
  | .getRaw ch => field "ch" (hexLit 1 ch.toNat)
  | .getScale ch => field "ch" (hexLit 1 ch.toNat)

/-- An event as one line of a trace (R70). -/
def lineOf (i : Instr) : String := String.ofList (i.mnemonic.toList ++ operands i)

/-- A response (R70): `-> r0=…`, with `r1=` and `r2=` for `SNAPSHOT`. -/
def responseText (i : Instr) (r : Response) : String :=
  String.ofList ("->".toList ++ field "r0" (hexLit 16 r.r0.toNat) ++
    (if i = .snapshot then field "r1" (hexLit 16 r.r1.toNat) ++ field "r2" (hexLit 16 r.r2.toNat) else []))

/-! Reading. -/

/-- The value of a digit in a base, if it is one. -/
def digitValue (base : Nat) (c : Char) : Option Nat :=
  let n := c.toNat
  let v := if 48 ≤ n ∧ n ≤ 57 then n - 48 else if 65 ≤ n ∧ n ≤ 70 then n - 55 else if 97 ≤ n ∧ n ≤ 102 then n - 87 else base
  if v < base then some v else none

/-- The number that digits spell, after `acc`. -/
def digitsFrom (base : Nat) : Nat → List Char → Option Nat
  | acc, [] => some acc
  | acc, c :: cs =>
    match digitValue base c with
    | some v => digitsFrom base (acc * base + v) cs
    | none => none

/-- One digit or more. -/
def digits (base : Nat) (cs : List Char) : Option Nat := if cs.isEmpty then none else digitsFrom base 0 cs

/-- An unsigned value, decimal or `0x` hexadecimal (R70). -/
def natOf : List Char → Option Nat
  | '0' :: 'x' :: cs => digits 16 cs
  | cs => digits 10 cs

/-- A value that may have a minus sign. -/
def intOf : List Char → Option Int
  | '-' :: cs => (natOf cs).map fun n => -(n : Int)
  | cs => (natOf cs).map fun n => (n : Int)

/-- An unsigned value that fits a field of `w` bits. -/
def bitsOf (w : Nat) (cs : List Char) : Option (BitVec w) :=
  (natOf cs).bind fun n => if n < 2 ^ w then some (BitVec.ofNat w n) else none

/-- A single bit. -/
def bitOf (cs : List Char) : Option Bool := (bitsOf 1 cs).map fun x => x == 1#1

/-- A position: a value in the i64 range. -/
def positionOf (cs : List Char) : Option I64 :=
  (intOf cs).bind fun n => if -(2 ^ 63) ≤ n ∧ n < 2 ^ 63 then some (BitVec.ofInt 64 n) else none

/-- The pattern of `n / d` when binary32 holds that value exactly. -/
def exactF32 (neg : Bool) (n d : Nat) : Option F32 :=
  let m := roundMag (n * 2 ^ 149) d
  if m < infMag ∧ magUnits m * d = n * 2 ^ 149 then some (f32Pack neg m) else none

/-- A decimal literal, digits with at most one point between them, that denotes a binary32 exactly (R70). -/
def decimalOf (neg : Bool) (cs : List Char) : Option F32 :=
  let whole := cs.takeWhile (· != '.')
  match cs.dropWhile (· != '.') with
  | [] => (digits 10 whole).bind fun n => exactF32 neg n 1
  | _ :: frac => (digits 10 frac).bind fun _ => (digits 10 (whole ++ frac)).bind fun n => exactF32 neg n (10 ^ frac.length)

/-- A float: `bits:` and the pattern, or a decimal literal (R70). -/
def floatOf : List Char → Option F32
  | 'b' :: 'i' :: 't' :: 's' :: ':' :: cs => bitsOf 32 cs
  | '-' :: cs => decimalOf true cs
  | cs => decimalOf false cs

/-- The words of a line, separated by spaces; `acc` is the word begun. -/
def wordsFrom : List Char → List Char → List (List Char)
  | acc, [] => if acc.isEmpty then [] else [acc.reverse]
  | acc, c :: cs => if c = ' ' then (if acc.isEmpty then [] else [acc.reverse]) ++ wordsFrom [] cs else wordsFrom (c :: acc) cs

/-- A line's words; a comment runs from `#` to the end of the line (R70). -/
def wordsOf (cs : List Char) : List (List Char) := wordsFrom [] (cs.takeWhile (· != '#'))

/-- The value of the operand `name=value`. -/
def valueOf (name : String) (word : List Char) : Option (List Char) :=
  if (name.toList ++ ['=']).isPrefixOf word then some (word.drop (name.length + 1)) else none

/-- Reads the operand `name` with `read`. -/
def operand {α : Type} (name : String) (read : List Char → Option α) (word : List Char) : Option α :=
  (valueOf name word).bind read

/-- An event whose one operand is the channel. -/
def channelEvent (mk : ChanIx → Instr) : List (List Char) → Option Instr
  | [c] => (operand "ch" (bitsOf 4) c).map mk
  | _ => none

/-- An event without operands. -/
def plainEvent (i : Instr) : List (List Char) → Option Instr
  | [] => some i
  | _ => none

/-- The event a mnemonic and its operand words spell (R70). A poll with `ready=0` may leave `smp` out: it is 0 (R61). -/
def eventOf (mnemonic : String) (ops : List (List Char)) : Option Instr :=
  match mnemonic, ops with
  | "INIT", [a, b, z, n] => do
    return .init (← operand "a" bitOf a) (← operand "b" bitOf b) (← operand "z" bitOf z) (← operand "now" (bitsOf 32) n)
  | "PHASE", [a, b, n] => do
    return .phase (← operand "a" bitOf a) (← operand "b" bitOf b) (← operand "now" (bitsOf 32) n)
  | "INDEX", [z] => (operand "z" bitOf z).map .index
  | "GET_POS", ops => plainEvent .getPos ops
  | "RESET_POS", ops => plainEvent .resetPos ops
  | "SET_POS", [v] => (operand "v" positionOf v).map .setPos
  | "SNAPSHOT", ops => plainEvent .snapshot ops
  | "GET_INDEX", ops => plainEvent .getIndex ops
  | "LC_POLL", [c, r, n] => do
    let ready ← operand "ready" bitOf r
    if ready then none else return .lcPoll (← operand "ch" (bitsOf 4) c) false 0 (← operand "now" (bitsOf 32) n)
  | "LC_POLL", [c, r, x, n] => do
    return .lcPoll (← operand "ch" (bitsOf 4) c) (← operand "ready" bitOf r) (← operand "smp" (bitsOf 24) x)
      (← operand "now" (bitsOf 32) n)
  | "TARE", ops => channelEvent .tare ops
  | "CALIBRATE", [c, w] => do return .calibrate (← operand "ch" (bitsOf 4) c) (← operand "wt" floatOf w)
  | "GET_FORCE", ops => channelEvent .getForce ops
  | "GET_RAW", ops => channelEvent .getRaw ops
  | "GET_SCALE", ops => channelEvent .getScale ops
  | _, _ => none

/-- One line of a trace as its characters: no event (a blank or comment line), an event, or no line of R70's form. -/
def readLine (cs : List Char) : Option (List Instr) :=
  match wordsOf cs with
  | [] => some []
  | m :: ops => (eventOf (String.ofList m) ops).map fun i => [i]

/-- The event of one line. -/
def parseLine (line : String) : Option Instr :=
  match readLine line.toList with
  | some [i] => some i
  | _ => none

/-- The lines of a text; `acc` is the line begun. -/
def linesFrom : List Char → List Char → List (List Char)
  | acc, [] => [acc.reverse]
  | acc, c :: cs => if c = '\n' then acc.reverse :: linesFrom [] cs else linesFrom (c :: acc) cs

/-- A trace (R70): its lines in order, one event a line. -/
def parseTrace (text : String) : Option (List Instr) :=
  ((linesFrom [] text.toList).mapM readLine).map List.flatten

end Sys2Proof.Machine.Text
end

