-- ==== Sys2Proof/Tests/Slice0.lean ====
section
/-! SUPPORT. Tests of the model, each of one step on a small state. The expected values are those of
spec/95_test_vectors.md (the vector is named) or are counted by hand from the rule named. Then, for each statement with
hypotheses, a theorem named after it that shows a concrete case which meets them. -/

namespace Sys2Proof.Tests

open Sys2Proof.Machine Sys2Proof.Safety Sys2Proof.Laws

/-! ## WellFormed and CFG: an ill-formed term for each check -/

/-- R61: an assembler writes `smp` as 0 when `ready = 0`. -/
theorem test_wellFormed_refuses_sample : (Instr.lcPoll 0 false 5 0).wellFormed = false := by decide

theorem test_wellFormed_admits_sample : (Instr.lcPoll 0 true 5 0).wellFormed = true := by decide

/-- R5's ranges, each left once. -/
theorem test_cfgLegal_refuses :
    cfgLegal { benchCfg with nCh := 0 } = false ∧ cfgLegal { benchCfg with nCh := 3 } = false ∧
    cfgLegal { benchCfg with oversample := 0 } = false ∧
    cfgLegal { benchCfg with beta := 0x00000000 } = false ∧ cfgLegal { benchCfg with beta := 0x3F800001 } = false ∧
    cfgLegal { benchCfg with beta := 0xBF800000 } = false ∧ cfgLegal { benchCfg with beta := 0x7FC00000 } = false ∧
    cfgLegal { benchCfg with pcntRange := 0 } = false ∧ cfgLegal { benchCfg with pcntRange := 32768 } = false ∧
    cfgLegal { benchCfg with pcntScale := 0 } = false ∧ cfgLegal { benchCfg with pcntScale := 2147483648 } = false := by
  decide

theorem test_cfgLegal_admits :
    cfgLegal benchCfg = true ∧ cfgLegal { benchCfg with oversample := 0xFFFFFFFF, nCh := 2, beta := 0x00000001 } = true := by
  decide

/-! ## Decoding: the words of V-E1 (every constructor) and V-E2 -/

theorem test_decode_init : decode 0x10000000000712345678 = .event (.init true true true 0x12345678) := by decide

/-- `INIT a=1 b=0 z=0`: bit 33 is A, not B nor Z (R59). -/
theorem test_decode_init_a : decode 0x10000000000200000000 = .event (.init true false false 0) := by decide

theorem test_decode_phase : decode 0x200000000002000003E8 = .event (.phase true false 1000) := by decide

theorem test_decode_phase_b : decode 0x2000000000010000012C = .event (.phase false true 300) := by decide

theorem test_decode_index : decode 0x30000000000000000001 = .event (.index true) := by decide

theorem test_decode_getPos : decode 0x40000000000000000000 = .event .getPos := by decide

theorem test_decode_resetPos : decode 0x50000000000000000000 = .event .resetPos := by decide

theorem test_decode_setPos :
    decode 0x6000FFFFFFFFFFFFFFFB = .event (.setPos (-5)) ∧
    decode 0x60008000000000000000 = .event (.setPos 0x8000000000000000) := by decide

theorem test_decode_snapshot : decode 0x70000000000000000000 = .event .snapshot := by decide

theorem test_decode_getIndex : decode 0x80000000000000000000 = .event .getIndex := by decide

theorem test_decode_lcPoll : decode 0x910001FFFC1800002AF8 = .event (.lcPoll 1 true 0xFFFC18 11000) := by decide

/-- V-E3: the ignored field is read, and the word is legal. -/
theorem test_decode_lcPoll_ignored :
    decode 0x90000000ABCD00000064 = .event (.lcPoll 0 false 0x00ABCD 100) := by decide

theorem test_decode_tare : decode 0xA7000000000000000000 = .event (.tare 7) := by decide

theorem test_decode_calibrate : decode 0xB200000000003F800000 = .event (.calibrate 2 0x3F800000) := by decide

theorem test_decode_getForce : decode 0xC5000000000000000000 = .event (.getForce 5) := by decide

theorem test_decode_getRaw : decode 0xD1000000000000000000 = .event (.getRaw 1) := by decide

theorem test_decode_getScale : decode 0xE0000000000000000000 = .event (.getScale 0) := by decide

/-- V-E2, in the order of the four conditions of R65. -/
theorem test_decode_reserved :
    decode 0x00000000000000000000 = .reserved .opcode ∧ decode 0xFFFFFFFFFFFFFFFFFFFF = .reserved .opcode ∧
    decode 0x40010000000000000000 = .reserved .rsvField ∧ decode 0x41000000000000000000 = .reserved .channelField ∧
    decode 0x21000000000200000064 = .reserved .channelField ∧ decode 0x61000000000000000005 = .reserved .channelField := by
  decide

theorem test_decode_reserved_data :
    decode 0x20000000000400000000 = .reserved .dataBits ∧ decode 0x30000000000000000002 = .reserved .dataBits ∧
    decode 0x10000000000800000000 = .reserved .dataBits ∧ decode 0x40000000000000000001 = .reserved .dataBits ∧
    decode 0xA0000000000000000001 = .reserved .dataBits ∧ decode 0xB0000000000141200000 = .reserved .dataBits ∧
    decode 0x90000200000000000000 = .reserved .dataBits := by
  decide

/-- Encoding of P3's step 27 and P1's step 2. -/
theorem test_encode :
    encode (.lcPoll 1 true 0xFFFC18 11000) = 0x910001FFFC1800002AF8 ∧ encode (.phase true false 1000) = 0x200000000002000003E8 := by
  decide

/-- R43: the first byte holds `op` and `ch`. -/
theorem test_toBytes :
    toBytes 0x910001FFFC1800002AF8 = [0x91, 0x00, 0x01, 0xFF, 0xFC, 0x18, 0x00, 0x00, 0x2A, 0xF8] := by decide

theorem test_decodeTableWord :
    decodeTableWord 80 0xD1000000000000000000 = some (.getRaw 1) ∧ decodeTableWord 80 0x40000000000000000001 = none := by
  decide

/-! ## One step of each event -/

/-- The state an event leaves. -/
def after (i : Instr) (s : State) : State :=
  match exec i s with
  | .next t => t
  | .fault _ => s
  | .refused _ => s

/-- The bench state with a configuration. -/
def bench (c : Cfg) : State := State.resetWith c

/-- A bench state whose channel 0 is `k`. -/
def withCh0 (c : Cfg) (k : Channel) : State := { bench c with ch0 := k }

/-- V-S2: the lines are latched; `LAST_FLUSH_T` takes the time (R150). -/
theorem test_init :
    (after (.init true false true 7) { bench benchCfg with pos := 9, edgeValid := true }).prev = 2 ∧
    (after (.init true false true 7) { bench benchCfg with pos := 9, edgeValid := true }).prevZ = true ∧
    (after (.init true false true 7) { bench benchCfg with pos := 9, edgeValid := true }).pos = 0 ∧
    (after (.init true false true 7) { bench benchCfg with pos := 9, edgeValid := true }).ch0.lastFlushT = 7 := by decide

/-- V-S4: calibration is discarded. -/
theorem test_init_channel :
    (after (.init false false false 200000) (withCh0 benchCfg { Channel.reset with scale := 0x43FA0000, tared := true })).ch0 =
      { Channel.reset with lastFlushT := 200000 } := by decide

/-- V-Q5's state before its last event. -/
def edgeState : State :=
  { bench { benchCfg with glitchUs := 100 } with pos := 1, prev := 2, lastEdgeT := 1000, lastDir := 1, edgeValid := true }

/-- V-Q5: the comparison is strict; `PREV` follows a dropped edge. -/
theorem test_phase_glitch :
    after (.phase true true 1099) edgeState = { edgeState with prev := 3 } ∧
    after (.phase true true 1100) edgeState =
      { edgeState with prev := 3, pos := 2, lastEdgeT := 1100, lastInterval := 100 } := by decide

/-- V-P1, the eighth event: the low limit. -/
theorem test_phase_pcnt :
    let s := { bench { benchCfg with variant := .pcnt, pcntRange := 8 } with pcntReg := -7, prev := 2 }
    after (.phase false false 0) s = { s with prev := 0, pcntReg := 0, ovf := -1 } := by decide

/-- V-Z1. -/
theorem test_index :
    (after (.index true) (bench benchCfg)).idxFlag = true ∧
    (after (.index true) { bench benchCfg with prevZ := true }).idxFlag = false ∧
    (after (.index false) { bench benchCfg with prevZ := true, idxFlag := true }).idxFlag = true := by decide

/-- V-Q7 (i), the response; V-P3, the position of the bounded counter. -/
theorem test_getPos :
    (after .getPos { bench benchCfg with pos := 0x8000000000000000 }).out = ⟨true, 0x8000000000000000, 0, 0⟩ ∧
    (after .getPos { bench { benchCfg with variant := .pcnt, pcntRange := 8, pcntScale := 4 } with
      pcntReg := 1, ovf := 1 }).out = ⟨true, 36, 0, 0⟩ := by decide

/-- P4, step 22. -/
theorem test_resetPos :
    let s := { bench { benchCfg with variant := .pcnt, pcntRange := 8 } with pcntReg := 1, ovf := -2, prev := 1 }
    after .resetPos s = { s with pcntReg := 0, ovf := 0, out := ⟨true, 0, 0, 0⟩ } := by decide

/-- P4, steps 16 and 18: truncation toward zero. -/
theorem test_setPos :
    let s := { bench { benchCfg with variant := .pcnt, pcntRange := 8 } with pcntReg := 3 }
    (after (.setPos 21) s).ovf = 2 ∧ (after (.setPos (-21)) s).ovf = -2 ∧ (after (.setPos 21) s).pcntReg = 0 := by decide

/-- P5, step 5; V-Q11 before any accepted edge. -/
theorem test_snapshot :
    (after .snapshot { bench benchCfg with
      pos := 2, lastEdgeT := 84, lastInterval := 100, lastDir := 1, edgeValid := true }).out =
      ⟨true, 2, 0x0000006400000054, 0xD⟩ ∧
    (after .snapshot (bench benchCfg)).out = ⟨true, 0, 0, 8⟩ := by decide

/-- V-Z2. -/
theorem test_getIndex :
    let s := { bench benchCfg with idxFlag := true, prevZ := true }
    after .getIndex s = { s with idxFlag := false, out := ⟨true, 1, 0, 0⟩ } := by decide

/-- V-L10 (ii): a flush by timeout across the wrap of time; (i): one microsecond earlier nothing happens. -/
theorem test_lcPoll_timeout :
    let c := { benchCfg with oversample := 4, flushTimeoutUs := 1000 }
    let k := { Channel.reset with sum := 500, cnt := 1, lastFlushT := 0xFFFFFE00 }
    (after (.lcPoll 0 false 0 0x1E8) (withCh0 c k)).ch0 =
      { Channel.reset with lastRaw := 500, offset := 500, tared := true, lastFlushT := 488 } ∧
    (after (.lcPoll 0 false 0 0x1E7) (withCh0 c k)).ch0 = k := by decide +kernel

/-- V-L5, the second flush: each operation rounded to binary32 on its own. -/
theorem test_lcPoll_filter :
    (after (.lcPoll 0 true 0x001770 50) (withCh0 { benchCfg with beta := 0x3DCCCCCD }
      { Channel.reset with tared := true, offset := 1000, lastRaw := 6000, scale := 0x43FA0000, filt := 0x3F800000 })).ch0.filt =
      0x3FF33333 := by decide +kernel

/-- P3, step 21; V-L13: `TARED` is not written. -/
theorem test_tare :
    (after (.tare 0) (withCh0 benchCfg { Channel.reset with lastRaw := 6000, offset := 1000 })).ch0 =
      { Channel.reset with lastRaw := 6000, offset := 6000 } := by decide

/-- V-L8: a quotient that rounds; V-L7: an infinite weight is accepted. -/
theorem test_calibrate :
    let s := withCh0 benchCfg { Channel.reset with lastRaw := 6000, offset := 1000, scale := 0x40000000 }
    (after (.calibrate 0 0x40400000) s).ch0.scale = 0x44D05555 ∧
    (after (.calibrate 0 0x7F800000) s).ch0.scale = 0x00000000 := by decide +kernel

/-- V-L7: NaN, -0.0 and -inf are rejected. -/
theorem test_calibrate_rejects :
    let s := withCh0 benchCfg { Channel.reset with lastRaw := 6000, offset := 1000, scale := 0x40000000 }
    (after (.calibrate 0 0x7FC00000) s).ch0.scale = 0x40000000 ∧
    (after (.calibrate 0 0x80000000) s).ch0.scale = 0x40000000 ∧
    (after (.calibrate 0 0xFF800000) s).ch0.scale = 0x40000000 := by decide

/-- P3, step 24, and a channel that does not exist (P3, step 17). -/
theorem test_getForce :
    (after (.getForce 0) (withCh0 benchCfg { Channel.reset with filt := 0x40700000 })).out = ⟨true, 0x40700000, 0, 0⟩ ∧
    (after (.getForce 1) (withCh0 benchCfg { Channel.reset with filt := 0x40700000 })).out = ⟨true, 0, 0, 0⟩ := by decide

/-- P3, step 30: sign extension. -/
theorem test_getRaw :
    (after (.getRaw 0) (withCh0 benchCfg { Channel.reset with lastRaw := -1000 })).out =
      ⟨true, 0xFFFFFFFFFFFFFC18, 0, 0⟩ := by decide

/-- V-L6: a float's bits are zero-extended. -/
theorem test_getScale :
    (after (.getScale 0) (withCh0 benchCfg { Channel.reset with scale := 0xC3FA0000 })).out =
      ⟨true, 0x00000000C3FA0000, 0, 0⟩ := by decide

/-! ## Steps, cycles, serial bits, text -/

/-- withFetchWord presents a word to the very next step: `SET_POS v=21` (P4, step 16) with the decoder of the bench. -/
theorem test_step_runs :
    step (State.reset.withFetchWord 80 0x60000000000000000015) =
      .next { State.reset with pos := 21, out := ⟨true, 0, 0, 0⟩ } := by rfl

/-- A hardware reset between events (R180). -/
theorem test_step_reset : step { State.reset with pos := 5, prev := 2, input := [.reset] } = .next State.reset := by rfl

/-- R61, R73: the first of 24 bits received is bit 23; 25 pulses. -/
theorem test_acquire :
    acquire true (true :: List.replicate 24 false) = ⟨25, true, 0x800000⟩ ∧ acquire false [] = ⟨0, false, 0⟩ := by decide

/-- R62: lane `r0` is the low end of the response vector. -/
theorem test_response_bits : (Response.bits ⟨true, 1, 2, 3⟩).toNat = 1 + 2 * 2 ^ 64 + 3 * 2 ^ 128 := by decide

/-- V-E1 and S6 in R70's syntax. -/
theorem test_text :
    Text.parseLine "SET_POS v=-5" = some (.setPos (-5)) ∧
    Text.parseLine "CALIBRATE ch=0 wt=10.0" = some (.calibrate 0 0x41200000) ∧
    Text.parseLine "PHASE a=1 b=0 now=1000 # count" = some (.phase true false 1000) := by decide +kernel

theorem test_wordText : Text.wordText 0x910001FFFC1800002AF8 = "0x910001FFFC1800002AF8" := by decide +kernel

/-! ## The hypotheses of the statements can be met

Each theorem is named after the statement and shows a concrete case that meets all hypotheses together, one for each
clause. -/

/-- Two channels, the bounded counter. -/
def pcntCfg : Cfg := { benchCfg with variant := .pcnt, nCh := 2, pcntRange := 8, pcntScale := 4 }

/-- A channel with four samples per flush. -/
def fourCfg : Cfg := { benchCfg with oversample := 4, flushTimeoutUs := 1000 }

theorem witness_EncodeOfDecode : decode 0x90000000ABCD00000064 = .event (.lcPoll 0 false 0x00ABCD 100) := by decide

theorem witness_DecodeAgreesWithOpcodeTable :
    decode 0x30000000000000000001 = .event (.index true) ∧
    ∃ row ∈ opcodeTable, row.covers 0x91000000000000002EE0 = true := by decide

theorem witness_SampleBitsMostSignificantFirst : (true :: List.replicate 23 false).length = 24 := by decide

/-- A record one sample short of its flush, at the low end of its sum, and the two samples where the sign turns. -/
theorem witness_SampleValue :
    ChannelInv fourCfg { Channel.reset with cnt := 3, sum := -25165824 } ∧
    (0x7FFFFF : Sample).toNat < 0x800000 ∧ ¬(0x800000 : Sample).toNat < 0x800000 :=
  ⟨⟨by decide, by decide, by decide, by decide, by decide⟩, by decide, by decide⟩

theorem witness_StepRunsTheDecodedEvent :
    let s := State.reset.withFetchWord 80 0x80000000000000000000
    cfgLegal s.cfg = true ∧ s.input = .event 0x80000000000000000000 :: [] ∧
      decode 0x80000000000000000000 = .event .getIndex := by decide

theorem witness_StepIgnoresReservedWord :
    (let s := State.reset.withFetchWord 80 0x40000000000000000001
     cfgLegal s.cfg = true ∧ s.input = .event 0x40000000000000000001 :: [] ∧
      decode 0x40000000000000000001 = .reserved .dataBits) ∧
    (cfgLegal State.reset.cfg = true ∧ State.reset.input = []) := by decide

theorem witness_EveryStepGoesOn : cfgLegal (bench pcntCfg).cfg = true := by decide

theorem witness_ResetMeetsInvariant : cfgLegal pcntCfg = true ∧ cfgLegal benchCfg = true := by decide

/-- One record outside the ranges, and one inside. -/
theorem witness_StepRefusesExactlyIllegalConfig :
    step (bench { benchCfg with oversample := 0 }) = .refused .illegalConfig ∧ ∃ t, step (bench benchCfg) = .next t :=
  ⟨rfl, _, rfl⟩

theorem witness_ConfigurationNeverChanges :
    (∃ t, step State.reset = .next t) ∧ ∃ t, exec (.setPos 5) State.reset = .next t := ⟨⟨_, rfl⟩, _, rfl⟩

theorem witness_ResetTable :
    cfgLegal pcntCfg = true ∧ (State.resetWith pcntCfg).chan 1 = some Channel.reset ∧ cfgLegal benchCfg = true := by
  decide

theorem witness_HardwareResetEqualsInitZero :
    let s := { State.reset with pos := 4, input := [.reset, .event 5] }
    cfgLegal s.cfg = true ∧ s.input = .reset :: [.event 5] := by decide

/-- Both arms at their boundary: no delta; 99 of 100 microseconds; 100 of 100; no accepted edge before. -/
theorem witness_PhaseEdgeResult :
    edgeState.cfg.variant = .edge ∧ qtab edgeState.prev (phaseState false true) = 0 ∧
    qtab edgeState.prev (phaseState true true) = 1 ∧
    ((1099 : Int) - edgeState.lastEdgeT.toNat) % 2 ^ 32 = 99 ∧
    ((1100 : Int) - edgeState.lastEdgeT.toNat) % 2 ^ 32 = 100 ∧ edgeState.cfg.glitchUs.toNat = 100 ∧
    (bench benchCfg).edgeValid = false ∧ (bench benchCfg).cfg.variant = .edge := by decide

theorem witness_PositionWrapsAtTheEnds :
    (let s := { bench benchCfg with pos := 0x7FFFFFFFFFFFFFFF }
     s.cfg.variant = .edge ∧ s.edgeValid = false ∧ s.pos.toInt = 2 ^ 63 - 1 ∧ qtab s.prev (phaseState true false) = 1 ∧
       ∃ t, exec (.phase true false 10) s = .next t) ∧
    (let s := { bench benchCfg with pos := 0x8000000000000000 }
     s.cfg.variant = .edge ∧ s.edgeValid = false ∧ s.pos.toInt = -(2 ^ 63) ∧ qtab s.prev (phaseState false true) = -1 ∧
       ∃ t, exec (.phase false true 10) s = .next t) :=
  ⟨⟨rfl, rfl, by decide, by decide, _, rfl⟩, ⟨rfl, rfl, by decide, by decide, _, rfl⟩⟩

/-- S3's case: 1000 microseconds after the last edge, then 99 more. -/
theorem witness_GlitchDropsTheSecondEdge :
    let x : PhaseSample := ⟨true, true, 2000⟩
    let y : PhaseSample := ⟨false, true, 2099⟩
    edgeState.cfg.variant = .edge ∧ qtab edgeState.prev x.state ≠ 0 ∧ qtab x.state y.state ≠ 0 ∧
      edgeState.cfg.glitchUs ≤ subTs x.now edgeState.lastEdgeT ∧ subTs y.now x.now < edgeState.cfg.glitchUs ∧
      (∃ t, exec x.event edgeState = .next t ∧ ∃ u, exec y.event t = .next u) :=
  ⟨rfl, by decide, by decide, by decide, by decide, _, rfl, _, rfl⟩

/-- The filter off; and edges exactly 100 microseconds apart under a filter of 100, a sample without a change between
them. The same edges with the last one a microsecond earlier do not meet it. -/
theorem witness_PositionIsTheSumOfDeltas :
    ((bench benchCfg).cfg.variant = .edge ∧ (bench benchCfg).cfg.glitchUs = 0) ∧
    edgeState.cfg.variant = .edge ∧ edgeState.cfg.glitchUs = 100 ∧
    rejectsNone edgeState.cfg.glitchUs edgeState.prev edgeState.edgeValid edgeState.lastEdgeT
      [⟨true, true, 1100⟩, ⟨true, true, 1150⟩, ⟨false, true, 1200⟩] = true ∧
    rejectsNone edgeState.cfg.glitchUs edgeState.prev edgeState.edgeValid edgeState.lastEdgeT
      [⟨true, true, 1100⟩, ⟨true, true, 1150⟩, ⟨false, true, 1199⟩] = false := by decide

/-- V-Q10's sequence 10, 11, 01 and its reversal with the filter off; 11, 01 and back under a filter of 100. -/
theorem witness_ReversalRestoresPosition :
    (let xs : List PhaseSample := [⟨true, false, 1⟩, ⟨true, true, 2⟩, ⟨false, true, 3⟩]
     let ys : List PhaseSample := [⟨true, true, 4⟩, ⟨true, false, 5⟩, ⟨false, false, 6⟩]
     (bench benchCfg).cfg.variant = .edge ∧ (bench benchCfg).cfg.glitchUs = 0 ∧
       ys.map PhaseSample.state = (((bench benchCfg).prev :: xs.map PhaseSample.state).reverse).tail) ∧
    (let xs : List PhaseSample := [⟨true, true, 1100⟩, ⟨false, true, 1200⟩]
     let ys : List PhaseSample := [⟨true, true, 1300⟩, ⟨true, false, 1400⟩]
     edgeState.cfg.variant = .edge ∧
       rejectsNone edgeState.cfg.glitchUs edgeState.prev edgeState.edgeValid edgeState.lastEdgeT (xs ++ ys) = true ∧
       ys.map PhaseSample.state = ((edgeState.prev :: xs.map PhaseSample.state).reverse).tail) := by decide

/-- The counter one below and one above its limits, and between them. -/
theorem witness_PhasePcntResult :
    (let s := { bench pcntCfg with pcntReg := 7 }
     s.cfg.variant = .pcnt ∧ s.cfg.pcntRange ≤ 2 ^ 15 - 1 ∧ -(s.cfg.pcntRange : Int) < s.pcntReg.toInt ∧
       s.pcntReg.toInt < s.cfg.pcntRange ∧ s.pcntReg.toInt + qtab s.prev (phaseState true false) = s.cfg.pcntRange) ∧
    (let s := { bench pcntCfg with pcntReg := -7 }
     s.pcntReg.toInt < s.cfg.pcntRange ∧ -(s.cfg.pcntRange : Int) < s.pcntReg.toInt ∧
       s.pcntReg.toInt + qtab s.prev (phaseState false true) = -(s.cfg.pcntRange : Int) ∧
       s.pcntReg.toInt + qtab s.prev (phaseState true false) = -6 ∧ qtab s.prev (phaseState true true) = 0) := by decide

theorem witness_PcntPositionIsContinuous :
    let s := { bench pcntCfg with pcntReg := 7 }
    s.cfg.variant = .pcnt ∧ s.cfg.pcntRange ≤ 2 ^ 15 - 1 ∧ -(s.cfg.pcntRange : Int) < s.pcntReg.toInt ∧
      s.pcntReg.toInt < s.cfg.pcntRange ∧ ∃ t, exec (.phase true false 0) s = .next t :=
  ⟨rfl, by decide, by decide, by decide, _, rfl⟩

theorem witness_GetPosResult : (bench pcntCfg).cfg.variant = .pcnt ∧ (bench benchCfg).cfg.variant = .edge := by decide

theorem witness_ResetPosResult : (bench pcntCfg).cfg.variant = .pcnt ∧ (bench benchCfg).cfg.variant = .edge := by decide

/-- Both variants; a multiple of the range and a remainder. -/
theorem witness_SetPosResult :
    cfgLegal pcntCfg = true ∧ pcntCfg.variant = .pcnt ∧ cfgLegal benchCfg = true ∧ benchCfg.variant = .edge ∧
    ((pcntCfg.pcntRange * pcntCfg.pcntScale : Nat) : Int) ∣ (64 : I64).toInt ∧
    ¬((pcntCfg.pcntRange * pcntCfg.pcntScale : Nat) : Int) ∣ (100 : I64).toInt := by decide

/-- The reset record meets the invariant of a channel. -/
theorem witness_ChannelInv (c : Cfg) : ChannelInv c Channel.reset := by
  constructor <;> simp [Channel.reset]

/-- The reset state of the bench with the bounded counter meets the invariant. -/
theorem witness_Inv : Inv (bench pcntCfg) := by
  refine ⟨by decide, by decide, witness_ChannelInv _, witness_ChannelInv _, by decide, by decide, ?_, ?_, ?_⟩ <;>
    intro h <;> first | exact ⟨rfl, rfl, rfl, rfl, rfl⟩ | exact ⟨rfl, rfl⟩

/-- The reset state of the bench meets the invariant too. -/
theorem witness_Inv_edge : Inv (bench benchCfg) := by
  refine ⟨by decide, by decide, witness_ChannelInv _, witness_ChannelInv _, by decide, by decide, ?_, ?_, ?_⟩ <;>
    intro h <;> first | exact ⟨rfl, rfl⟩ | exact ⟨rfl, rfl, rfl, rfl, rfl⟩

theorem witness_SnapshotResult :
    (Inv (bench pcntCfg) ∧ (bench pcntCfg).cfg.variant = .pcnt) ∧
    (Inv (bench benchCfg) ∧ (bench benchCfg).cfg.variant = .edge ∧ (bench benchCfg).edgeValid = false) :=
  ⟨⟨witness_Inv, rfl⟩, witness_Inv_edge, rfl, rfl⟩

theorem witness_VariantsAreTransparent :
    let c := { pcntCfg with pcntScale := 1 }
    cfgLegal c = true ∧ c.pcntScale = 1 ∧ c.glitchUs = 0 ∧
      (∀ i ∈ ([.phase true false 5, .setPos 16, .getPos, .snapshot] : List Instr), transparentEvent c i) := by
  refine ⟨by decide, rfl, rfl, ?_⟩
  simp only [List.mem_cons, List.not_mem_nil, or_false, forall_eq_or_imp, forall_eq, transparentEvent, and_true, true_and]
  decide

theorem witness_RisingIsReportedOnce :
    let mid : List Instr := [.index true, .index false, .index true]
    let quiet : List Instr := [.getPos, .phase true false 3]
    (∀ i ∈ mid, i ≠ .getIndex ∧ isInit i = false) ∧ 0 < risings (bench benchCfg).prevZ mid ∧
      (∀ i ∈ quiet, i ≠ .getIndex ∧ isIndex i = false) := by decide

/-- The first index past the one channel, and the last one. -/
theorem witness_MissingChannelIsSilent :
    (bench benchCfg).cfg.nCh ≤ (1 : ChanIx).toNat ∧ (Instr.tare 1).channel = some 1 ∧
    (bench pcntCfg).cfg.nCh ≤ (15 : ChanIx).toNat ∧ (Instr.lcPoll 15 true 5 0).channel = some 15 := by decide

/-- Nothing counted and no sample; a third of four samples one microsecond before the timeout. -/
theorem witness_PollAccumulates :
    (bench fourCfg).chan 0 = some Channel.reset ∧ ChannelInv (bench fourCfg).cfg Channel.reset ∧
    Channel.reset.cnt.toNat + false.toNat = 0 ∧
    (let k := { Channel.reset with cnt := 2, sum := 16777214 }
     (withCh0 fourCfg k).chan 0 = some k ∧ ChannelInv fourCfg k ∧ k.cnt.toNat + true.toNat < fourCfg.oversample.toNat ∧
       ((999 : Int) - k.lastFlushT.toNat) % 2 ^ 32 < (fourCfg.flushTimeoutUs.toNat : Int)) :=
  ⟨rfl, witness_ChannelInv _, rfl, rfl, ⟨by decide, by decide, by decide, by decide, by decide⟩, by decide, by decide⟩

/-- The fourth of four samples; one sample at the timeout. -/
theorem witness_PollFlushes :
    (let k := { Channel.reset with cnt := 3, sum := -25165824 }
     (withCh0 fourCfg k).chan 0 = some k ∧ ChannelInv fourCfg k ∧ 1 ≤ k.cnt.toNat + true.toNat ∧
       fourCfg.oversample.toNat ≤ k.cnt.toNat + true.toNat) ∧
    (let k := { Channel.reset with cnt := 1, tared := true, scale := 0x43FA0000 }
     (withCh0 fourCfg k).chan 0 = some k ∧ ChannelInv fourCfg k ∧ 1 ≤ k.cnt.toNat + false.toNat ∧
       (fourCfg.flushTimeoutUs.toNat : Int) ≤ ((1000 : Int) - k.lastFlushT.toNat) % 2 ^ 32) :=
  ⟨⟨rfl, ⟨by decide, by decide, by decide, by decide, by decide⟩, by decide, by decide⟩,
   ⟨rfl, ⟨by decide, by decide, by decide, by decide, by decide⟩, by decide, by decide⟩⟩

theorem witness_TareResult :
    (bench pcntCfg).chan 1 = some Channel.reset ∧ (bench pcntCfg).cfg.nCh ≤ (2 : ChanIx).toNat := ⟨rfl, by decide⟩

/-- The least weight that is accepted, and the zeros and the NaN that are not. -/
theorem witness_CalibrateResult :
    (bench benchCfg).chan 0 = some Channel.reset ∧ ChannelInv (bench benchCfg).cfg Channel.reset ∧
    f32Gt0 0x00000001 = true ∧ f32Gt0 0x7F800000 = true ∧ f32Gt0 0x00000000 = false ∧ f32Gt0 0x80000000 = false ∧
    f32Gt0 0x7FC00000 = false := ⟨rfl, witness_ChannelInv _, by decide, by decide, by decide, by decide, by decide⟩

theorem witness_CalibrateSourceExample :
    let k := { Channel.reset with lastRaw := 6000, offset := 1000 }
    (withCh0 benchCfg k).chan 0 = some k ∧ k.lastRaw - k.offset = 5000 := by decide

theorem witness_AccessorResults :
    (bench pcntCfg).chan 0 = some Channel.reset ∧ (bench pcntCfg).cfg.nCh ≤ (2 : ChanIx).toNat := ⟨rfl, by decide⟩

theorem witness_ChannelsAreIsolated :
    (Instr.tare 0).channel = some 0 ∧ (0 : ChanIx) ≠ 1 ∧ (∃ t, exec (.tare 0) (bench pcntCfg) = .next t) ∧
    (let s := { bench pcntCfg with pos := 7, idxFlag := true }
     s.cfg = (bench pcntCfg).cfg ∧ s.chan 0 = (bench pcntCfg).chan 0 ∧ ∃ t, exec (.tare 0) s = .next t) :=
  ⟨rfl, by decide, ⟨_, rfl⟩, rfl, rfl, _, rfl⟩

theorem witness_NanForcePersists :
    let k := { Channel.reset with filt := 0x7FC00000 }
    (withCh0 benchCfg k).chan 0 = some k ∧ f32IsNan k.filt = true ∧ isInit (.lcPoll 0 true 5 9) = false ∧
      ∃ t, exec (.lcPoll 0 true 5 9) (withCh0 benchCfg k) = .next t := ⟨rfl, by decide, rfl, _, rfl⟩

/-- The greatest finite force. -/
theorem witness_NanForceOnlyFromInfinity :
    let k := { Channel.reset with filt := 0x7F7FFFFF }
    cfgLegal benchCfg = true ∧ (withCh0 benchCfg k).chan 0 = some k ∧ f32IsFinite k.filt = true ∧
      ∃ t, exec (.lcPoll 0 true 5 9) (withCh0 benchCfg k) = .next t ∧ ∃ k', t.chan 0 = some k' :=
  ⟨by decide, rfl, by decide, _, rfl, _, rfl⟩

/-- A negative scale (V-L6). -/
theorem witness_UncalibratedForceStaysZero :
    let k := { Channel.reset with scale := 0xC3FA0000 }
    cfgLegal benchCfg = true ∧ (withCh0 benchCfg k).chan 0 = some k ∧ f32Gt0 k.scale = false ∧ k.filt = 0 ∧
      ∃ t, exec (.lcPoll 0 true 5 9) (withCh0 benchCfg k) = .next t ∧ ∃ k', t.chan 0 = some k' :=
  ⟨by decide, rfl, by decide, rfl, _, rfl, _, rfl⟩

/-- Finite operands: a sum of value 0 and one past the largest finite value; a divisor that is no zero. And a tie: 2^24 + 1
units lie halfway between the patterns 2^24 and 2^24 + 1, of 2^24 and 2^24 + 2 units. -/
theorem witness_RoundsToNearestEven :
    (f32IsFinite 0x00000000 = true ∧ f32IsFinite 0x80000000 = true ∧ f32Value 0x00000000 + f32Value 0x80000000 = 0 ∧
      |f32Value 0x00000000 + f32Value 0x80000000| < f32Overflow) ∧
    (f32IsFinite 0x7F7FFFFF = true ∧ f32Overflow ≤ |f32Value 0x7F7FFFFF + f32Value 0x7F7FFFFF|) ∧
    (f32IsFinite 0x00000001 = true ∧ f32Value 0x00000001 ≠ 0) ∧
    (let n := 2 ^ 24 + 1
     let m := 2 ^ 24 + 1
     0 < 1 ∧ roundMag n 1 < infMag ∧ m < infMag ∧ m ≠ roundMag n 1 ∧
       |(n : Int) - magUnits (roundMag n 1) * (1 : Nat)| = |(n : Int) - magUnits m * (1 : Nat)|) := by
  have z : f32Units 0x00000000 = 0 ∧ f32Units 0x80000000 = 0 ∧ f32Units 0x00000001 = 1 ∧
      f32Units 0x7F7FFFFF = (2 ^ 24 - 1) * 2 ^ 253 := by decide +kernel
  refine ⟨⟨by decide, by decide, ?_, ?_⟩, ⟨by decide, ?_⟩, ⟨by decide, ?_⟩, by decide +kernel⟩ <;>
    simp only [f32Value, f32Overflow, z] <;> norm_num

/-- An operand of each class on either side. -/
theorem witness_SpecialOperands :
    f32IsNan 0x7FC00000 = true ∧ (f32IsInf 0x7F800000 = true ∧ f32Neg 0x7F800000 = false) ∧
    (f32IsInf 0xFF800000 = true ∧ f32Neg 0xFF800000 = true) ∧ (f32IsFinite 0x80000000 = true ∧ f32Mag 0x80000000 = 0) ∧
    (f32IsFinite 0x00000001 = true ∧ f32Mag 0x00000001 ≠ 0) := by decide

theorem witness_OverflowsToInfinity :
    0 < 1 ∧ roundMag ((2 ^ 25 - 1) * 2 ^ 252) 1 = infMag ∧ roundMag ((2 ^ 25 - 1) * 2 ^ 252 - 1) 1 = infMag - 1 := by
  decide +kernel

theorem witness_SmallIntegersConvertExactly :
    |(0x01000000 : I32).toInt| ≤ 2 ^ 24 ∧ |(0xFF000000 : I32).toInt| ≤ 2 ^ 24 := by decide

theorem witness_OnlyListedEventsWrite :
    (∃ t, exec .getPos (bench benchCfg) = .next t) ∧ Field.writers .pos .getPos = false ∧
    Field.writers (.offset 0) (.tare 1) = false := ⟨⟨_, rfl⟩, rfl, rfl⟩

theorem witness_AccessorsRepeat :
    (∃ t, exec .snapshot (bench benchCfg) = .next t ∧ ∃ u, exec .snapshot t = .next u) ∧
    (∃ t, exec .getIndex (bench benchCfg) = .next t ∧ ∃ u, exec .getIndex t = .next u) :=
  ⟨⟨_, rfl, _, rfl⟩, ⟨_, rfl, _, rfl⟩⟩

theorem witness_StepKeepsInvariant :
    Inv (bench pcntCfg) ∧ ∃ t, step (bench pcntCfg) = .next t := ⟨witness_Inv, _, rfl⟩

theorem witness_ReachableStatesMeetR36 :
    cfgLegal pcntCfg = true ∧ Reachable pcntCfg (State.resetWith pcntCfg) ∧
      (State.resetWith pcntCfg).chan 1 = some Channel.reset := ⟨by decide, .reset, rfl⟩

theorem witness_DisjointEventsCommute :
    commutes (.phase true false 5) (.index true) = true ∧ commutes (.tare 0) (.calibrate 1 0x3F800000) = true ∧
    commutes .getIndex (.setPos 3) = true ∧ commutes (.getForce 2) (.phase false false 0) = true := by decide

theorem witness_SameCycleOrder :
    cfgLegal (bench pcntCfg).cfg = true ∧ (bench pcntCfg).input = [] ∧ (bench pcntCfg).prevZ = false := by decide

theorem witness_PollServesEveryChannel :
    ((bench benchCfg).cfg.nCh = 1 ∨ (bench benchCfg).cfg.nCh = 2) ∧ (bench pcntCfg).cfg.nCh = 2 := by decide

theorem witness_RunAppliesTheTrace : cfgLegal (bench benchCfg).cfg = true ∧ (bench benchCfg).input = [] := by decide

end Sys2Proof.Tests
end

namespace Sys2Proof.Proofs

open Sys2Proof.Machine Sys2Proof.Safety

/-! ## Rounding a quotient of naturals (R9) -/

/-- The magnitude pattern that rounding gives before it is cut off at the infinity. -/
def roundPattern (n d : Nat) : Nat := excessBits n d * 2 ^ 23 + roundQuot n (d * 2 ^ excessBits n d)

theorem roundMag_eq_min (n d : Nat) : roundMag n d = min (roundPattern n d) infMag := rfl

theorem roundMag_eq_roundPattern {n d : Nat} (h : roundMag n d < infMag) : roundMag n d = roundPattern n d :=
  (roundMag_finite h).1

theorem magUnits_roundPattern (n d : Nat) :
    magUnits (roundPattern n d) = roundQuot n (d * 2 ^ excessBits n d) * 2 ^ excessBits n d :=
  magUnits_layout (roundQuot_significand n d).1 (roundQuot_significand n d).2

theorem roundPattern_parity (n d : Nat) : roundPattern n d % 2 = roundQuot n (d * 2 ^ excessBits n d) % 2 := by
  unfold roundPattern; omega

/-- The value of the pattern `p` is at least as near to `n / d` units as the value `v`, and `p` is even if another value
`v` is as near. -/
def NearestEven (n d p : Nat) (v : Int) : Prop :=
  |(n : Int) - magUnits p * d| ≤ |(n : Int) - v * d| ∧
    (|(n : Int) - magUnits p * d| = |(n : Int) - v * d| → v ≠ magUnits p → p % 2 = 0)

/-- Among the whole multiples of `D`, one within half of `D` is the nearest; another is as near only at exactly half. -/
theorem multiple_nearest {n D q : Int} (hD : 0 < D) (hq : 2 * |n - q * D| ≤ D) {j : Int} (hj : j ≠ q) :
    |n - q * D| ≤ |n - j * D| ∧ (|n - q * D| = |n - j * D| → 2 * |n - q * D| = D) := by
  have hgap : D ≤ |q * D - j * D| := by
    rw [← sub_mul, abs_mul, abs_of_pos hD]
    exact le_mul_of_one_le_left hD.le (Int.one_le_abs (sub_ne_zero.mpr hj.symm))
  have htri : |q * D - j * D| ≤ |n - q * D| + |n - j * D| := by
    rw [abs_sub_comm n (q * D)]; exact abs_sub_le _ _ _
  omega

/-- The nearest pattern among those whose values are multiples of the spacing that the excess bits leave. -/
theorem roundPattern_nearest_of_dvd {n d m : Nat} (hd : 0 < d) (hm : 2 ^ excessBits n d ∣ magUnits m) :
    NearestEven n d (roundPattern n d) (magUnits m) := by
  unfold NearestEven
  by_cases hne : magUnits m = magUnits (roundPattern n d)
  · simp [hne]
  obtain ⟨hnear, htie⟩ := roundQuot_spec n (d := d * 2 ^ excessBits n d) (by positivity)
  rw [roundPattern_parity]
  rw [magUnits_roundPattern] at hne ⊢
  obtain ⟨j, hj⟩ := hm
  rw [hj] at hne ⊢
  generalize roundQuot n (d * 2 ^ excessBits n d) = q at *
  generalize excessBits n d = k at *
  have hjq : (j : Int) ≠ q := by
    intro h
    exact hne (by rw [Nat.cast_inj.mp h, Nat.mul_comm])
  have hD : (0 : Int) < ((d * 2 ^ k : Nat) : Int) := by positivity
  obtain ⟨hle, heq⟩ := multiple_nearest hD hnear hjq
  rw [show ((q * 2 ^ k : Nat) : Int) * d = q * ((d * 2 ^ k : Nat) : Int) by push_cast; ring,
    show ((2 ^ k * j : Nat) : Int) * d = j * ((d * 2 ^ k : Nat) : Int) by push_cast; ring]
  exact ⟨hle, fun h _ => htie (heq h)⟩

/-- No pattern's value is nearer to `n / d` than the rounded one's, and where another is as near the rounded one is
even. Patterns below the binade of `n / d` are farther away than the binade's first pattern. -/
theorem roundPattern_nearest {n d : Nat} (hd : 0 < d) (m : Nat) :
    NearestEven n d (roundPattern n d) (magUnits m) := by
  by_cases hk : excessBits n d = 0 ∨ excessBits n d * 2 ^ 23 + 2 ^ 23 ≤ m
  · exact roundPattern_nearest_of_dvd hd (magUnits_dvd hk)
  obtain ⟨hk0, hmb⟩ := not_or.mp hk
  have hfirst : magUnits (excessBits n d * 2 ^ 23 + 2 ^ 23) = 2 ^ 23 * 2 ^ excessBits n d :=
    magUnits_layout (by omega) (.inr le_rfl)
  have hnear := (roundPattern_nearest_of_dvd hd (hfirst ▸ Dvd.intro_left _ rfl)).1
  have hbelow : magUnits m * d < magUnits (excessBits n d * 2 ^ 23 + 2 ^ 23) * d :=
    Nat.mul_lt_mul_of_pos_right (magUnits_strictMono (not_le.mp hmb)) hd
  have habove : magUnits (excessBits n d * 2 ^ 23 + 2 ^ 23) * d ≤ n := by
    rw [hfirst, ← pow_add]
    exact (Nat.le_div_iff_mul_le hd).mp ((excessBits_spec n d).2.resolve_left hk0)
  zify at hbelow habove
  rw [abs_of_nonneg (sub_nonneg.mpr habove)] at hnear
  rw [NearestEven, abs_of_nonneg (a := (n : Int) - magUnits m * d) (by linarith)]
  exact ⟨by linarith, fun h => by linarith⟩

/-- Of two values the greater one is the nearer from their midpoint on, the smaller one up to it. -/
theorem abs_sub_le_abs_sub_iff {n a b : Int} (h : b < a) :
    (|n - a| ≤ |n - b| ↔ a + b ≤ 2 * n) ∧ (|n - b| ≤ |n - a| ↔ 2 * n ≤ a + b) := by
  rcases abs_cases (n - a) with ha | ha <;> rcases abs_cases (n - b) with hb | hb <;> omega

/-- Twice the midpoint of the largest finite value, whose pattern is odd, and the value after it. -/
theorem magUnits_infMag_midpoint :
    magUnits infMag + magUnits (infMag - 1) = 2 * ((2 ^ 25 - 1) * 2 ^ 252) ∧ (infMag - 1) % 2 = 1 := by
  decide +kernel

theorem magUnits_mul_lt {a b d : Nat} (hd : 0 < d) (h : a < b) : (magUnits a : Int) * d < magUnits b * d := by
  exact_mod_cast Nat.mul_lt_mul_of_pos_right (magUnits_strictMono h) hd

theorem magUnits_mul_le {a b : Nat} (d : Nat) (h : a ≤ b) : (magUnits a : Int) * d ≤ magUnits b * d := by
  exact_mod_cast Nat.mul_le_mul_right d (magUnits_strictMono.monotone h)

/-- The infinity is reached at the midpoint: above it the pattern after the largest finite one is nearer, and at it the
tie goes to the even one. -/
theorem infMag_le_roundPattern_iff {n d : Nat} (hd : 0 < d) :
    infMag ≤ roundPattern n d ↔ (2 ^ 25 - 1) * 2 ^ 252 * d ≤ n := by
  obtain ⟨hmid, hodd⟩ := magUnits_infMag_midpoint
  generalize (2 ^ 25 - 1) * 2 ^ 252 = c at *
  have hmid' : (magUnits infMag : Int) * d + magUnits (infMag - 1) * d = 2 * (c * d : Nat) := by
    rw [← add_mul]; push_cast; rw [← mul_assoc]; exact_mod_cast congrArg (· * d) hmid
  constructor
  · intro h
    have hnear := (roundPattern_nearest (n := n) hd (infMag - 1)).1
    have hlast : infMag - 1 < roundPattern n d := lt_of_lt_of_le (by decide) h
    have hsum := (abs_sub_le_abs_sub_iff (magUnits_mul_lt hd hlast)).1.mp hnear
    have := magUnits_mul_le d h
    omega
  · intro h
    by_contra hfin
    have hlt := not_le.mp hfin
    obtain ⟨hnear, htie⟩ := roundPattern_nearest (n := n) hd infMag
    obtain ⟨hup, hdown⟩ := abs_sub_le_abs_sub_iff (n := n) (magUnits_mul_lt hd hlt)
    have hle := hdown.mp hnear
    rcases eq_or_lt_of_le (Nat.le_sub_one_of_lt hlt) with heq | hlast
    · have htied := le_antisymm hnear (hup.mpr (by rw [heq]; omega))
      have heven := htie htied (by exact_mod_cast (magUnits_strictMono hlt).ne')
      rw [heq] at heven
      omega
    · have := magUnits_mul_lt hd hlast
      omega

theorem roundMag_eq_infMag_iff {n d : Nat} (hd : 0 < d) :
    roundMag n d = infMag ↔ (2 ^ 25 - 1) * 2 ^ 252 * d ≤ n := by
  rw [roundMag_eq_min, min_eq_right_iff, infMag_le_roundPattern_iff hd]

/-- Settles O48: the threshold is the midpoint of the largest finite value and the value after it. -/
theorem overflowsToInfinity : Obligations.OverflowsToInfinity := fun _ _ hd => roundMag_eq_infMag_iff hd

/-! ## Conversion of small integers (R9, R36 d) -/

/-- Every number of at most 24 significant bits is the value of a pattern: shift the significand up until bit 23 is set,
or the exponent is used up. -/
theorem exists_magUnits_eq (e : Nat) : ∀ {a : Nat}, a ≤ 2 ^ 24 → ∃ m, magUnits m = a * 2 ^ e := by
  induction e with
  | zero => exact fun {a} h => ⟨0 * 2 ^ 23 + a, magUnits_layout h (.inl rfl)⟩
  | succ e ih =>
    intro a h
    by_cases hbit : 2 ^ 23 ≤ a
    · exact ⟨_, magUnits_layout h (.inr hbit)⟩
    · obtain ⟨m, hm⟩ := ih (a := 2 * a) (by omega)
      exact ⟨m, by rw [hm]; ring⟩

/-- A finite rounded quotient is at least as near as the value of any pattern, and even on a tie. -/
theorem roundMag_nearest {n d : Nat} (hd : 0 < d) (h : roundMag n d < infMag) (m : Nat) :
    NearestEven n d (roundMag n d) (magUnits m) := by
  rw [roundMag_eq_roundPattern h]
  exact roundPattern_nearest hd m

/-- What some pattern holds exactly is rounded to itself. -/
theorem magUnits_roundMag_of_exact {n m : Nat} (h : roundMag n 1 < infMag) (hm : magUnits m = n) :
    magUnits (roundMag n 1) = n := by
  have hnear := (roundMag_nearest one_pos h m).1
  simp only [hm, Nat.cast_one, mul_one, sub_self, abs_zero, abs_nonpos_iff] at hnear
  omega

/-- The sign of a pattern as a factor of its value. -/
def signFactor (neg : Bool) : Int := if neg then -1 else 1

theorem f32Units_eq (x : F32) : f32Units x = signFactor (f32Neg x) * magUnits (f32Mag x) := by
  unfold f32Units signFactor
  split <;> simp

theorem signFactor_mul_natAbs (n : Int) : signFactor (decide (n < 0)) * n.natAbs = n := by
  by_cases h : n < 0
  · simp only [signFactor, h, decide_true, if_true]; omega
  · simp only [signFactor, h, decide_false, Bool.false_eq_true, if_false]; omega

@[simp] theorem signFactor_mul_self (neg : Bool) : signFactor neg * signFactor neg = 1 := by cases neg <;> rfl

theorem cast_signFactor_mul_self (neg : Bool) : (signFactor neg : ℚ) * signFactor neg = 1 := by
  exact_mod_cast signFactor_mul_self neg

theorem cast_signFactor_mul_natAbs {neg : Bool} {n : Int} (h : signFactor neg * n.natAbs = n) :
    (signFactor neg : ℚ) * (n.natAbs : ℚ) = n := by
  rw [← Int.cast_natCast, ← Int.cast_mul, h]

theorem signFactor_bne (a b : Bool) : signFactor (a != b) = signFactor a * signFactor b := by
  cases a <;> cases b <;> rfl

@[simp] theorem abs_signFactor (neg : Bool) : |signFactor neg| = 1 := by cases neg <;> rfl

theorem abs_cast_signFactor (neg : Bool) : |(signFactor neg : ℚ)| = 1 := by exact_mod_cast abs_signFactor neg

/-! The parts of a packed magnitude that is no NaN. -/

section
variable (neg : Bool) {m : Nat} (hm : m ≤ infMag)
include hm

theorem lt_signBit_of_le_infMag : m < 2 ^ 31 := lt_of_le_of_lt hm (by decide)

theorem f32Neg_pack_of_le : f32Neg (f32Pack neg m) = neg := f32Neg_pack neg (lt_signBit_of_le_infMag hm)

theorem f32Mag_pack_of_le : f32Mag (f32Pack neg m) = m := f32Mag_pack neg (lt_signBit_of_le_infMag hm)

theorem f32Units_pack_of_le : f32Units (f32Pack neg m) = signFactor neg * magUnits m := by
  rw [f32Units_eq, f32Neg_pack_of_le neg hm, f32Mag_pack_of_le neg hm]

end

/-- Settles O49: the value lies on some pattern, and rounding keeps it. -/
theorem smallIntegersConvertExactly : Obligations.SmallIntegersConvertExactly := by
  intro n hn
  have hfin := i32ToF32_finite n
  refine ⟨hfin, ?_⟩
  unfold i32ToF32 at *
  simp only [f32IsFinite, f32Mag_pack_of_le _ (roundMag_le _ _), decide_eq_true_eq] at hfin
  obtain ⟨m, hm⟩ := exists_magUnits_eq 149 (a := n.toInt.natAbs) (by rw [Int.abs_eq_natAbs] at hn; omega)
  rw [f32Units_pack_of_le _ (roundMag_le _ _), magUnits_roundMag_of_exact hfin hm]
  push_cast
  rw [← Int.natCast_natAbs, ← mul_assoc, signFactor_mul_natAbs]

/-! ## One rounding over the rationals -/

/-- The distance of a value of `n / d` units, signed, from a finite pattern's value, in whole numbers. -/
theorem abs_sub_f32Value (neg : Bool) (n : Nat) {d : Nat} (hd : 0 < d) (z : F32) :
    |signFactor neg * ((n : ℚ) / d) / 2 ^ 149 - f32Value z| =
      ((|(n : Int) - signFactor neg * f32Units z * d| : Int) : ℚ) / (d * 2 ^ 149) := by
  have hd' : (0 : ℚ) < d := by exact_mod_cast hd
  have e : signFactor neg * ((n : ℚ) / d) / 2 ^ 149 - f32Value z =
      signFactor neg * ((n - signFactor neg * f32Units z * d) / (d * 2 ^ 149)) := by
    unfold f32Value
    field_simp
    linear_combination (f32Units z * d : ℚ) * cast_signFactor_mul_self neg
  rw [e, abs_mul, abs_cast_signFactor, one_mul, abs_div, abs_of_pos (a := (d : ℚ) * 2 ^ 149) (by positivity)]
  push_cast
  rfl

/-- The rounded magnitude is nearest among signed values too, and even on a tie: the opposite of its own value is as
near only where both are 0. -/
theorem roundMag_nearest_signed {n d : Nat} (hd : 0 < d) (h : roundMag n d < infMag) {v : Int} {m : Nat}
    (hv : |v| = magUnits m) : NearestEven n d (roundMag n d) v := by
  obtain ⟨hnear, htie⟩ := roundMag_nearest hd h m
  have hsigned : |(n : Int) - magUnits m * d| ≤ |(n : Int) - v * d| := by
    have := abs_abs_sub_abs_le (n : Int) (v * d)
    rwa [abs_mul, hv, Nat.abs_cast, Nat.abs_cast] at this
  refine ⟨hnear.trans hsigned, fun heq hne => ?_⟩
  by_cases hm : (magUnits m : Int) = magUnits (roundMag n d)
  · have hopp : v = -magUnits (roundMag n d) := by
      rw [hm] at hv; exact (eq_or_eq_neg_of_abs_eq hv).resolve_left hne
    have hpos : (0 : Int) < magUnits (roundMag n d) * d := by
      have : magUnits (roundMag n d) ≠ 0 := fun h0 => hne (by rw [hopp, h0]; rfl)
      positivity
    rw [hopp, neg_mul, abs_eq_abs] at heq
    have hn : n = 0 := by omega
    rw [hn, roundMag_zero]
  · exact htie (le_antisymm hnear (heq ▸ hsigned)) hm

theorem abs_f32Units (z : F32) : |f32Units z| = magUnits (f32Mag z) := by
  rw [f32Units_eq, abs_mul, abs_signFactor, one_mul, Nat.abs_cast]

theorem abs_signed_quotient (neg : Bool) (n d : Nat) :
    |signFactor neg * ((n : ℚ) / d) / 2 ^ 149| = (n : ℚ) / d / 2 ^ 149 := by
  rw [abs_div, abs_mul, abs_cast_signFactor, one_mul, abs_of_nonneg (by positivity : (0 : ℚ) ≤ n / d),
    abs_of_pos (by positivity)]

/-- `f32Overflow` is the threshold of `roundMag_eq_infMag_iff`. -/
theorem f32Overflow_le_iff (neg : Bool) {n d : Nat} (hd : 0 < d) :
    f32Overflow ≤ |signFactor neg * ((n : ℚ) / d) / 2 ^ 149| ↔ roundMag n d = infMag := by
  have hd' : (0 : ℚ) < d := by exact_mod_cast hd
  rw [abs_signed_quotient, roundMag_eq_infMag_iff hd, f32Overflow, le_div_iff₀ (by positivity), le_div_iff₀ hd',
    ← Nat.cast_le (α := ℚ)]
  push_cast
  rw [mul_assoc _ (2 ^ 103 : ℚ), ← pow_add]
  norm_num

theorem toNat_parity (x : F32) : x.toNat % 2 = f32Mag x % 2 := by unfold f32Mag; omega

/-- The nearest finite value, in the form of `RoundsTo`: distances are compared as whole numbers. -/
theorem pack_roundMag_nearest (neg : Bool) {n d : Nat} (hd : 0 < d) (hfin : roundMag n d < infMag) {q : ℚ}
    (hq : q = signFactor neg * ((n : ℚ) / d) / 2 ^ 149) (z : F32) :
    |q - f32Value (f32Pack neg (roundMag n d))| ≤ |q - f32Value z| ∧
      (|q - f32Value (f32Pack neg (roundMag n d))| = |q - f32Value z| →
        f32Value z ≠ f32Value (f32Pack neg (roundMag n d)) → (f32Pack neg (roundMag n d)).toNat % 2 = 0) := by
  have hunits := f32Units_pack_of_le neg hfin.le
  have hr : signFactor neg * f32Units (f32Pack neg (roundMag n d)) = magUnits (roundMag n d) := by
    rw [hunits, ← mul_assoc, signFactor_mul_self, one_mul]
  have hz : |signFactor neg * f32Units z| = magUnits (f32Mag z) := by
    rw [abs_mul, abs_signFactor, one_mul, abs_f32Units]
  obtain ⟨hnear, htie⟩ := roundMag_nearest_signed hd hfin hz
  have hd' : (0 : ℚ) < d * 2 ^ 149 := by positivity
  rw [hq, abs_sub_f32Value neg n hd, abs_sub_f32Value neg n hd, hr, div_le_div_iff_of_pos_right hd',
    div_left_inj' hd'.ne', Int.cast_le, Int.cast_inj, toNat_parity, f32Mag_pack_of_le neg hfin.le]
  refine ⟨hnear, fun heq hne => htie heq fun hsame => hne ?_⟩
  rw [f32Value, f32Value, hunits, ← hsame, ← mul_assoc, signFactor_mul_self, one_mul]

/-- The rounded magnitude of `n / d` units with a sign is the signed value rounded once. -/
theorem roundsTo_pack (neg : Bool) {n d : Nat} (hd : 0 < d) {q : ℚ}
    (hq : q = signFactor neg * ((n : ℚ) / d) / 2 ^ 149) : RoundsTo q (f32Pack neg (roundMag n d)) := by
  have hle := roundMag_le n d
  refine { nearest := fun h => ?nearest, overflow := fun h => ?overflow, negative := fun h => ?negative,
           positive := fun h => ?positive }
  case nearest =>
    have hfin : roundMag n d < infMag := lt_of_le_of_ne hle fun he => by
      rw [hq] at h; exact absurd h (not_lt.mpr ((f32Overflow_le_iff neg hd).mpr he))
    exact ⟨f32IsFinite_pack neg hfin, fun z _ => pack_roundMag_nearest neg hd hfin hq z⟩
  case overflow =>
    rw [hq, f32Overflow_le_iff neg hd] at h
    rw [h, f32IsInf, f32Mag_pack_of_le neg le_rfl, beq_self_eq_true]
  case negative =>
    cases neg
    · exact absurd h (not_lt.mpr (by simp [hq, signFactor]; positivity))
    · exact f32Neg_pack_of_le true hle
  case positive =>
    cases neg
    · exact f32Neg_pack_of_le false hle
    · exact absurd h (not_lt.mpr (by simp [hq, signFactor, neg_div]; positivity))

/-! ## The operations on finite operands -/

theorem f32IsFinite_iff_class {x : F32} :
    f32IsFinite x = true ↔ f32IsNan x = false ∧ f32IsInf x = false := by
  rcases f32_class x with ⟨h1, h2, h3⟩ | ⟨h1, h2, h3⟩ | ⟨h1, h2, h3⟩ <;> simp [h1, h2, h3]

theorem f32Value_eq (x : F32) : f32Value x = signFactor (f32Neg x) * magUnits (f32Mag x) / 2 ^ 149 := by
  rw [f32Value, f32Units_eq]; push_cast; rfl

@[simp] theorem f32IsNan_turn (x : F32) : f32IsNan (x ^^^ f32NZero) = f32IsNan x := by simp [f32IsNan, f32Mag_turn]

@[simp] theorem f32IsInf_turn (x : F32) : f32IsInf (x ^^^ f32NZero) = f32IsInf x := by simp [f32IsInf, f32Mag_turn]

@[simp] theorem f32IsFinite_turn (x : F32) : f32IsFinite (x ^^^ f32NZero) = f32IsFinite x := by
  simp [f32IsFinite, f32Mag_turn]

theorem f32Value_turn (x : F32) : f32Value (x ^^^ f32NZero) = -f32Value x := by
  rw [f32Value, f32Units_turn, f32Value]; push_cast; ring

/-- The sign of a sum of finite patterns whose exact value is `n` units (log 16 for `n = 0`). -/
def sumSign (x y : F32) (n : Int) : Bool := if n = 0 then f32Neg x && f32Neg y else decide (n < 0)

theorem sumSign_mul_natAbs (x y : F32) (n : Int) : signFactor (sumSign x y n) * n.natAbs = n := by
  unfold sumSign
  split
  · simp [*]
  · exact signFactor_mul_natAbs n

section
variable {x y : F32} (w : F32) (hx : f32IsFinite x = true) (hy : f32IsFinite y = true)
include hx hy

theorem f32Add_finite :
    f32Add x y w =
      f32Pack (sumSign x y (f32Units x + f32Units y)) (roundMag (f32Units x + f32Units y).natAbs 1) := by
  obtain ⟨hxn, hxi⟩ := f32IsFinite_iff_class.mp hx
  obtain ⟨hyn, hyi⟩ := f32IsFinite_iff_class.mp hy
  simp only [f32Add, hxn, hxi, hyn, hyi, sumSign, Bool.or_self, Bool.false_eq_true, if_false]
  split
  · next h0 =>
    rw [h0, Int.natAbs_zero, roundMag_zero]
    cases f32Neg x && f32Neg y <;> rfl
  · rfl

theorem f32Mul_finite :
    f32Mul x y w = f32Pack (f32Neg x != f32Neg y)
      (roundMag (magUnits (f32Mag x) * magUnits (f32Mag y)) (2 ^ 149)) := by
  obtain ⟨hxn, hxi⟩ := f32IsFinite_iff_class.mp hx
  obtain ⟨hyn, hyi⟩ := f32IsFinite_iff_class.mp hy
  simp [f32Mul, hxn, hxi, hyn, hyi]

theorem f32Div_finite (h0 : f32Mag y ≠ 0) :
    f32Div x y w = f32Pack (f32Neg x != f32Neg y)
      (roundMag (magUnits (f32Mag x) * 2 ^ 149) (magUnits (f32Mag y))) := by
  obtain ⟨hxn, hxi⟩ := f32IsFinite_iff_class.mp hx
  obtain ⟨hyn, hyi⟩ := f32IsFinite_iff_class.mp hy
  simp [f32Div, hxn, hxi, hyn, hyi, h0]

theorem f32Add_roundsTo : RoundsTo (f32Value x + f32Value y) (f32Add x y w) := by
  rw [f32Add_finite w hx hy]
  refine roundsTo_pack _ one_pos ?_
  rw [Nat.cast_one, div_one, cast_signFactor_mul_natAbs (sumSign_mul_natAbs x y _), f32Value, f32Value, Int.cast_add,
    add_div]

/-- An exact sum of value 0 is negative only if both terms are (log 16). -/
theorem f32Neg_add_of_sum_zero (h : f32Value x + f32Value y = 0) : f32Neg (f32Add x y w) = (f32Neg x && f32Neg y) := by
  have h0 : f32Units x + f32Units y = 0 := by
    rw [f32Value, f32Value, ← add_div, div_eq_zero_iff] at h
    exact_mod_cast h.resolve_right (by norm_num)
  rw [f32Add_finite w hx hy, f32Neg_pack_of_le _ (roundMag_le _ _), sumSign, if_pos h0]

theorem f32Mul_roundsTo : RoundsTo (f32Value x * f32Value y) (f32Mul x y w) := by
  rw [f32Mul_finite w hx hy]
  refine roundsTo_pack _ (by positivity) ?_
  rw [f32Value_eq, f32Value_eq, signFactor_bne]
  push_cast
  ring

theorem f32Neg_mul_finite : f32Neg (f32Mul x y w) = (f32Neg x != f32Neg y) := by
  rw [f32Mul_finite w hx hy, f32Neg_pack_of_le _ (roundMag_le _ _)]

end

theorem magUnits_pos_iff {m : Nat} : 0 < magUnits m ↔ 0 < m := magUnits_strictMono.lt_iff_lt (a := 0)

theorem f32Value_ne_zero {x : F32} (h : f32Value x ≠ 0) : f32Mag x ≠ 0 := by
  intro h0
  rw [f32Value_eq, h0] at h
  exact h (by norm_num [magUnits])

section
variable {x y : F32} (w : F32) (hx : f32IsFinite x = true) (hy : f32IsFinite y = true) (h0 : f32Value y ≠ 0)
include hx hy h0

theorem f32Div_roundsTo : RoundsTo (f32Value x / f32Value y) (f32Div x y w) := by
  have hpos : 0 < magUnits (f32Mag y) := magUnits_pos_iff.mpr (Nat.pos_of_ne_zero (f32Value_ne_zero h0))
  rw [f32Div_finite w hx hy (f32Value_ne_zero h0)]
  refine roundsTo_pack _ hpos ?_
  have hq : (magUnits (f32Mag y) : ℚ) ≠ 0 := by exact_mod_cast hpos.ne'
  rw [f32Value_eq, f32Value_eq, signFactor_bne]
  have hs : (signFactor (f32Neg y) : ℚ) ≠ 0 := left_ne_zero_of_mul_eq_one (cast_signFactor_mul_self _)
  push_cast
  field_simp
  linear_combination (-signFactor (f32Neg x) * magUnits (f32Mag x) * 2 ^ 149 : ℚ) * cast_signFactor_mul_self (f32Neg y)

theorem f32Neg_div_finite : f32Neg (f32Div x y w) = (f32Neg x != f32Neg y) := by
  rw [f32Div_finite w hx hy (f32Value_ne_zero h0), f32Neg_pack_of_le _ (roundMag_le _ _)]

end

theorem i32ToF32_roundsTo (n : I32) : RoundsTo (n.toInt : ℚ) (i32ToF32 n) := by
  refine roundsTo_pack _ one_pos ?_
  rw [Nat.cast_mul, Nat.cast_one, div_one, ← mul_assoc, cast_signFactor_mul_natAbs (signFactor_mul_natAbs _)]
  norm_num

theorem i32ToF32_zero : i32ToF32 0 = 0 := by
  simp [i32ToF32, roundMag_zero, f32Pack]

/-- Settles O47: each operation packs one rounded quotient of naturals; a difference is the sum with the sign turned. -/
theorem roundsToNearestEven : Obligations.RoundsToNearestEven := by
  refine ⟨fun x y w hx hy => ?operations, fun n => ⟨i32ToF32_roundsTo n, fun h => by rw [h, i32ToF32_zero]⟩,
    fun n d m hd h _ => ?quotient⟩
  case operations =>
    have hy' : f32IsFinite (y ^^^ f32NZero) = true := by rwa [f32IsFinite_turn]
    have hsub : f32Value x - f32Value y = f32Value x + f32Value (y ^^^ f32NZero) := by
      rw [f32Value_turn, sub_eq_add_neg]
    refine ⟨f32Add_roundsTo w hx hy, f32Neg_add_of_sum_zero w hx hy, ?_, fun h => ?_,
      f32Mul_roundsTo w hx hy, f32Neg_mul_finite w hx hy,
      fun h0 => ⟨f32Div_roundsTo w hx hy h0, f32Neg_div_finite w hx hy h0⟩⟩
    · rw [hsub]; exact f32Add_roundsTo w hx hy'
    · rw [hsub] at h
      rw [f32Sub, f32Neg_add_of_sum_zero w hx hy' h, f32Neg_turn]
  case quotient =>
    obtain ⟨hnear, htie⟩ := roundMag_nearest hd h m
    exact ⟨hnear, fun heq hne => htie heq (by exact_mod_cast magUnits_strictMono.injective.ne hne)⟩

/-! ## The order with 0 (R9) and the legal coefficient (R5) -/

theorem f32Units_pos_iff {x : F32} : 0 < f32Units x ↔ f32Neg x = false ∧ 0 < f32Mag x := by
  rw [f32Units_eq, ← magUnits_pos_iff]
  cases f32Neg x <;> simp [signFactor]

theorem f32Gt0_iff {x : F32} : f32Gt0 x = true ↔ f32IsNan x = false ∧ f32Neg x = false ∧ 0 < f32Mag x := by
  simp [f32Gt0, and_assoc]

/-- Settles O50, by the class of the pattern: no NaN passes the test, and an infinity's magnitude is not 0. -/
theorem greaterThanZero : Obligations.GreaterThanZero := by
  intro x
  rw [f32Gt0_iff, f32Units_pos_iff]
  rcases f32_class x with ⟨hnan, hinf, hfin⟩ | ⟨hnan, hinf, hfin⟩ | ⟨hnan, hinf, hfin⟩
  · simp [hnan, hinf, hfin]
  · have hmag : 0 < f32Mag x := by rw [eq_of_beq hinf]; decide
    simp [hnan, hinf, hfin, hmag]
  · simp [hnan, hinf, hfin]

theorem f32Value_pos_iff {x : F32} : 0 < f32Value x ↔ f32Neg x = false ∧ 0 < f32Mag x := by
  rw [f32Value, div_pos_iff_of_pos_right (by positivity), Int.cast_pos, f32Units_pos_iff]

theorem f32Value_le_one_iff {x : F32} (hneg : f32Neg x = false) : f32Value x ≤ 1 ↔ f32Mag x ≤ f32Mag f32One := by
  have hone : magUnits (f32Mag f32One) = 2 ^ 149 := by decide +kernel
  rw [f32Value, f32Units_eq, hneg, div_le_one (by positivity), ← magUnits_strictMono.le_iff_le, hone]
  simp only [signFactor, Bool.false_eq_true, if_false, one_mul]
  exact_mod_cast Iff.rfl

theorem betaLegal_iff (b : F32) : betaLegal b = true ↔ f32Neg b = false ∧ 0 < f32Mag b ∧ f32Mag b ≤ f32Mag f32One := by
  refine ⟨fun h => ?_, fun ⟨hneg, hpos, hle⟩ => ?_⟩
  · obtain ⟨hneg, -, hpos, hle⟩ := betaLegal_facts h
    exact ⟨hneg, hpos, hle⟩
  · have hmag : f32Mag b = b.toNat := by
      simp only [f32Neg, BitVec.msb_eq_decide, decide_eq_false_iff_not] at hneg
      unfold f32Mag
      omega
    rw [hmag] at hpos hle
    simp only [betaLegal, Bool.and_eq_true, decide_eq_true_eq, BitVec.lt_def, BitVec.le_def]
    exact ⟨hpos, hle⟩

/-- On patterns, `0 < BETA <= 1` is the order of the values. -/
theorem betaLegal_iff_value (b : F32) :
    betaLegal b = true ↔ f32IsFinite b = true ∧ 0 < f32Value b ∧ f32Value b ≤ 1 := by
  rw [betaLegal_iff, f32Value_pos_iff]
  refine ⟨fun ⟨hneg, hpos, hle⟩ => ⟨?_, ⟨hneg, hpos⟩, (f32Value_le_one_iff hneg).mpr hle⟩,
    fun ⟨_, ⟨hneg, hpos⟩, hle⟩ => ⟨hneg, hpos, (f32Value_le_one_iff hneg).mp hle⟩⟩
  exact decide_eq_true (lt_of_le_of_lt hle (by decide))

/-! ## The step (R4, R45, R56) and its refusal (93 U5) -/

/-- Settles O9: the stimulus at the head of the input is an event word, and a legal one runs. -/
theorem stepRunsTheDecodedEvent : Obligations.StepRunsTheDecodedEvent := by
  intro s w i rest hlegal hinput hdecode
  simp only [step, hlegal, if_true, State.fetch_cons hinput, hdecode]

/-- With a legal CFG every step goes on: whatever the stimulus is, no branch refuses. -/
theorem step_not_refused {s : State} (h : cfgLegal s.cfg = true) (r : Refusal) : step s ≠ .refused r := by
  rw [step, if_pos h]
  cases hinput : s.input with
  | nil => simp [State.fetch_nil hinput]
  | cons x rest =>
    rw [State.fetch_cons hinput]
    cases x with
    | reset => simp
    | event w => cases hdecode : decode w <;> simp [hdecode, Laws.exec_eq]

theorem step_refused_iff (s : State) (r : Refusal) :
    step s = .refused r ↔ r = .illegalConfig ∧ ¬ cfgLegal s.cfg = true := by
  by_cases h : cfgLegal s.cfg = true
  · simp [step_not_refused h, h]
  · simp [step, h, eq_comm]

/-- The ranges of R5 as numbers. -/
theorem cfgLegal_iff (c : Cfg) : cfgLegal c = true ↔
    (c.nCh = 1 ∨ c.nCh = 2) ∧ (1 ≤ c.oversample.toNat ∧ c.oversample.toNat ≤ 2 ^ 32 - 1) ∧
      (f32IsFinite c.beta = true ∧ 0 < f32Value c.beta ∧ f32Value c.beta ≤ 1) ∧
      (1 ≤ c.pcntRange ∧ c.pcntRange ≤ 2 ^ 15 - 1) ∧ (1 ≤ c.pcntScale ∧ c.pcntScale ≤ 2 ^ 31 - 1) := by
  have hoversample : (1#32 ≤ c.oversample) ↔ 1 ≤ c.oversample.toNat ∧ c.oversample.toNat ≤ 2 ^ 32 - 1 := by
    have := c.oversample.isLt
    rw [BitVec.le_def]
    simp only [BitVec.toNat_ofNat]
    omega
  simp only [cfgLegal, Bool.and_eq_true, Bool.or_eq_true, beq_iff_eq, decide_eq_true_eq, hoversample,
    betaLegal_iff_value, and_assoc]

/-- Settles O12: only the test of CFG refuses. -/
theorem stepRefusesExactlyIllegalConfig : Obligations.StepRefusesExactlyIllegalConfig := by
  intro s r
  rw [step_refused_iff, cfgLegal_iff]

/-! ## NaNs, infinities and zeros as operands (R9, log 16) -/

theorem f32IsInf_iff_class {x : F32} : f32IsInf x = true ↔ f32IsNan x = false ∧ f32Mag x = infMag := by
  simp only [f32IsInf, f32IsNan, beq_iff_eq, decide_eq_false_iff_not]
  omega

theorem f32IsInf_pack (neg : Bool) : f32IsInf (f32Pack neg infMag) = true := by
  rw [f32IsInf_iff_class]
  exact ⟨f32IsNan_pack neg le_rfl, f32Mag_pack_of_le neg le_rfl⟩

theorem f32Mag_ne_zero_of_inf {x : F32} (h : f32IsInf x = true) : f32Mag x ≠ 0 := by
  rw [(f32IsInf_iff_class.mp h).2]; decide

theorem f32IsFinite_of_mag_zero {x : F32} (h : f32Mag x = 0) : f32IsFinite x = true := by
  rw [f32IsFinite, h]; decide

section
variable {x y : F32} (w : F32)

/-! Sums. -/

theorem f32Add_inf_left (hx : f32IsInf x = true) (hy : f32IsNan y = false)
    (hsign : f32IsInf y = true → f32Neg x = f32Neg y) : f32Add x y w = x := by
  have hxn := (f32IsInf_iff_class.mp hx).1
  cases hyi : f32IsInf y
  · simp [f32Add, hx, hxn, hy, hyi]
  · simp [f32Add, hx, hxn, hy, hyi, hsign hyi]

theorem f32Add_inf_right (hx : f32IsFinite x = true) (hy : f32IsInf y = true) : f32Add x y w = y := by
  obtain ⟨hxn, hxi⟩ := f32IsFinite_iff_class.mp hx
  simp [f32Add, hxn, hxi, hy, (f32IsInf_iff_class.mp hy).1]

theorem f32Add_inf_unlike (hx : f32IsInf x = true) (hy : f32IsInf y = true) (hsign : f32Neg x ≠ f32Neg y) :
    f32IsNan (f32Add x y w) = true := by
  have h : f32Add x y w = f32Nan w := by
    simp [f32Add, hx, hy, hsign, (f32IsInf_iff_class.mp hx).1, (f32IsInf_iff_class.mp hy).1]
  rw [h, f32IsNan_nan]

/-! Products. -/

/-- A factor is infinite and neither is a NaN: a zero makes it a NaN, any other number an infinity. -/
theorem f32Mul_inf (h : (f32IsInf x = true ∧ f32IsNan y = false) ∨ (f32IsFinite x = true ∧ f32IsInf y = true)) :
    f32Mul x y w =
      if f32Mag x = 0 ∨ f32Mag y = 0 then f32Nan w else f32Pack (f32Neg x != f32Neg y) infMag := by
  obtain ⟨hx, hyn⟩ | ⟨hx, hy⟩ := h
  · simp [f32Mul, hx, hyn, (f32IsInf_iff_class.mp hx).1, f32Mag_ne_zero_of_inf hx]
  · obtain ⟨hxn, hxi⟩ := f32IsFinite_iff_class.mp hx
    simp [f32Mul, hxn, hxi, hy, (f32IsInf_iff_class.mp hy).1, f32Mag_ne_zero_of_inf hy]

/-! Quotients. -/

theorem f32Div_inf_finite (hx : f32IsInf x = true) (hy : f32IsFinite y = true) :
    f32Div x y w = f32Pack (f32Neg x != f32Neg y) infMag := by
  obtain ⟨hyn, hyi⟩ := f32IsFinite_iff_class.mp hy
  simp [f32Div, hx, hyn, hyi, (f32IsInf_iff_class.mp hx).1]

theorem f32Div_finite_inf (hx : f32IsFinite x = true) (hy : f32IsInf y = true) :
    f32Div x y w = f32Pack (f32Neg x != f32Neg y) 0 := by
  obtain ⟨hxn, hxi⟩ := f32IsFinite_iff_class.mp hx
  simp [f32Div, hxn, hxi, hy, (f32IsInf_iff_class.mp hy).1]

theorem f32Div_inf_inf (hx : f32IsInf x = true) (hy : f32IsInf y = true) : f32Div x y w = f32Nan w := by
  simp [f32Div, hx, hy, (f32IsInf_iff_class.mp hx).1]

theorem f32Div_zero (hx : f32IsFinite x = true) (hy : f32Mag y = 0) :
    f32Div x y w = if f32Mag x = 0 then f32Nan w else f32Pack (f32Neg x != f32Neg y) infMag := by
  obtain ⟨hxn, hxi⟩ := f32IsFinite_iff_class.mp hx
  obtain ⟨hyn, hyi⟩ := f32IsFinite_iff_class.mp (f32IsFinite_of_mag_zero hy)
  simp [f32Div, hxn, hxi, hyn, hyi, hy]

theorem f32Div_nan (h : f32IsNan x = true ∨ f32IsNan y = true) : f32Div x y w = f32Nan w := by
  simp [f32Div, h]

theorem f32Mul_nan (h : f32IsNan x = true ∨ f32IsNan y = true) : f32Mul x y w = f32Nan w :=
  h.elim (f32Mul_nan_left · y w) (f32Mul_nan_right · x w)

theorem f32Add_nan (h : f32IsNan x = true ∨ f32IsNan y = true) : f32Add x y w = f32Nan w :=
  h.elim (f32Add_nan_left · y w) (f32Add_nan_right · x w)

end

/-- Settles O60, by the classes of the operands; a difference is the sum with the sign turned. -/
theorem specialOperands : Obligations.SpecialOperands := by
  intro x y w
  have inf_pack : ∀ neg, f32IsInf (f32Pack neg infMag) = true ∧ f32Neg (f32Pack neg infMag) = neg :=
    fun neg => ⟨f32IsInf_pack neg, f32Neg_pack_of_le neg le_rfl⟩
  refine ⟨fun h => ?nan, fun hx hy => ?infFinite, fun hx hy => ?finiteInf, fun hx hy => ?infInf, fun hx hy => ?byZero⟩
  case nan =>
    have hturn : f32IsNan x = true ∨ f32IsNan (y ^^^ f32NZero) = true := by rwa [f32IsNan_turn]
    rw [f32Sub, f32Add_nan w h, f32Add_nan w hturn, f32Mul_nan w h, f32Div_nan w h]
    simp [f32IsNan_nan]
  case infFinite =>
    obtain ⟨hyn, hyi⟩ := f32IsFinite_iff_class.mp hy
    rw [f32Div_inf_finite w hx hy, f32Mul_inf w (.inl ⟨hx, hyn⟩)]
    refine ⟨f32Add_inf_left w hx hyn (by simp [hyi]), f32Add_inf_left w hx (by simpa) (by simp [hyi]),
      fun h0 => ?_, fun h0 => ?_, inf_pack _⟩
    · rw [if_pos (.inr h0), f32IsNan_nan]
    · rw [if_neg (by simp [h0, f32Mag_ne_zero_of_inf hx])]; exact inf_pack _
  case finiteInf =>
    rw [f32Div_finite_inf w hx hy, f32Mul_inf w (.inr ⟨hx, hy⟩), f32Sub, f32Add_inf_right w hx hy,
      f32Add_inf_right w hx (by rwa [f32IsInf_turn])]
    refine ⟨rfl, ⟨by rwa [f32IsInf_turn], f32Neg_turn y⟩, fun h0 => ?_, fun h0 => ?_,
      f32Mag_pack_of_le _ (by decide), f32Neg_pack_of_le _ (by decide)⟩
    · rw [if_pos (.inl h0), f32IsNan_nan]
    · rw [if_neg (by simp [h0, f32Mag_ne_zero_of_inf hy])]; exact inf_pack _
  case infInf =>
    have hyn := (f32IsInf_iff_class.mp hy).1
    have hturn : f32IsInf (y ^^^ f32NZero) = true := by rwa [f32IsInf_turn]
    rw [f32Div_inf_inf w hx hy, f32Mul_inf w (.inl ⟨hx, hyn⟩),
      if_neg (by simp [f32Mag_ne_zero_of_inf hx, f32Mag_ne_zero_of_inf hy])]
    refine ⟨fun hs => ⟨f32Add_inf_left w hx hyn fun _ => hs, f32Add_inf_unlike w hx hturn ?_⟩,
      fun hs => ⟨f32Add_inf_unlike w hx hy hs, f32Add_inf_left w hx (by simpa) fun _ => ?_⟩, inf_pack _, f32IsNan_nan w⟩
    · simp [f32Neg_turn, hs]
    · rw [f32Neg_turn]; exact Bool.eq_not.mpr hs
  case byZero =>
    rw [f32Div_zero w hx hy]
    refine ⟨fun h0 => ?_, fun h0 => ?_⟩
    · rw [if_pos h0, f32IsNan_nan]
    · rw [if_neg h0]; exact inf_pack _

end Sys2Proof.Proofs

namespace Sys2Proof.Proofs

open Sys2Proof.Machine Sys2Proof.Safety Sys2Proof.Laws

/-! ## The invariant under the writes of a record (R36 b, c, d)

Where the fields an invariant speaks of are kept, its proof is the old one with the changed fields replaced. -/

/-- A record with nothing accumulated, no reading and no offset meets the invariant under every CFG. -/
theorem channelInv_of_cleared (c : Cfg) {k : Channel} (hsum : k.sum = 0) (hcnt : k.cnt = 0) (hraw : k.lastRaw = 0)
    (hoffset : k.offset = 0) : ChannelInv c k := by
  constructor <;> simp [hsum, hcnt, hraw, hoffset]

theorem channelInv_initAt (c : Cfg) (k : Channel) (now : U32) : ChannelInv c (k.initAt now) :=
  channelInv_of_cleared c rfl rfl rfl rfl

theorem channelInv_tared {c : Cfg} {k : Channel} (h : ChannelInv c k) : ChannelInv c { k with offset := k.lastRaw } :=
  { h with offset_range := h.raw_range }

theorem channelInv_scaled {c : Cfg} {k : Channel} (h : ChannelInv c k) (x : F32) :
    ChannelInv c { k with scale := x } :=
  { h with }

/-- `INIT` addresses no channel. -/
theorem isInit_of_channel {i : Instr} {ch : ChanIx} (h : i.channel = some ch) : isInit i = false := by
  cases i with
  | init => cases h
  | _ => rfl

/-- Whatever record an event other than `INIT` makes of one that meets the invariant meets it too. -/
theorem effect_keeps_channelInv {i : Instr} {s : State} {ch : ChanIx} {k k' : Channel} (hi : isInit i = false)
    (hk : s.chan ch = some k) (hk' : (effect i s).chan ch = some k') (h : ChannelInv s.cfg k) :
    ChannelInv s.cfg k' := by
  obtain ⟨k'', heffect, hcases⟩ := effect_chan_some i hi hk
  obtain rfl : k' = k'' := Option.some.inj (hk'.symm.trans heffect)
  obtain rfl | ⟨_, _, _, -, rfl⟩ | ⟨-, rfl⟩ | ⟨_, -, rfl⟩ := hcases
  · exact h
  · exact poll_keeps h ..
  · exact channelInv_tared h
  · exact channelInv_scaled h _

/-! ## The invariant under the writes of the state (R36) -/

/-- A cleared register lies inside the counter's limits. -/
theorem zero_inside_range {c : Cfg} (h : cfgLegal c = true) :
    -(c.pcntRange : Int) < (0 : I16).toInt ∧ (0 : I16).toInt < c.pcntRange := by
  have hrange := (cfgLegal_counter h).1
  have hzero : (0 : I16).toInt = 0 := rfl
  omega

/-- The reset state meets the invariant: every field is 0. -/
theorem inv_resetWith {c : Cfg} (h : cfgLegal c = true) : Inv (State.resetWith c) where
  cfg_legal := h
  reg_inside := zero_inside_range h
  chan0 := channelInv_of_cleared c rfl rfl rfl rfl
  chan1 := channelInv_of_cleared c rfl rfl rfl rfl
  dir_legal := by simp
  dir_valid := by simp
  fresh := by simp
  pcnt_dead := by simp
  edge_dead := by simp

/-- Settles O53: the fields are 0, and a legal CFG leaves room for 0 between the counter's limits. -/
theorem resetMeetsInvariant : Obligations.ResetMeetsInvariant := fun _ => inv_resetWith

section
variable {s : State} (h : Inv s)
include h

theorem inv_input (xs : List Stimulus) : Inv { s with input := xs } := { h with }

theorem inv_quiet : Inv s.quiet := { h with }

theorem inv_respond (r0 r1 r2 : Lane) : Inv (s.respond r0 r1 r2) := { h with }

theorem inv_respond1 (r : Lane) : Inv (s.respond1 r) := inv_respond h r 0 0

theorem inv_setPrev (p : PhaseState) : Inv (s.setPrev p) := { h with }

theorem inv_setIdxFlag (f : Bool) : Inv (s.setIdxFlag f) := { h with }

theorem inv_setPrevZ (z : Bool) : Inv (s.setPrevZ z) := { h with }

theorem inv_hardReset : Inv s.hardReset :=
  { inv_resetWith h.cfg_legal with
    chan0 := channelInv_of_cleared _ rfl rfl rfl rfl
    chan1 := channelInv_of_cleared _ rfl rfl rfl rfl }

theorem inv_initAt (p : PhaseState) (z : Bool) (now : U32) : Inv (s.initAt p z now) :=
  { inv_resetWith h.cfg_legal with
    chan0 := by
      rw [State.initAt_ch0]
      split
      · exact channelInv_initAt ..
      · exact h.chan0
    chan1 := by
      rw [State.initAt_ch1]
      split
      · exact channelInv_initAt ..
      · exact h.chan1 }

theorem inv_setChan (ch : ChanIx) {k : Channel} (hk : ChannelInv s.cfg k) : Inv (s.setChan ch k) where
  cfg_legal := by simpa using h.cfg_legal
  reg_inside := by simpa using h.reg_inside
  chan0 := by
    rw [State.setChan_ch0, State.setChan_cfg]
    split
    · exact hk
    · exact h.chan0
  chan1 := by
    rw [State.setChan_ch1, State.setChan_cfg]
    split
    · exact hk
    · exact h.chan1
  dir_legal := by simpa using h.dir_legal
  dir_valid := by simpa using h.dir_valid
  fresh := by simpa using h.fresh
  pcnt_dead := by simpa using h.pcnt_dead
  edge_dead := by simpa using h.edge_dead

/-- The record at an index that exists meets the invariant of records. -/
theorem inv_chan {ch : ChanIx} {k : Channel} (hk : s.chan ch = some k) : ChannelInv s.cfg k := by
  obtain ⟨-, ⟨-, rfl⟩ | ⟨-, rfl⟩⟩ := State.chan_some hk
  · exact h.chan0
  · exact h.chan1

theorem inv_setPos (hv : s.cfg.variant = .edge) (v : I64) : Inv (s.setPos v) :=
  { h with pcnt_dead := by simp [hv] }

theorem inv_setCounter (hv : s.cfg.variant = .pcnt) {r : I16}
    (hr : -(s.cfg.pcntRange : Int) < r.toInt ∧ r.toInt < s.cfg.pcntRange) (o : I64) : Inv (s.setCounter r o) :=
  { h with
    reg_inside := hr
    edge_dead := by simp [hv] }

theorem inv_clearCounter (hv : s.cfg.variant = .pcnt) (o : I64) : Inv (s.setCounter 0 o) :=
  inv_setCounter h hv (zero_inside_range h.cfg_legal) o

theorem inv_acceptEdge (hv : s.cfg.variant = .edge) {d : Int} (hd : d = -1 ∨ d = 1) (interval now : U32) :
    Inv (s.acceptEdge d interval now) :=
  { h with
    dir_legal := by obtain rfl | rfl := hd <;> simp
    dir_valid := by obtain rfl | rfl := hd <;> simp
    fresh := by simp
    pcnt_dead := by simp [hv] }

/-- The register is cleared at its limits, so a count by one leaves it inside them. -/
theorem inv_countBounded (hv : s.cfg.variant = .pcnt) {d : Int} (hd : d = -1 ∨ d = 1) : Inv (s.countBounded d) := by
  obtain ⟨-, e⟩ | ⟨-, -, e⟩ | ⟨hhigh, hlow, e⟩ := State.countBounded_cases s d
  · exact e ▸ inv_clearCounter h hv _
  · exact e ▸ inv_clearCounter h hv _
  · rw [e]
    have hreg := h.reg_inside
    have hrange := (cfgLegal_counter h.cfg_legal).2.1
    refine inv_setCounter h hv ?_ _
    rw [wrap16_toInt_of_range (by omega) (by omega)]
    omega

/-! ## The invariant under an event and a step (R36) -/

theorem inv_phaseEdge (hv : s.cfg.variant = .edge) (new : PhaseState) (now : U32) : Inv (phaseEdge new now s) := by
  obtain ⟨-, e⟩ | ⟨⟨hcounts, -⟩, e⟩ := phaseEdge_cases new now s
  · exact e ▸ inv_setPrev h new
  · have hd := qtab_values s.prev new
    exact e ▸ inv_acceptEdge (inv_setPrev h new) hv (by omega) _ now

theorem inv_phasePcnt (hv : s.cfg.variant = .pcnt) (new : PhaseState) : Inv (phasePcnt new s) := by
  obtain ⟨-, e⟩ | ⟨hcounts, e⟩ := phasePcnt_cases new s
  · exact e ▸ inv_setPrev h new
  · have hd := qtab_values s.prev new
    exact e ▸ inv_countBounded (inv_setPrev h new) hv (by omega)

/-- An event of the channel space writes at most one record, and that one by an operation that keeps its invariant. -/
theorem inv_effect_channel {i : Instr} {ch : ChanIx} (hi : i.channel = some ch) : Inv (effect i s) := by
  obtain ⟨r, e⟩ | ⟨k, k', hk, e⟩ := effect_channel_cases s hi
  · exact e ▸ inv_respond1 h r
  · have hk' : (effect i s).chan ch = some k' := by
      rw [e, State.chan_respond1, State.chan_setChan_same hk]
    have hkeeps := effect_keeps_channelInv (isInit_of_channel hi) hk hk' (inv_chan h hk)
    exact e ▸ inv_respond1 (inv_setChan h ch hkeeps) 0

theorem inv_effect (i : Instr) : Inv (effect i s) := by
  cases i with
  | init a b z now => exact inv_respond1 (inv_initAt h ..) _
  | phase a b now =>
    cases hv : s.cfg.variant with
    | edge => exact effect_phase_edge hv a b now ▸ inv_quiet (inv_phaseEdge h hv _ now)
    | pcnt => exact effect_phase_pcnt hv a b now ▸ inv_quiet (inv_phasePcnt h hv _)
  | index z => exact inv_quiet (inv_setPrevZ (inv_setIdxFlag h _) z)
  | getPos => exact inv_respond1 h _
  | resetPos =>
    simp only [effect]
    split
    · exact inv_respond1 (inv_setPos h ‹_› _) _
    · exact inv_respond1 (inv_clearCounter h ‹_› _) _
  | setPos v =>
    simp only [effect]
    split
    · exact inv_respond1 (inv_setPos h ‹_› _) _
    · exact inv_respond1 (inv_clearCounter h ‹_› _) _
  | snapshot => exact inv_respond h ..
  | getIndex => exact inv_respond1 (inv_setIdxFlag h _) _
  | lcPoll => exact inv_effect_channel h rfl
  | tare => exact inv_effect_channel h rfl
  | calibrate => exact inv_effect_channel h rfl
  | getForce => exact inv_effect_channel h rfl
  | getRaw => exact inv_effect_channel h rfl
  | getScale => exact inv_effect_channel h rfl

theorem inv_step {t : State} (hstep : step s = .next t) : Inv t := by
  obtain ⟨-, ⟨-, rfl⟩ | ⟨rest, -, rfl⟩ | ⟨_, i, rest, -, -, rfl⟩ | ⟨_, _, rest, -, -, rfl⟩⟩ := step_cases hstep
  · exact inv_quiet h
  · exact inv_hardReset (inv_input h rest)
  · exact inv_effect (inv_input h rest) i
  · exact inv_quiet (inv_input h rest)

end

/-- Settles O54, by what a step can do: idle, reset, run an event, or ignore a word. -/
theorem stepKeepsInvariant : Obligations.StepKeepsInvariant := fun _ _ h => inv_step h

/-! ## CFG and the input stream (R32, R56) -/

theorem step_cfg_input {s t : State} (h : step s = .next t) : t.cfg = s.cfg ∧ t.input = s.input.tail := by
  obtain ⟨-, ⟨hin, rfl⟩ | ⟨rest, hin, rfl⟩ | ⟨_, i, rest, hin, -, rfl⟩ | ⟨_, _, rest, hin, -, rfl⟩⟩ := step_cases h
  · simp [hin]
  · simp [hin]
  · rw [hin]; exact effect_cfg i _
  · simp [hin]

/-- Settles O13: an event touches neither, and a step takes the stimulus it applies. -/
theorem configurationNeverChanges : Obligations.ConfigurationNeverChanges :=
  ⟨fun _ _ => step_cfg_input, fun i s _ h => exec_next h ▸ effect_cfg i s⟩

/-! ## Reachable states (R36) -/

/-- The invariant holds along every run, under the CFG the block was built with. -/
theorem reachable_inv {c : Cfg} {s : State} (hc : cfgLegal c = true) (h : Reachable c s) : s.cfg = c ∧ Inv s := by
  induction h with
  | reset => exact ⟨rfl, inv_resetWith hc⟩
  | present xs _ ih => exact ⟨ih.1, inv_input ih.2 _⟩
  | step _ hstep ih => exact ⟨(step_cfg_input hstep).1.trans ih.1, inv_step ih.2 hstep⟩

/-- R36 (c): the symmetric bound of `SUM`. -/
theorem channelInv_abs_sum {c : Cfg} {k : Channel} (h : ChannelInv c k) : |k.sum.toInt| ≤ k.cnt.toNat * 2 ^ 23 := by
  have hlow := h.sum_low
  have hhigh := h.sum_high
  rw [abs_le]
  omega

/-- R36 (d): the difference of the reading and the offset fits a significand, so neither it nor its conversion loses
anything. -/
theorem channelInv_difference {c : Cfg} {k : Channel} (h : ChannelInv c k) :
    |k.lastRaw.toInt - k.offset.toInt| ≤ 2 ^ 24 - 1 ∧
      (k.lastRaw - k.offset).toInt = k.lastRaw.toInt - k.offset.toInt ∧
      f32Units (i32ToF32 (k.lastRaw - k.offset)) = (k.lastRaw.toInt - k.offset.toInt) * 2 ^ 149 := by
  have hraw := h.raw_range
  have hoffset := h.offset_range
  have habs : |k.lastRaw.toInt - k.offset.toInt| ≤ 2 ^ 24 - 1 := by
    rw [abs_le]
    omega
  have hexact : (k.lastRaw - k.offset).toInt = k.lastRaw.toInt - k.offset.toInt := by
    rw [BitVec.toInt_sub]
    exact Int.bmod_eq_of_le (by omega) (by omega)
  refine ⟨habs, hexact, ?_⟩
  rw [(smallIntegersConvertExactly (k.lastRaw - k.offset) (by rw [hexact]; omega)).2, hexact]

/-- R36 (e): the three patterns of `LAST_DIR` that stand for -1, 0 and +1. -/
theorem inv_lastDir {s : State} (h : Inv s) : s.lastDir = 0#2 ∨ s.lastDir = 1#2 ∨ s.lastDir = 3#2 := by
  have hdir := h.dir_legal
  generalize s.lastDir = d at hdir ⊢
  revert d
  decide

/-- Settles O55: each item is a field of the invariant or follows from one. -/
theorem reachableStatesMeetR36 : Obligations.ReachableStatesMeetR36 := by
  intro c s hc hs
  obtain ⟨rfl, h⟩ := reachable_inv hc hs
  refine ⟨h.reg_inside, fun ch k hk => ?records, inv_lastDir h, ?valid, h.pcnt_dead, h.edge_dead⟩
  case records =>
    have hrec := inv_chan h hk
    exact ⟨hrec.cnt_below, channelInv_abs_sum hrec, hrec.raw_range, hrec.offset_range, channelInv_difference hrec⟩
  case valid => rw [← h.dir_valid, ← BitVec.toInt_inj]; rfl

/-! ## The reset values and INIT from them (R35) -/

theorem chan_resetWith {c : Cfg} {ch : ChanIx} {k : Channel} (h : (State.resetWith c).chan ch = some k) :
    k = Channel.reset := by
  obtain ⟨-, ⟨-, e⟩ | ⟨-, e⟩⟩ := State.chan_some h
  · exact e
  · exact e

/-- From reset, `INIT` writes nothing new to a record but `LAST_FLUSH_T`. -/
theorem initAt_reset (now : U32) : Channel.reset.initAt now = { Channel.reset with lastFlushT := now } := rfl

/-- Settles O14: `INIT` writes the reset values again, but for the levels and the time it latches. -/
theorem resetTable : Obligations.ResetTable := by
  intro c _
  refine ⟨rfl, rfl, rfl, rfl, rfl, rfl, rfl, rfl, rfl, rfl, rfl, fun ch k hk => ?records,
    fun a b z now => ⟨_, exec_eq _ _, ?init⟩⟩
  case records =>
    obtain rfl := chan_resetWith hk
    exact ⟨rfl, rfl, rfl, rfl, rfl, rfl, rfl, rfl⟩
  case init =>
    refine ⟨rfl, rfl, rfl, rfl, rfl, rfl, rfl, rfl, rfl, rfl, State.chan_map_congr _ rfl (fun h => ?_) (fun h => ?_)⟩
    · simp [effect, show 0 < c.nCh from h, initAt_reset]
    · simp [effect, show 1 < c.nCh from h, initAt_reset]

/-! ## The writers of the decoder's and the latch's fields (R37) -/

/-- A count writes the register and the overflow counter only. -/
theorem countBounded_eq_setCounter (s : State) (d : Int) : ∃ r o, s.countBounded d = s.setCounter r o := by
  obtain ⟨-, e⟩ | ⟨-, -, e⟩ | ⟨-, -, e⟩ := State.countBounded_cases s d
  · exact ⟨_, _, e⟩
  · exact ⟨_, _, e⟩
  · exact ⟨_, _, e⟩

theorem effect_phase_latch (s : State) (a b : Bool) (now : U32) :
    (effect (.phase a b now) s).idxFlag = s.idxFlag ∧ (effect (.phase a b now) s).prevZ = s.prevZ := by
  cases hv : s.cfg.variant with
  | edge =>
    rw [effect_phase_edge hv]
    obtain ⟨-, e⟩ | ⟨-, e⟩ := phaseEdge_cases (phaseState a b) now s <;> simp [e]
  | pcnt =>
    rw [effect_phase_pcnt hv]
    obtain ⟨-, e⟩ | ⟨-, e⟩ := phasePcnt_cases (phaseState a b) s
    · simp [e]
    · obtain ⟨r, o, hcount⟩ := countBounded_eq_setCounter (s.setPrev (phaseState a b)) (qtab s.prev (phaseState a b))
      simp [e, hcount]

section
variable {i : Instr} (s : State)

theorem effect_position_unchanged (hw : Field.writers .pos i = false) :
    (effect i s).pos = s.pos ∧ (effect i s).pcntReg = s.pcntReg ∧ (effect i s).ovf = s.ovf := by
  cases hc : i.channel with
  | some ch => simp [effect_decoder s hc]
  | none =>
    cases i with
    | phase | resetPos | setPos | init => cases hw
    | index | getPos | snapshot | getIndex => simp [effect]
    | _ => simp [Instr.channel] at hc

theorem effect_edgeTiming_unchanged (hw : Field.writers .prev i = false) :
    (effect i s).prev = s.prev ∧ (effect i s).lastEdgeT = s.lastEdgeT ∧ (effect i s).lastInterval = s.lastInterval ∧
      (effect i s).lastDir = s.lastDir ∧ (effect i s).edgeValid = s.edgeValid := by
  cases hc : i.channel with
  | some ch => simp [effect_decoder s hc]
  | none =>
    cases i with
    | phase | init => cases hw
    | resetPos | setPos => simp only [effect]; split <;> simp
    | index | getPos | snapshot | getIndex => simp [effect]
    | _ => simp [Instr.channel] at hc

theorem effect_idxFlag_unchanged (hw : Field.writers .idxFlag i = false) : (effect i s).idxFlag = s.idxFlag := by
  cases hc : i.channel with
  | some ch => simp [effect_decoder s hc]
  | none =>
    cases i with
    | index | getIndex | init => cases hw
    | phase a b now => exact (effect_phase_latch s a b now).1
    | resetPos | setPos => simp only [effect]; split <;> simp
    | getPos | snapshot => simp [effect]
    | _ => simp [Instr.channel] at hc

theorem effect_prevZ_unchanged (hw : Field.writers .prevZ i = false) : (effect i s).prevZ = s.prevZ := by
  cases hc : i.channel with
  | some ch => simp [effect_decoder s hc]
  | none =>
    cases i with
    | index | init => cases hw
    | phase a b now => exact (effect_phase_latch s a b now).2
    | resetPos | setPos => simp only [effect]; split <;> simp
    | getPos | snapshot | getIndex => simp [effect]
    | _ => simp [Instr.channel] at hc

end

/-! ## The writers of the records' fields (R37) -/

theorem poll_scale (k : Channel) (c : Cfg) (ix : Nat) (ready : Bool) (smp : Sample) (now : U32) :
    (k.poll c ix ready smp now).scale = k.scale := by
  obtain ⟨-, e⟩ | ⟨-, e⟩ := Channel.poll_cases k c ix ready smp now
  · rw [e, sampled_scale]
  · rw [e]; exact sampled_scale k ready smp

/-- What is read of a record agrees after an event other than `INIT`, if each of the three operations that write the
record keeps it or is not this event. -/
theorem effect_chan_map {α : Type} (g : Channel → α) {i : Instr} {c : ChanIx} (s : State) (hi : isInit i = false)
    (hpoll : isPollOf c i = false ∨ ∀ k cfg ix ready smp now, g (Channel.poll k cfg ix ready smp now) = g k)
    (htare : i ≠ .tare c ∨ ∀ (k : Channel) x, g { k with offset := x } = g k)
    (hcalibrate : isCalibrateOf c i = false ∨ ∀ (k : Channel) x, g { k with scale := x } = g k) :
    (s.chan c).map g = ((effect i s).chan c).map g := by
  cases hk : s.chan c with
  | none => rw [effect_chan_none i hk]
  | some k =>
    obtain ⟨k', hk', hcases⟩ := effect_chan_some i hi hk
    rw [hk', Option.map_some, Option.map_some, Option.some_inj]
    symm
    obtain rfl | ⟨_, _, _, rfl, rfl⟩ | ⟨rfl, rfl⟩ | ⟨_, rfl, rfl⟩ := hcases
    · rfl
    · exact hpoll.resolve_left (by simp [isPollOf]) ..
    · exact htare.resolve_left (by simp) ..
    · exact hcalibrate.resolve_left (by simp [isCalibrateOf]) ..

/-- The fields that a poll writes and neither `TARE` nor `CALIBRATE` does. -/
theorem effect_polled_field {α : Type} (g : Channel → α) {i : Instr} {c : ChanIx} (s : State)
    (hw : Field.writers (.sum c) i = false) (htare : ∀ (k : Channel) x, g { k with offset := x } = g k)
    (hcalibrate : ∀ (k : Channel) x, g { k with scale := x } = g k) :
    (s.chan c).map g = ((effect i s).chan c).map g := by
  obtain ⟨hpoll, hi⟩ := Bool.or_eq_false_iff.mp hw
  exact effect_chan_map g s hi (.inl hpoll) (.inr htare) (.inr hcalibrate)

theorem effect_offset_unchanged {i : Instr} {c : ChanIx} (s : State) (hw : Field.writers (.offset c) i = false) :
    (s.chan c).map Channel.offset = ((effect i s).chan c).map Channel.offset := by
  simp only [Field.writers, Bool.or_eq_false_iff, beq_eq_false_iff_ne] at hw
  obtain ⟨⟨hpoll, htare⟩, hi⟩ := hw
  exact effect_chan_map Channel.offset s hi (.inl hpoll) (.inl htare) (.inr fun _ _ => rfl)

theorem effect_scale_unchanged {i : Instr} {c : ChanIx} (s : State) (hw : Field.writers (.scale c) i = false) :
    (s.chan c).map Channel.scale = ((effect i s).chan c).map Channel.scale := by
  obtain ⟨hcalibrate, hi⟩ := Bool.or_eq_false_iff.mp hw
  exact effect_chan_map Channel.scale s hi (.inr poll_scale) (.inr fun _ _ => rfl) (.inl hcalibrate)

/-- Settles O51, by the rows of the table: the fields of a row have the same writers. -/
theorem onlyListedEventsWrite : Obligations.OnlyListedEventsWrite := by
  intro f i s t h hw
  obtain rfl := exec_next h
  cases f with
  | pos | pcntReg | ovf => simp only [Field.agrees, effect_position_unchanged s hw]
  | prev | lastEdgeT | lastInterval | lastDir | edgeValid =>
    simp only [Field.agrees, effect_edgeTiming_unchanged s hw]
  | idxFlag => exact (effect_idxFlag_unchanged s hw).symm
  | prevZ => exact (effect_prevZ_unchanged s hw).symm
  | sum c | cnt c | lastRaw c | filt c | tared c | lastFlushT c =>
    exact effect_polled_field _ s hw (fun _ _ => rfl) (fun _ _ => rfl)
  | offset c => exact effect_offset_unchanged s hw
  | scale c => exact effect_scale_unchanged s hw

end Sys2Proof.Proofs

namespace Sys2Proof.Proofs

open Sys2Proof.Machine Sys2Proof.Safety Sys2Proof.Laws

/-! ## Bytes (R43) -/

/-- One more byte of `w` moved in at the least significant end. -/
theorem shiftLeft_or_wordByte (w : EventWord) {k : Nat} (hk : k < 10) :
    ((w >>> (80 - 8 * k)) <<< 8) ||| (wordByte w k).setWidth 80 = w >>> (80 - 8 * (k + 1)) := by
  apply BitVec.eq_of_getLsbD_eq
  intro i hi
  simp only [wordByte, BitVec.getLsbD_or, BitVec.getLsbD_shiftLeft, BitVec.getLsbD_ushiftRight,
    BitVec.getLsbD_setWidth, BitVec.getLsbD_extractLsb', hi, decide_true, Bool.true_and]
  by_cases hlow : i < 8
  · have hbit : 8 * (9 - k) + i = 80 - 8 * (k + 1) + i := by omega
    simp [hlow, hbit]
  · have hbit : 80 - 8 * k + (i - 8) = 80 - 8 * (k + 1) + i := by omega
    simp [hlow, hbit]

/-- The first `k` bytes of a word join to its upper `8 * k` bits. -/
theorem joinBytes_first (w : EventWord) {k : Nat} (hk : k ≤ 10) :
    joinBytes ((List.range k).map (wordByte w)) = w >>> (80 - 8 * k) := by
  induction k with
  | zero => exact (BitVec.ushiftRight_eq_zero (by decide)).symm
  | succ k ih =>
    rw [← shiftLeft_or_wordByte w hk, ← ih (by omega)]
    simp [joinBytes, List.range_succ]

theorem joinBytes_toBytes (w : EventWord) : joinBytes (toBytes w) = w :=
  (joinBytes_first w (Nat.le_refl 10)).trans (BitVec.ushiftRight_zero w)

theorem length_toBytes (w : EventWord) : (toBytes w).length = 10 := by simp [toBytes]

theorem takeWord_toBytes (w : EventWord) (rest : List Byte) : takeWord (toBytes w ++ rest) = some (w, rest) := by
  rw [takeWord, List.take_left' (length_toBytes w), List.drop_left' (length_toBytes w),
    if_pos (length_toBytes w), joinBytes_toBytes]

/-- Settles O6: joining the bytes one at a time gives the word back. -/
theorem bytesMostSignificantFirst : Obligations.BytesMostSignificantFirst := fun w rest =>
  ⟨length_toBytes w, rfl, joinBytes_toBytes w, by rw [decodeBytes, takeWord_toBytes, Option.map_some]⟩

/-! ## Operations without an effect on the state (R42, R44) -/

theorem effect_missing {i : Instr} {ch : ChanIx} {s : State} (hi : i.channel = some ch) (hk : s.chan ch = none) :
    effect i s = s.respond1 0 := by
  cases i with
  | lcPoll | tare | calibrate | getForce | getRaw | getScale =>
    obtain rfl := Option.some.inj hi
    exact onChannel_none hk _
  | _ => cases hi

/-- Settles O35: an index at or above `N_CH` names no record. -/
theorem missingChannelIsSilent : Obligations.MissingChannelIsSilent := by
  intro s ch i hn hi
  rw [exec_eq, effect_missing hi (State.chan_missing hn)]
  rfl

/-- A pure accessor writes the output only, and does not read it: its response is the same for every output before. -/
theorem effect_accessor {i : Instr}
    (hi : i = .getPos ∨ i = .snapshot ∨ (∃ c, i = .getForce c) ∨ (∃ c, i = .getRaw c) ∨ (∃ c, i = .getScale c))
    (s : State) : ∃ o, ∀ x, effect i { s with out := x } = { s with out := o } := by
  have hchan : ∀ x c, State.chan { s with out := x } c = s.chan c := fun _ _ => rfl
  obtain rfl | rfl | ⟨c, rfl⟩ | ⟨c, rfl⟩ | ⟨c, rfl⟩ := hi
  · exact ⟨⟨true, s.position, 0, 0⟩, fun _ => rfl⟩
  · exact ⟨⟨true, s.position, snapshotR1 s, snapshotR2 s⟩, fun _ => rfl⟩
  all_goals
    simp only [effect, onChannel, hchan]
    cases s.chan c <;> exact ⟨_, fun _ => rfl⟩

/-- Settles O52: the second accessor runs in the state of the first but for the output, which it does not read; the
second `GET_INDEX` reads the flag that the first cleared. -/
theorem accessorsRepeat : Obligations.AccessorsRepeat := by
  refine ⟨fun i s t u hi ht hu => ?accessors, fun s t u ht hu => ?getIndex⟩
  case accessors =>
    obtain ⟨o, ho⟩ := effect_accessor hi s
    have hst : t = { s with out := o } := (exec_next ht).trans (ho s.out)
    have hut : u = { s with out := o } := by rw [exec_next hu, hst, ho]
    exact ⟨hst ▸ rfl, hut.trans hst.symm⟩
  case getIndex =>
    obtain rfl := exec_next ht
    obtain rfl := exec_next hu
    rfl

/-! ## A presented trace (R45, R197) -/

theorem decode_encode (i : Instr) : decode (encode i) = .event i := by
  cases i with
  | init => exact RoundTrip.init ..
  | phase => exact RoundTrip.phase ..
  | index => exact RoundTrip.index ..
  | getPos => exact RoundTrip.getPos
  | resetPos => exact RoundTrip.resetPos
  | setPos => exact RoundTrip.setPos ..
  | snapshot => exact RoundTrip.snapshot
  | getIndex => exact RoundTrip.getIndex
  | lcPoll => exact RoundTrip.lcPoll ..
  | tare => exact RoundTrip.tare ..
  | calibrate => exact RoundTrip.calibrate ..
  | getForce => exact RoundTrip.getForce ..
  | getRaw => exact RoundTrip.getRaw ..
  | getScale => exact RoundTrip.getScale ..

theorem run_of_step {M : Host.Core} {s t : M.State} (h : M.step s = .next t) (n : Nat) :
    M.run (n + 1) s = M.run n t := by simp only [Host.Core.run, h]

/-- A step under a presented trace applies its first event and leaves the rest presented. -/
theorem step_presentTrace_cons {s : State} (hc : cfgLegal s.cfg = true) (hin : s.input = []) (i : Instr)
    (tr : List Instr) : step (s.presentTrace (i :: tr)) = .next ((effect i s).presentTrace tr) := by
  have hinput : (s.presentTrace (i :: tr)).input = .event (encode i) :: tr.map Stimulus.ofInstr := by
    simp [State.presentTrace, Stimulus.ofInstr, hin]
  rw [stepRunsTheDecodedEvent (s.presentTrace (i :: tr)) _ i _ hc hinput (decode_encode i), exec_eq]
  simp [State.presentTrace, State.present, effect_input, effect_cfg, hin]

/-- Settles O59, by induction on the trace. -/
theorem runAppliesTheTrace : Obligations.RunAppliesTheTrace := by
  intro tr
  induction tr with
  | nil =>
    intro s _ hin
    refine ⟨s, [], rfl, ?_⟩
    simp [Host.Core.run, State.presentTrace, State.present]
  | cons i tr ih =>
    intro s hc hin
    obtain ⟨hcfg, hinput⟩ := effect_cfg i s
    obtain ⟨t, rs, htrace, hrun⟩ := ih (effect i s) (hcfg ▸ hc) (hinput.trans hin)
    have hstep : core.step (s.presentTrace (i :: tr)) = .next ((effect i s).presentTrace tr) :=
      step_presentTrace_cons hc hin i tr
    exact ⟨t, _, by rw [applyTrace_cons, htrace]; rfl, (run_of_step hstep tr.length).trans hrun⟩

/-! ## Events of different parts of the state commute (R52)

Every event but `INIT` reads and writes one part of the state: the decoder's fields, the index latch, or the record of
its channel. -/

/-- The parts of the state that R52's pairs keep apart. -/
inductive StatePart where
  | decoder
  | latch
  | record (c : ChanIx)

/-- What the events of a part see of the state: CFG and the part, with everything else at reset. -/
def StatePart.view (P : StatePart) (s : State) : State :=
  match P with
  | .decoder =>
    { State.resetWith s.cfg with
      pos := s.pos, prev := s.prev, lastEdgeT := s.lastEdgeT, lastInterval := s.lastInterval, lastDir := s.lastDir
      edgeValid := s.edgeValid, pcntReg := s.pcntReg, ovf := s.ovf }
  | .latch => { State.resetWith s.cfg with idxFlag := s.idxFlag, prevZ := s.prevZ }
  | .record c =>
    { State.resetWith s.cfg with
      ch0 := if c = 0 then s.ch0 else Channel.reset
      ch1 := if c = 1 then s.ch1 else Channel.reset }

/-- The part of an event. -/
def eventPart : Instr → Option StatePart
  | .init _ _ _ _ => none
  | .phase _ _ _ | .getPos | .resetPos | .setPos _ | .snapshot => some .decoder
  | .index _ | .getIndex => some .latch
  | .lcPoll ch _ _ _ | .tare ch | .calibrate ch _ | .getForce ch | .getRaw ch | .getScale ch => some (.record ch)

/-- Two states that look the same to every part differ at most in the output, if the same is still presented. -/
theorem sameButOut_of_view {s t : State} (hinput : s.input = t.input) (hview : ∀ P : StatePart, P.view s = P.view t) :
    sameButOut s t := by
  have hdecoder := hview .decoder
  have hlatch := hview .latch
  have hzero := hview (.record 0)
  have hone := hview (.record 1)
  cases s
  cases t
  simp_all [StatePart.view, State.resetWith, sameButOut]

/-! An event on the view of its part. -/

theorem phaseEdge_view (new : PhaseState) (now : U32) (s : State) :
    phaseEdge new now (StatePart.decoder.view s) = StatePart.decoder.view (phaseEdge new now s) := by
  simp only [phaseEdge, apply_ite StatePart.decoder.view]
  rfl

theorem countBounded_view (d : Int) (s : State) :
    (StatePart.decoder.view s).countBounded d = StatePart.decoder.view (s.countBounded d) := by
  simp only [State.countBounded, apply_ite StatePart.decoder.view]
  rfl

theorem phasePcnt_view (new : PhaseState) (s : State) :
    phasePcnt new (StatePart.decoder.view s) = StatePart.decoder.view (phasePcnt new s) := by
  simp only [phasePcnt, apply_ite StatePart.decoder.view, ← countBounded_view]
  rfl

/-- The view with the output port. -/
def StatePart.viewOut (P : StatePart) (s : State) : State := { P.view s with out := s.out }

/-- The event does the same to its part as to the whole: run on the view of a state, it leaves the view of what it leaves
there, with the same response. -/
def StaysInPart (i : Instr) (P : StatePart) (s : State) : Prop := effect i (P.view s) = P.viewOut (effect i s)

theorem decoder_staysInPart {i : Instr} (hi : eventPart i = some .decoder) (s : State) : StaysInPart i .decoder s := by
  unfold StaysInPart
  cases i with
  | phase a b now =>
    cases hv : s.cfg.variant with
    | edge => rw [effect_phase_edge hv, effect_phase_edge (by exact hv), phaseEdge_view]; rfl
    | pcnt => rw [effect_phase_pcnt hv, effect_phase_pcnt (by exact hv), phasePcnt_view]; rfl
  | getPos | snapshot => rfl
  | resetPos | setPos v =>
    simp only [effect, show (StatePart.decoder.view s).cfg = s.cfg from rfl]
    cases s.cfg.variant <;> rfl
  | _ => cases hi

theorem latch_staysInPart {i : Instr} (hi : eventPart i = some .latch) (s : State) : StaysInPart i .latch s := by
  cases i with
  | index | getIndex => rfl
  | _ => cases hi

section
variable (c : ChanIx) (s : State)

/-- The record that an index names is in its view. -/
theorem chan_view : ((StatePart.record c).view s).chan c = s.chan c := by
  rcases c with ⟨⟨n, h⟩⟩
  rcases n with _ | _ | n <;> rfl

theorem setChan_view (k : Channel) :
    (((StatePart.record c).view s).setChan c k).respond1 0 =
      (StatePart.record c).viewOut ((s.setChan c k).respond1 0) := by
  rcases c with ⟨⟨n, h⟩⟩
  rcases n with _ | _ | n <;> rfl

theorem onChannel_view {f g : Channel → State} (h : ∀ k, f k = (StatePart.record c).viewOut (g k)) :
    onChannel ((StatePart.record c).view s) c f = (StatePart.record c).viewOut (onChannel s c g) := by
  unfold onChannel
  rw [chan_view]
  cases s.chan c with
  | none => rfl
  | some k => exact h k

end

theorem channel_staysInPart {i : Instr} {c : ChanIx} (hi : i.channel = some c) (s : State) :
    StaysInPart i (.record c) s := by
  cases i with
  | lcPoll | tare =>
    obtain rfl := Option.some.inj hi
    exact onChannel_view _ s fun k => setChan_view _ s _
  | calibrate ch wt =>
    obtain rfl := Option.some.inj hi
    refine onChannel_view ch s fun k => ?_
    unfold calibrated
    split
    · exact setChan_view ch s _
    · rfl
  | getForce | getRaw | getScale =>
    obtain rfl := Option.some.inj hi
    exact onChannel_view _ s fun k => rfl
  | _ => cases hi

theorem eventPart_record_iff {i : Instr} {c : ChanIx} : eventPart i = some (.record c) ↔ i.channel = some c := by
  cases i <;> simp [eventPart, Instr.channel]

theorem isInit_of_eventPart {i : Instr} {P : StatePart} (h : eventPart i = some P) : isInit i = false := by
  cases i with
  | init => cases h
  | _ => rfl

theorem staysInPart {i : Instr} {P : StatePart} (hi : eventPart i = some P) (s : State) : StaysInPart i P s := by
  cases P with
  | decoder => exact decoder_staysInPart hi s
  | latch => exact latch_staysInPart hi s
  | record c => exact channel_staysInPart (eventPart_record_iff.mp hi) s

/-- Where a part looks the same, its event does the same to it and answers the same. -/
theorem effect_view_congr {i : Instr} {P : StatePart} (hi : eventPart i = some P) {s t : State}
    (h : P.view s = P.view t) :
    P.view (effect i s) = P.view (effect i t) ∧ (effect i s).out = (effect i t).out := by
  have heq : P.viewOut (effect i s) = P.viewOut (effect i t) := by
    rw [← staysInPart hi s, ← staysInPart hi t, h]
  have hquiet : ∀ u, (P.viewOut u).quiet = P.view u := fun u => by cases P <;> rfl
  exact ⟨by rw [← hquiet, heq, hquiet], (congrArg State.out heq :)⟩

/-! Events of different parts. -/

theorem view_decoder_of_other {i : Instr} {P : StatePart} (hi : eventPart i = some P) (hne : StatePart.decoder ≠ P)
    (s : State) : StatePart.decoder.view (effect i s) = StatePart.decoder.view s := by
  have hpos : Field.writers .pos i = false := by
    cases i with
    | phase | resetPos | setPos => exact absurd (Option.some.inj hi) hne
    | init => cases hi
    | _ => rfl
  have hprev : Field.writers .prev i = false := by
    cases i with
    | phase => exact absurd (Option.some.inj hi) hne
    | init => cases hi
    | _ => rfl
  simp only [StatePart.view, effect_cfg, effect_position_unchanged s hpos, effect_edgeTiming_unchanged s hprev]

theorem view_latch_of_other {i : Instr} {P : StatePart} (hi : eventPart i = some P) (hne : StatePart.latch ≠ P)
    (s : State) : StatePart.latch.view (effect i s) = StatePart.latch.view s := by
  have hflag : Field.writers .idxFlag i = false := by
    cases i with
    | index | getIndex => exact absurd (Option.some.inj hi) hne
    | init => cases hi
    | _ => rfl
  have hlevel : Field.writers .prevZ i = false := by
    cases i with
    | index => exact absurd (Option.some.inj hi) hne
    | init => cases hi
    | _ => rfl
  simp only [StatePart.view, effect_cfg, effect_idxFlag_unchanged s hflag, effect_prevZ_unchanged s hlevel]

theorem view_setChan_other {c c' : ChanIx} (hne : c ≠ c') (s : State) (k : Channel) :
    (StatePart.record c).view ((s.setChan c' k).respond1 0) = (StatePart.record c).view s := by
  have hskip (n : ChanIx) (x : Channel) :
      (if c = n then if c' = n then k else x else Channel.reset) = if c = n then x else Channel.reset :=
    ite_congr rfl (fun hc => if_neg fun hc' => hne (hc.trans hc'.symm)) fun _ => rfl
  simp only [StatePart.view, State.respond1_cfg, State.setChan_cfg, State.respond1_ch0, State.respond1_ch1,
    State.setChan_ch0, State.setChan_ch1, hskip]

theorem view_record_of_other {i : Instr} {P : StatePart} (hi : eventPart i = some P) {c : ChanIx}
    (hne : StatePart.record c ≠ P) (s : State) : (StatePart.record c).view (effect i s) = (StatePart.record c).view s := by
  cases hc : i.channel with
  | none =>
    simp only [StatePart.view, effect_cfg, effect_records s hc (isInit_of_eventPart hi)]
  | some c' =>
    have hcc : c ≠ c' := by
      rintro rfl
      exact hne (Option.some.inj ((eventPart_record_iff.mpr hc).symm.trans hi))
    obtain ⟨r, e⟩ | ⟨k, k', -, e⟩ := effect_channel_cases s hc
    · rw [e]; rfl
    · exact e ▸ view_setChan_other hcc s k'

/-- An event leaves every other part as it was. -/
theorem effect_view_other {i : Instr} {P Q : StatePart} (hi : eventPart i = some P) (hne : Q ≠ P) (s : State) :
    Q.view (effect i s) = Q.view s := by
  cases Q with
  | decoder => exact view_decoder_of_other hi hne s
  | latch => exact view_latch_of_other hi hne s
  | record c => exact view_record_of_other hi hne s

/-- Events of different parts, one after the other in either order: the same state but for the output, and each event the
same response. -/
theorem effect_commute {i j : Instr} {P Q : StatePart} (hi : eventPart i = some P) (hj : eventPart j = some Q)
    (hne : P ≠ Q) (s : State) :
    sameButOut (effect j (effect i s)) (effect i (effect j s)) ∧ (effect i s).out = (effect i (effect j s)).out ∧
      (effect j (effect i s)).out = (effect j s).out := by
  obtain ⟨hviewi, houti⟩ := effect_view_congr hi (effect_view_other hj hne s)
  obtain ⟨hviewj, houtj⟩ := effect_view_congr hj (effect_view_other hi hne.symm s)
  refine ⟨sameButOut_of_view (by simp only [effect_cfg]) fun R => ?_, houti.symm, houtj⟩
  rcases eq_or_ne R P with rfl | hP
  · rw [effect_view_other hj hne, hviewi]
  rcases eq_or_ne R Q with rfl | hQ
  · rw [effect_view_other hi hne.symm, hviewj]
  · simp only [effect_view_other hi hP, effect_view_other hj hQ]

theorem eventPart_of_quadrature {i : Instr} (h : isQuadrature i = true) : eventPart i = some .decoder := by
  cases i with
  | phase | getPos | resetPos | setPos | snapshot => rfl
  | _ => cases h

theorem isQuadrature_of_phase {i : Instr} (h : isPhase i = true) : isQuadrature i = true := by
  simp [isQuadrature, h]

theorem eventPart_of_latch {i : Instr} (h : isIndex i = true ∨ (i == .getIndex) = true) :
    eventPart i = some .latch := by
  cases i with
  | index | getIndex => rfl
  | _ => simp [isIndex] at h

theorem eventPart_of_channel {i : Instr} (h : i.channel.isSome = true) :
    ∃ c, i.channel = some c ∧ eventPart i = some (.record c) := by
  obtain ⟨c, hc⟩ := Option.isSome_iff_exists.mp h
  exact ⟨c, hc, eventPart_record_iff.mpr hc⟩

/-- The two events of a listed pair have different parts. -/
theorem eventPart_of_listedPair {i j : Instr} (h : listedPair i j = true) :
    ∃ P Q, eventPart i = some P ∧ eventPart j = some Q ∧ P ≠ Q := by
  simp only [listedPair, Bool.or_eq_true_iff, Bool.and_eq_true, bne_iff_ne] at h
  obtain ((⟨hi, hj⟩ | ⟨hi, hj⟩) | ⟨hi, hj | hj⟩) | ⟨⟨hi, hj⟩, hne⟩ := h
  · exact ⟨_, _, eventPart_of_quadrature (isQuadrature_of_phase hi), eventPart_of_latch (.inl hj), nofun⟩
  · obtain ⟨c, -, hpart⟩ := eventPart_of_channel hj
    exact ⟨_, _, eventPart_of_quadrature (isQuadrature_of_phase hi), hpart, nofun⟩
  · exact ⟨_, _, eventPart_of_latch hi, eventPart_of_quadrature hj, nofun⟩
  · obtain ⟨c, -, hpart⟩ := eventPart_of_channel hj
    exact ⟨_, _, eventPart_of_latch hi, hpart, nofun⟩
  · obtain ⟨c, hc, hparti⟩ := eventPart_of_channel hi
    obtain ⟨d, hd, hpartj⟩ := eventPart_of_channel hj
    refine ⟨_, _, hparti, hpartj, fun heq => hne ?_⟩
    rw [hc, hd, StatePart.record.inj heq]

/-- Settles O56, by the parts of the two events; either order of the pair will do. -/
theorem disjointEventsCommute : Obligations.DisjointEventsCommute := by
  intro i j s h
  obtain ⟨P, Q, hi, hj, hne⟩ : ∃ P Q, eventPart i = some P ∧ eventPart j = some Q ∧ P ≠ Q := by
    rcases Bool.or_eq_true_iff.mp h with h | h
    · exact eventPart_of_listedPair h
    · obtain ⟨P, Q, hj, hi, hne⟩ := eventPart_of_listedPair h
      exact ⟨Q, P, hi, hj, hne.symm⟩
  exact ⟨_, _, _, _, exec_eq _ _, exec_eq _ _, exec_eq _ _, exec_eq _ _, effect_commute hi hj hne s⟩

end Sys2Proof.Proofs

namespace Sys2Proof.Proofs

open Sys2Proof.Machine Sys2Proof.Safety Sys2Proof.Laws

/-! ## The event word (R57 to R61, R65, R69)

One case split on the opcode says what the decoder answers: an event whose word is the word read, where the word keeps
its format, and RESERVED where it does not. -/

/-- Settles O1: the decoder computes on the nine words. -/
theorem specWordsDecode : Obligations.SpecWordsDecode := by
  unfold Obligations.SpecWordsDecode
  decide

/-- Settles O2, by the round trip of each event. -/
theorem decodeOfEncode : Obligations.DecodeOfEncode := decode_encode

/-! Data whose unused upper bits are 0 is its operand fields, put together again. -/

theorem extractLsb'_of_zeroFrom {d : BitVec 64} {n : Nat} (h : zeroFrom d n = true) (len : Nat) :
    d.extractLsb' n len = 0#len := by
  ext i hi
  simp [zeroFrom_bit d n (n + i) h (Nat.le_add_right n i)]

theorem ofBool_getLsbD (d : BitVec 64) (n : Nat) : BitVec.ofBool (d.getLsbD n) = d.extractLsb' n 1 := by
  ext i hi
  obtain rfl := Nat.lt_one_iff.mp hi
  simp

theorem dataI_fields {d : BitVec 64} (h : zeroFrom d 35 = true) :
    dataI (aField d) (bField d) (zFieldI d) (lowWord d) = d := by
  simp only [dataI, ← extractLsb'_of_zeroFrom h, aField, bField, zFieldI, lowWord, ofBool_getLsbD,
    BitVec.extractLsb'_append_extractLsb'_eq_extractLsb', BitVec.extractLsb'_eq_self]

theorem dataP_fields {d : BitVec 64} (h : zeroFrom d 34 = true) : dataP (aField d) (bField d) (lowWord d) = d := by
  simp only [dataP, ← extractLsb'_of_zeroFrom h, aField, bField, lowWord, ofBool_getLsbD,
    BitVec.extractLsb'_append_extractLsb'_eq_extractLsb', BitVec.extractLsb'_eq_self]

theorem dataZ_fields {d : BitVec 64} (h : zeroFrom d 1 = true) : dataZ (zField d) = d := by
  simp only [dataZ, ← extractLsb'_of_zeroFrom h, zField, ofBool_getLsbD,
    BitVec.extractLsb'_append_extractLsb'_eq_extractLsb', BitVec.extractLsb'_eq_self]

theorem dataW_fields {d : BitVec 64} (h : zeroFrom d 32 = true) : dataW (lowWord d) = d := by
  simp only [dataW, ← extractLsb'_of_zeroFrom h, lowWord,
    BitVec.extractLsb'_append_extractLsb'_eq_extractLsb', BitVec.extractLsb'_eq_self]

theorem dataL_fields {d : BitVec 64} (h : zeroFrom d 57 = true) :
    dataL (readyField d) (smpField d) (lowWord d) = d := by
  simp only [dataL, ← extractLsb'_of_zeroFrom h, readyField, smpField, lowWord, ofBool_getLsbD,
    BitVec.extractLsb'_append_extractLsb'_eq_extractLsb', BitVec.extractLsb'_eq_self]

theorem eq_zero_of_zeroFrom {d : BitVec 64} (h : zeroFrom d 0 = true) : d = 0#64 := by
  rw [← BitVec.extractLsb'_eq_self (x := d), extractLsb'_of_zeroFrom h]

theorem zeroFrom_iff_mask (d : BitVec 64) (n : Nat) : zeroFrom d n = true ↔ d &&& BitVec.allOnes 64 <<< n = 0 := by
  rw [zeroFrom, beq_iff_eq, ← BitVec.shiftLeft_ushiftRight]
  refine ⟨fun h => by simp [h], fun h => ?_⟩
  apply BitVec.eq_of_getLsbD_eq
  intro i _
  have hbit := congrArg (·.getLsbD (n + i)) h
  by_cases hi : n + i < 64
  · simpa [hi] using hbit
  · simp [BitVec.getLsbD_of_ge d (n + i) (Nat.not_lt.mp hi)]

/-! What the decoder answers. -/

/-- The conditions of R65 on `ch` and `data`, for a word with opcode `op`. -/
def InFormat (op : BitVec 4) (ch : ChanIx) (d : BitVec 64) : Prop :=
  (op ≤ 0x8#4 → ch = 0) ∧ d &&& mustBeZero op = 0

/-- `r` is the right answer for the word `w`: an event with that word when the word is legal, RESERVED otherwise. -/
def Reads (w : EventWord) (legal : Prop) (r : Decoded) : Prop :=
  (legal ∧ ∃ i, r = .event i ∧ encode i = w) ∨ (¬ legal ∧ ∃ why, r = .reserved why)

section
variable {op : BitVec 4} {ch : ChanIx} {d : BitVec 64} {n : Nat} {i : Instr}
  (hmask : mustBeZero op = BitVec.allOnes 64 <<< n)
include hmask

theorem withChannel_reads (hch : ¬ op ≤ 0x8#4 ∨ ch = 0) (hword : zeroFrom d n = true → encode i = layout op ch d) :
    Reads (layout op ch d) (InFormat op ch d) (withChannel d n i) := by
  have hdata : zeroFrom d n = true ↔ d &&& mustBeZero op = 0 := hmask ▸ zeroFrom_iff_mask d n
  by_cases h : zeroFrom d n = true
  · exact .inl ⟨⟨hch.resolve_left ∘ not_not.mpr, hdata.mp h⟩, i, if_pos h, hword h⟩
  · exact .inr ⟨fun hf => h (hdata.mpr hf.2), _, if_neg h⟩

theorem noChannel_reads (hop : op ≤ 0x8#4) (hword : zeroFrom d n = true → encode i = layout op 0 d) :
    Reads (layout op ch d) (InFormat op ch d) (noChannel ch d n i) := by
  by_cases h : ch = 0
  · subst h
    exact withChannel_reads hmask (.inr rfl) hword
  · exact .inr ⟨fun hf => h (hf.1 hop), _, if_neg h⟩

end

theorem opcode_cases : ∀ op : BitVec 4, op ≠ 0x0#4 → op ≠ 0xF#4 → op = 0x1#4 ∨ op = 0x2#4 ∨ op = 0x3#4 ∨ op = 0x4#4 ∨
    op = 0x5#4 ∨ op = 0x6#4 ∨ op = 0x7#4 ∨ op = 0x8#4 ∨ op = 0x9#4 ∨ op = 0xA#4 ∨ op = 0xB#4 ∨ op = 0xC#4 ∨
    op = 0xD#4 ∨ op = 0xE#4 := by decide

theorem decodeFields_reads {op : BitVec 4} (h0 : op ≠ 0x0#4) (hf : op ≠ 0xF#4) (ch : ChanIx) (d : BitVec 64) :
    Reads (layout op ch d) (InFormat op ch d) (decodeFields op ch d) := by
  have hnone {op ch} (h : zeroFrom d 0 = true) : layout op ch 0 = layout op ch d :=
    congrArg (layout op ch) (eq_zero_of_zeroFrom h).symm
  obtain rfl | rfl | rfl | rfl | rfl | rfl | rfl | rfl | rfl | rfl | rfl | rfl | rfl | rfl := opcode_cases op h0 hf
  · exact noChannel_reads (by decide) (by decide) fun h => congrArg (layout 0x1 0) (dataI_fields h)
  · exact noChannel_reads (by decide) (by decide) fun h => congrArg (layout 0x2 0) (dataP_fields h)
  · exact noChannel_reads (by decide) (by decide) fun h => congrArg (layout 0x3 0) (dataZ_fields h)
  · exact noChannel_reads (by decide) (by decide) hnone
  · exact noChannel_reads (by decide) (by decide) hnone
  · exact noChannel_reads (by decide) (by decide) fun _ => rfl
  · exact noChannel_reads (by decide) (by decide) hnone
  · exact noChannel_reads (by decide) (by decide) hnone
  · exact withChannel_reads (by decide) (.inl (by decide)) fun h => congrArg (layout 0x9 ch) (dataL_fields h)
  · exact withChannel_reads (by decide) (.inl (by decide)) hnone
  · exact withChannel_reads (by decide) (.inl (by decide)) fun h => congrArg (layout 0xB ch) (dataW_fields h)
  · exact withChannel_reads (by decide) (.inl (by decide)) hnone
  · exact withChannel_reads (by decide) (.inl (by decide)) hnone
  · exact withChannel_reads (by decide) (.inl (by decide)) hnone

/-- A word is legal when it meets none of the conditions of R65. -/
theorem not_reservedWord_iff (w : EventWord) : ¬ reservedWord w ↔
    opField w ≠ 0x0#4 ∧ opField w ≠ 0xF#4 ∧ rsvField w = 0 ∧ InFormat (opField w) (chField w) (dataField w) := by
  simp only [reservedWord, InFormat, not_or, not_and, not_not, ne_eq]

theorem decode_reads (w : EventWord) : Reads w (¬ reservedWord w) (decode w) := by
  by_cases hop : opField w = 0x0#4 ∨ opField w = 0xF#4
  · exact .inr ⟨not_not.mpr (hop.imp_right .inl), _, if_pos hop⟩
  rw [decode, if_neg hop]
  obtain ⟨h0, hf⟩ := not_or.mp hop
  by_cases hrsv : rsvField w = 0
  · have h := decodeFields_reads h0 hf (chField w) (dataField w)
    rw [layout_fields w hrsv] at h
    simpa only [not_reservedWord_iff, h0, hf, hrsv, ne_eq, not_false_eq_true, true_and, if_true] using h
  · exact .inr ⟨not_not.mpr (.inr (.inr (.inl hrsv))), _, if_neg hrsv⟩

theorem encode_of_decode {w : EventWord} {i : Instr} (h : decode w = .event i) : ¬ reservedWord w ∧ encode i = w := by
  obtain ⟨hlegal, j, hj, hw⟩ | ⟨-, why, hwhy⟩ := decode_reads w
  · obtain rfl := Decoded.event.inj (h.symm.trans hj)
    exact ⟨hlegal, hw⟩
  · rw [h] at hwhy
    cases hwhy

theorem exists_event_iff (w : EventWord) : (∃ i, decode w = .event i) ↔ ¬ reservedWord w := by
  refine ⟨fun ⟨i, h⟩ => (encode_of_decode h).1, fun hw => ?_⟩
  obtain ⟨-, i, hi, -⟩ | ⟨hn, -⟩ := decode_reads w
  · exact ⟨i, hi⟩
  · exact absurd hw hn

/-- Settles O3: what the decoder reads as an event, it reads back. -/
theorem encodeOfDecode : Obligations.EncodeOfDecode := fun _ _ h => (encode_of_decode h).2

/-- Settles O4: a word is either read as an event or reserved. -/
theorem reservedWordsExactly : Obligations.ReservedWordsExactly := by
  intro w
  refine ⟨fun ⟨why, h⟩ => ?_, fun hw => ?_⟩
  · by_contra hn
    obtain ⟨i, hi⟩ := (exists_event_iff w).mpr hn
    rw [h] at hi
    cases hi
  · obtain ⟨hn, -⟩ | ⟨-, hwhy⟩ := decode_reads w
    · exact absurd hw hn
    · exact hwhy

/-! The opcode table (R58, spec/opcode_table.json). -/

theorem fields_append (w : EventWord) : opField w ++ chField w ++ rsvField w ++ dataField w = w := by
  simp only [opField, chField, rsvField, dataField, BitVec.extractLsb'_append_extractLsb'_eq_extractLsb',
    BitVec.extractLsb'_eq_self]

/-- A word is its four fields. -/
theorem word_eq_iff {x y : EventWord} :
    x = y ↔ opField x = opField y ∧ chField x = chField y ∧ rsvField x = rsvField y ∧ dataField x = dataField y := by
  refine ⟨fun h => by simp [h], fun ⟨hop, hch, hrsv, hdata⟩ => ?_⟩
  rw [← fields_append x, ← fields_append y, hop, hch, hrsv, hdata]

/-- A row's bits hold its opcode alone. -/
theorem opcodeTable_bits : ∀ row ∈ opcodeTable, opField row.bits ≠ 0x0#4 ∧ opField row.bits ≠ 0xF#4 ∧
    chField row.bits = 0 ∧ rsvField row.bits = 0 ∧ dataField row.bits = 0 := by decide

/-- A row's mask holds the whole word but for the operands of the format. -/
theorem opcodeTable_mask : ∀ row ∈ opcodeTable, opField row.mask = BitVec.allOnes 4 ∧
    chField row.mask = (if opField row.bits ≤ 0x8#4 then BitVec.allOnes 4 else 0) ∧
    rsvField row.mask = BitVec.allOnes 8 ∧ dataField row.mask = mustBeZero (opField row.bits) := by decide

/-- No two rows have one opcode. -/
theorem opcodeTable_injective : ∀ row ∈ opcodeTable, ∀ other ∈ opcodeTable,
    opField other.bits = opField row.bits → other = row := by decide

/-- A row matches the legal words with its opcode. -/
theorem covers_iff {row : OpcodeRow} (h : row ∈ opcodeTable) (w : EventWord) :
    row.covers w = true ↔ opField w = opField row.bits ∧ ¬ reservedWord w := by
  obtain ⟨h0, hf, hbits⟩ := opcodeTable_bits row h
  obtain ⟨hop, hmask⟩ := opcodeTable_mask row h
  have hcovers : row.covers w = true ↔ opField w &&& opField row.mask = opField row.bits ∧
      chField w &&& chField row.mask = chField row.bits ∧ rsvField w &&& rsvField row.mask = rsvField row.bits ∧
      dataField w &&& dataField row.mask = dataField row.bits := by
    rw [OpcodeRow.covers, beq_iff_eq, word_eq_iff]
    simp only [opField, chField, rsvField, dataField, BitVec.extractLsb'_and]
  rw [hcovers, hop, BitVec.and_allOnes, not_reservedWord_iff]
  refine and_congr_right fun hw => ?_
  obtain ⟨hch, hrsv, hdata⟩ := hmask
  have hchannel : chField w &&& chField row.mask = 0 ↔ (opField row.bits ≤ 0x8#4 → chField w = 0) := by
    rw [hch]
    split
    · rw [BitVec.and_allOnes, forall_prop_of_true ‹_›]
    · simp [*]
  simp only [hw, h0, hf, hbits, hchannel, hrsv, hdata, InFormat, BitVec.and_allOnes, ne_eq, not_false_eq_true, true_and,
    and_left_comm]

/-- An event's row: that of its mnemonic, with the opcode of its word. -/
theorem exists_row (i : Instr) :
    ∃ row ∈ opcodeTable, row.mnemonic = i.mnemonic ∧ opField (encode i) = opField row.bits := by
  cases i
  all_goals
    simp only [encode, opField_layout, Instr.mnemonic]
    decide

/-- Settles O5: the rows match the legal words of their opcodes, and an event's word has the opcode of its row. -/
theorem decodeAgreesWithOpcodeTable : Obligations.DecodeAgreesWithOpcodeTable := by
  refine ⟨fun w i h => ?_, fun w ⟨row, hrow, hcovers⟩ => ?_⟩
  · obtain ⟨hlegal, rfl⟩ := encode_of_decode h
    obtain ⟨row, hrow, hmnemonic, hop⟩ := exists_row i
    refine ⟨row, hrow, (covers_iff hrow _).mpr ⟨hop, hlegal⟩, hmnemonic, fun other hother hcovers => ?_⟩
    exact opcodeTable_injective row hrow other hother (((covers_iff hother _).mp hcovers).1.symm.trans hop)
  · exact (exists_event_iff w).mpr ((covers_iff hrow w).mp hcovers).2

/-! ## The bits of a sample (R61, R73) -/

theorem assembleSample_append (levels : List Bool) (d : Bool) :
    assembleSample (levels ++ [d]) = shiftIn (assembleSample levels) d := List.foldl_append ..

/-- One more bit doubles the value and adds the bit, where no bit is lost at the top. -/
theorem shiftIn_toNat {acc : Sample} (h : acc.toNat < 2 ^ 23) (d : Bool) :
    (shiftIn acc d).toNat = 2 * acc.toNat + d.toNat := by
  have hroom : acc.toNat <<< 1 % 2 ^ 24 = acc.toNat <<< 1 := Nat.mod_eq_of_lt (by rw [Nat.shiftLeft_eq]; omega)
  have hbit : ((BitVec.ofBool d).setWidth 24).toNat = d.toNat := by cases d <;> rfl
  rw [shiftIn, BitVec.toNat_or, BitVec.toNat_shiftLeft, hroom, hbit,
    ← Nat.shiftLeft_add_eq_or_of_lt (Bool.toNat_lt d), Nat.shiftLeft_eq, Nat.mul_comm]

/-- Up to 24 bits, the first received counts most and none is lost. -/
theorem assembleSample_toNat (levels : List Bool) (h : levels.length ≤ 24) :
    (assembleSample levels).toNat < 2 ^ levels.length ∧ (assembleSample levels).toNat =
      ∑ i ∈ Finset.range levels.length, (levels.getD i false).toNat * 2 ^ (levels.length - 1 - i) := by
  induction levels using List.reverseRecOn with
  | nil => decide
  | append_singleton levels d ih =>
    rw [List.length_append, List.length_singleton] at h ⊢
    obtain ⟨hlt, hsum⟩ := ih (by omega)
    have hroom : (assembleSample levels).toNat < 2 ^ 23 :=
      hlt.trans_le (Nat.pow_le_pow_right (by decide) (by omega))
    have hd := Bool.toNat_lt d
    rw [assembleSample_append, shiftIn_toNat hroom]
    refine ⟨by rw [Nat.pow_succ]; omega, ?_⟩
    have hfirst : ∀ i ∈ Finset.range levels.length,
        ((levels ++ [d]).getD i false).toNat * 2 ^ (levels.length + 1 - 1 - i) =
          2 * ((levels.getD i false).toNat * 2 ^ (levels.length - 1 - i)) := by
      intro i hi
      have hi := Finset.mem_range.mp hi
      rw [List.getD_append _ _ _ _ hi, Nat.mul_left_comm, ← Nat.pow_succ']
      congr 2
      omega
    rw [Finset.sum_range_succ, Finset.sum_congr rfl hfirst, ← Finset.mul_sum, ← hsum]
    simp

/-- Settles O7, by induction on the bits received. -/
theorem sampleBitsMostSignificantFirst : Obligations.SampleBitsMostSignificantFirst := by
  intro levels h
  have hsum := (assembleSample_toNat levels h.le).2
  rwa [h] at hsum

/-! ## Steps and polls without an effect (R61, R66) -/

/-- Settles O10: the branches of `step` for a reserved word and for an empty stream. -/
theorem stepIgnoresReservedWord : Obligations.StepIgnoresReservedWord := by
  refine ⟨fun s w why rest hlegal hinput hdecode => ?_, fun s hlegal hinput => ?_⟩
  · simp only [step, hlegal, if_true, State.fetch_cons hinput, hdecode]
    rfl
  · simp only [step, hlegal, if_true, State.fetch_nil hinput]
    rfl

theorem poll_not_ready (k : Channel) (c : Cfg) (ix : Nat) (smp : Sample) (now : U32) :
    k.poll c ix false smp now = if flushDue c k.cnt now k.lastFlushT then k.flush c ix now else k := rfl

/-- Settles O38: such a poll makes the same record of the channel, whatever `smp` is. -/
theorem sampleIgnoredWhenNotReady : Obligations.SampleIgnoredWhenNotReady := by
  intro s ch smp smp' now
  simp only [exec_eq, effect, poll_not_ready]

/-! ## `POLL` (R71, R153) -/

/-- The state that a poll of a record leaves (R127). -/
def polled (s : State) (ch : ChanIx) (k : Channel) (x : Reading) (now : U32) : State :=
  (s.setChan ch (k.poll s.cfg ch.toNat x.ready x.smp now)).respond1 0

section
variable {s : State} {ch : ChanIx} {k : Channel} (h : s.chan ch = some k) (x : Reading) (now : U32)

theorem chan_polled_other {c : ChanIx} (hne : ch ≠ c) : (polled s ch k x now).chan c = s.chan c :=
  State.chan_setChan_other hne _

include h

theorem chan_polled_same : (polled s ch k x now).chan ch = some (k.poll s.cfg ch.toNat x.ready x.smp now) :=
  State.chan_setChan_same h _

/-- A poll at the head of a trace gives one response. -/
theorem applyTrace_poll (tr : List Instr) : applyTrace (.lcPoll ch x.ready x.smp now :: tr) s =
    (applyTrace tr (polled s ch k x now)).map fun p =>
      (p.1, (.lcPoll ch x.ready x.smp now, ⟨true, 0, 0, 0⟩) :: p.2) := by
  rw [applyTrace_cons, effect, onChannel_some h]
  rfl

end

/-- Settles O58: the poll of channel 1 finds and leaves channel 0 as the poll of channel 0 made it. -/
theorem pollServesEveryChannel : Obligations.PollServesEveryChannel := by
  intro s now x0 x1 hn
  have h0 : s.chan 0 = some s.ch0 := by rw [State.chan_zero, if_pos (by omega)]
  obtain hn | hn := hn
  · rw [pollOp, if_neg (by omega), applyTrace_poll h0]
    exact ⟨_, _, rfl, hn.symm, chan_polled_same h0 x0 now, fun h => by omega⟩
  · have h1 : (polled s 0 s.ch0 x0 now).chan 1 = some s.ch1 := by
      rw [chan_polled_other _ _ (by decide), State.chan_one, if_pos (by omega)]
    rw [pollOp, if_pos hn, applyTrace_poll h0, applyTrace_poll h1]
    refine ⟨_, _, rfl, hn.symm, ?_, fun _ => chan_polled_same h1 x1 now⟩
    rw [chan_polled_other _ _ (by decide)]
    exact chan_polled_same h0 x0 now

end Sys2Proof.Proofs

namespace Sys2Proof.Proofs

open Sys2Proof.Machine Sys2Proof.Safety Sys2Proof.Laws

/-! ## The transition table (R80, R91) -/

/-- Settles O17, entry by entry. -/
theorem transitionTable : Obligations.TransitionTable := by
  unfold Obligations.TransitionTable
  decide

theorem qtab_ne_zero_iff : ∀ a b a' b' : Bool,
    qtab (phaseState a b) (phaseState a' b') ≠ 0 ↔ ((a ≠ a') ∧ b = b') ∨ (a = a' ∧ (b ≠ b')) := by
  decide

/-- Settles O18: the values of the table, read at both orders of its index. -/
theorem transitionTableAntisymmetric : Obligations.TransitionTableAntisymmetric := fun a b a' b' =>
  ⟨qtab_antisymm _ _, qtab_ne_zero_iff a b a' b'⟩

/-- A delta survives being stored in the two bits of `LAST_DIR` (R15). -/
theorem ofInt_qtab_toInt (p q : PhaseState) : (BitVec.ofInt 2 (qtab p q)).toInt = qtab p q := by
  revert p q
  decide

/-! ## One sample in `VARIANT = EDGE` (R82 to R84) -/

theorem acceptedInterval_toNat (valid : Bool) (now last : U32) :
    ((acceptedInterval valid (subTs now last)).toNat : Int) =
      if valid = true then ((now.toNat : Int) - last.toNat) % 2 ^ 32 else 0 := by
  cases valid with
  | false => rfl
  | true => exact subTs_toNat now last

/-- The filter lets a transition pass that comes at least `GLITCH_US` after the accepted edge before it, if any. -/
theorem glitchRejects_eq_false {c : Cfg} {valid : Bool} {dt : U32} (h : valid = true → c.glitchUs ≤ dt) :
    glitchRejects c valid dt = false := by
  cases valid with
  | false => rfl
  | true => simpa [glitchRejects, BitVec.le_def, BitVec.lt_def] using h rfl

section
variable {s : State} {new : PhaseState} {now : U32}

theorem phaseEdge_dropped
    (h : qtab s.prev new = 0 ∨ glitchRejects s.cfg s.edgeValid (subTs now s.lastEdgeT) = true) :
    phaseEdge new now s = s.setPrev new := by
  obtain ⟨-, e⟩ | ⟨⟨hcounts, hpasses⟩, -⟩ := phaseEdge_cases new now s
  · exact e
  · simp [hcounts, hpasses] at h

theorem phaseEdge_accepted (hcounts : qtab s.prev new ≠ 0)
    (hpasses : s.edgeValid = true → s.cfg.glitchUs ≤ subTs now s.lastEdgeT) :
    phaseEdge new now s = (s.setPrev new).acceptEdge (qtab s.prev new)
      (acceptedInterval s.edgeValid (subTs now s.lastEdgeT)) now := by
  obtain ⟨hdropped, -⟩ | ⟨-, e⟩ := phaseEdge_cases new now s
  · simp [hcounts, glitchRejects_eq_false hpasses] at hdropped
  · exact e

/-- An accepted edge moves the position by its delta (R82, R83). -/
theorem phaseEdge_accepted_pos (hcounts : qtab s.prev new ≠ 0)
    (hpasses : s.edgeValid = true → s.cfg.glitchUs ≤ subTs now s.lastEdgeT) :
    (phaseEdge new now s).pos.toInt = (s.pos.toInt + qtab s.prev new).bmod (2 ^ 64) := by
  rw [phaseEdge_accepted hcounts hpasses]
  exact wrap64_toInt _

end

theorem effect_sample_edge {s : State} (hv : s.cfg.variant = .edge) (x : PhaseSample) :
    effect x.event s = (phaseEdge x.state x.now s).quiet := effect_phase_edge hv x.a x.b x.now

/-- Settles O19, by the two arms of `phaseEdge_cases`. -/
theorem phaseEdgeResult : Obligations.PhaseEdgeResult := by
  intro a b now s hv d dt
  refine ⟨_, exec_eq _ _, ?_⟩
  have hfilter := glitchRejects_iff s.cfg s.edgeValid now s.lastEdgeT
  rw [effect_phase_edge hv]
  obtain ⟨hdropped, e⟩ | ⟨⟨hcounts, hpasses⟩, e⟩ := phaseEdge_cases (phaseState a b) now s
  · rw [hfilter] at hdropped
    rw [e, if_pos hdropped]
    exact ⟨phaseState_toNat a b, ⟨rfl, rfl, rfl, rfl, rfl⟩, rfl, rfl, rfl, rfl, rfl, rfl, rfl, rfl, rfl⟩
  · rw [← Bool.not_eq_true, hfilter] at hpasses
    rw [e, if_neg (not_or.mpr ⟨hcounts, hpasses⟩)]
    exact ⟨phaseState_toNat a b,
      ⟨wrap64_toInt _, ofInt_qtab_toInt _ _, acceptedInterval_toNat _ _ _, rfl, rfl⟩,
      rfl, rfl, rfl, rfl, rfl, rfl, rfl, rfl, rfl⟩

/-- Settles O20: 2^63 and -2^63 - 1 lie just outside the range of `bmod`. -/
theorem positionWrapsAtTheEnds : Obligations.PositionWrapsAtTheEnds := by
  intro a b now s t hv hpasses ht
  obtain rfl := exec_next ht
  rw [effect_phase_edge hv, State.quiet_pos]
  refine ⟨fun hpos hd => ?_, fun hpos hd => ?_⟩
  · rw [phaseEdge_accepted_pos (by omega) hpasses, hpos, hd]
    rfl
  · rw [phaseEdge_accepted_pos (by omega) hpasses, hpos, hd]
    rfl

/-- Settles O21: the first edge stores its own time, from which the filter measures the second. -/
theorem glitchDropsTheSecondEdge : Obligations.GlitchDropsTheSecondEdge := by
  intro x y s t u hv hx _ hpasses hclose ht hu
  obtain rfl := exec_next hu
  obtain rfl := exec_next ht
  rw [effect_sample_edge hv, phaseEdge_accepted hx hpasses]
  refine ⟨wrap64_toInt _, ?_⟩
  rw [effect_sample_edge (by exact hv), phaseEdge_dropped (.inr (by simp [glitchRejects, hclose]))]
  rfl

/-! ## Sequences of samples in `VARIANT = EDGE` (R89) -/

/-- The two conditions of R89 as one: a filter that is off rejects nothing. -/
theorem rejectsNone_of_filter {g : U32} {p : PhaseState} {valid : Bool} {last : U32} {xs : List PhaseSample}
    (h : g = 0 ∨ rejectsNone g p valid last xs = true) : rejectsNone g p valid last xs = true := by
  obtain rfl | h := h
  · exact rejectsNone_off p valid last xs
  · exact h

/-- The first of such samples moves the position by its delta, and the rest are such samples from there. -/
theorem phaseEdge_of_rejectsNone {s : State} {x : PhaseSample} {xs : List PhaseSample}
    (h : rejectsNone s.cfg.glitchUs s.prev s.edgeValid s.lastEdgeT (x :: xs) = true) :
    let t := phaseEdge x.state x.now s
    t.cfg = s.cfg ∧ t.prev = x.state ∧ t.pos.toInt = (s.pos.toInt + qtab s.prev x.state).bmod (2 ^ 64) ∧
      rejectsNone s.cfg.glitchUs x.state t.edgeValid t.lastEdgeT xs = true := by
  obtain ⟨hzero, e, hrest⟩ | ⟨-, e, hrest⟩ := rejectsNone_cons h
  · rw [e, hzero, add_zero]
    exact ⟨rfl, rfl, (BitVec.toInt_bmod_cancel s.pos).symm, hrest⟩
  · rw [e]
    exact ⟨rfl, rfl, wrap64_toInt _, hrest⟩

/-- Samples none of which the filter rejects move the position by the sum of their deltas, without a response. -/
theorem applyTrace_samples (xs : List PhaseSample) {s : State} (hv : s.cfg.variant = .edge)
    (h : rejectsNone s.cfg.glitchUs s.prev s.edgeValid s.lastEdgeT xs = true) :
    ∃ t, applyTrace (xs.map PhaseSample.event) s = some (t, []) ∧
      t.pos.toInt = (s.pos.toInt + deltaSum s.prev (xs.map PhaseSample.state)).bmod (2 ^ 64) := by
  induction xs generalizing s with
  | nil => exact ⟨s, rfl, (BitVec.toInt_bmod_cancel s.pos).symm.trans (by rw [List.map_nil, deltaSum, add_zero])⟩
  | cons x xs ih =>
    obtain ⟨hcfg, hprev, hpos, hrest⟩ := phaseEdge_of_rejectsNone h
    obtain ⟨t, htrace, hsum⟩ := ih (s := (phaseEdge x.state x.now s).quiet) (hcfg ▸ hv) (by simpa [hcfg, hprev])
    refine ⟨t, ?_, ?_⟩
    · rw [List.map_cons, applyTrace_cons, effect_sample_edge hv, htrace]
      rfl
    · rw [hsum, State.quiet_pos, State.quiet_prev, hpos, hprev, Int.bmod_add_bmod, add_assoc]
      rfl

/-- Settles O22, by induction on the samples. -/
theorem positionIsTheSumOfDeltas : Obligations.PositionIsTheSumOfDeltas := fun xs _ hv h =>
  applyTrace_samples xs hv (rejectsNone_of_filter h)

/-- A walk from `p` and back to `p` adds nothing to the sum: each delta meets its negative. -/
theorem deltaSum_there_and_back (p : PhaseState) (qs rs : List PhaseState) :
    deltaSum p (qs ++ ((p :: qs).reverse.tail ++ rs)) = deltaSum p rs := by
  induction qs generalizing p rs with
  | nil => rfl
  | cons q qs ih =>
    have hback : (p :: q :: qs).reverse.tail = (q :: qs).reverse.tail ++ [p] := by
      rw [List.reverse_cons, List.tail_append_of_ne_nil (by simp)]
    calc deltaSum p (q :: qs ++ ((p :: q :: qs).reverse.tail ++ rs))
        = qtab p q + deltaSum q (qs ++ ((q :: qs).reverse.tail ++ p :: rs)) := by
          rw [hback, List.append_assoc, List.singleton_append, List.cons_append, deltaSum]
      _ = qtab p q + (qtab q p + deltaSum p rs) := by rw [ih, deltaSum]
      _ = deltaSum p rs := by rw [qtab_antisymm p q]; omega

/-- Settles O23: the deltas of the samples and of their reversal sum to 0. -/
theorem reversalRestoresPosition : Obligations.ReversalRestoresPosition := by
  intro xs ys s hv h hback
  obtain ⟨t, htrace, hpos⟩ := applyTrace_samples (xs ++ ys) hv (rejectsNone_of_filter h)
  have hsum := deltaSum_there_and_back s.prev (xs.map PhaseSample.state) []
  rw [List.append_nil, ← hback, ← List.map_append, deltaSum] at hsum
  rw [hsum, add_zero, BitVec.toInt_bmod_cancel] at hpos
  exact ⟨t, htrace, BitVec.eq_of_toInt_eq hpos⟩

/-! ## The position operations (R85 to R87, R104) -/

/-- Settles O26: the response holds `position`, which is one wrapped number in `PCNT`. -/
theorem getPosResult : Obligations.GetPosResult := by
  intro s
  refine ⟨_, exec_eq _ _, rfl, rfl, rfl, rfl, State.position_edge, fun hv => ?_⟩
  exact (congrArg BitVec.toInt (State.position_pcnt hv)).trans (wrap64_toInt _)

section
variable {s : State}

theorem effect_resetPos_edge (hv : s.cfg.variant = .edge) : effect .resetPos s = (s.setPos 0).respond1 0 := by
  simp [effect, hv]

theorem effect_resetPos_pcnt (hv : s.cfg.variant = .pcnt) : effect .resetPos s = (s.setCounter 0 0).respond1 0 := by
  simp [effect, hv]

theorem effect_setPos_edge (hv : s.cfg.variant = .edge) (v : I64) :
    effect (.setPos v) s = (s.setPos v).respond1 0 := by
  simp [effect, hv]

theorem effect_setPos_pcnt (hv : s.cfg.variant = .pcnt) (v : I64) : effect (.setPos v) s =
    (s.setCounter 0 (wrap64 (Int.tdiv v.toInt (s.cfg.pcntRange * s.cfg.pcntScale)))).respond1 0 := by
  simp [effect, hv, tdiv]

/-- With the register cleared the position is a whole number of ranges (R19). -/
theorem position_setCounter_zero (hv : s.cfg.variant = .pcnt) (o : I64) (r : Lane) :
    ((s.setCounter 0 o).respond1 r).position = wrap64 (o.toInt * (s.cfg.pcntRange * s.cfg.pcntScale)) := by
  rw [State.position_pcnt (by exact hv)]
  simp [mul_assoc]

end

/-- Settles O27, variant by variant. -/
theorem resetPosResult : Obligations.ResetPosResult := by
  intro s
  refine ⟨_, exec_eq _ _, ?_⟩
  cases hv : s.cfg.variant with
  | edge =>
    rw [effect_resetPos_edge hv]
    exact ⟨rfl, State.position_edge hv, fun _ => rfl, nofun⟩
  | pcnt =>
    rw [effect_resetPos_pcnt hv]
    refine ⟨rfl, ?_, nofun, fun _ => rfl⟩
    rw [position_setCounter_zero hv]
    simp [wrap64]

/-- A remainder of a division toward zero lies between 0 and the dividend. -/
theorem tmod_between (v m : Int) :
    (0 ≤ v → 0 ≤ v.tmod m ∧ v.tmod m ≤ v) ∧ (v ≤ 0 → v ≤ v.tmod m ∧ v.tmod m ≤ 0) := by
  have habs : (v.tmod m).natAbs ≤ v.natAbs := by
    rw [Int.natAbs_tmod]
    exact Nat.mod_le _ _
  have hneg := Int.tmod_nonneg (a := -v) m
  have hpos := Int.tmod_nonneg (a := v) m
  rw [Int.neg_tmod] at hneg
  omega

theorem i64_bounds (v : I64) : -(2 ^ 63) ≤ v.toInt ∧ v.toInt ≤ 2 ^ 63 - 1 :=
  ⟨v.le_toInt, Int.le_sub_one_of_lt v.toInt_lt⟩

/-- The overflow counter that `SET_POS` stores needs no wrap (R104). -/
theorem wrap64_tdiv (v : I64) {m : Int} (hm : 0 < m) : (wrap64 (v.toInt.tdiv m)).toInt = v.toInt.tdiv m := by
  have hv := i64_bounds v
  have hquot := tdiv_bounds (n := v.toInt) (a := 2 ^ 63) (b := 2 ^ 63 - 1) hm
    (by omega) (by omega) (by omega) (by omega)
  exact wrap64_toInt_of_range (by omega) (by omega)

/-- Nor does the position it leaves, which lies between 0 and the value asked for. -/
theorem wrap64_tdiv_mul (v : I64) (m : Int) : (wrap64 (v.toInt.tdiv m * m)).toInt = v.toInt.tdiv m * m := by
  have hv := i64_bounds v
  have hrest := tmod_between v.toInt m
  have hdiv := Int.tdiv_mul_add_tmod v.toInt m
  exact wrap64_toInt_of_range (by omega) (by omega)

/-- Settles O28: in `PCNT` the position misses `v` by the remainder of `v` by a whole range. -/
theorem setPosResult : Obligations.SetPosResult := by
  refine ⟨?result, ?zero⟩
  case result =>
    intro v s hc m
    refine ⟨_, exec_eq _ _, ?_⟩
    cases hv : s.cfg.variant with
    | edge =>
      rw [effect_setPos_edge hv]
      exact ⟨rfl, fun _ => ⟨rfl, State.position_edge hv⟩, nofun⟩
    | pcnt =>
      obtain ⟨hrange, -, hscale⟩ := cfgLegal_counter hc
      have hm : 0 < m := mul_pos (by omega) (by omega)
      have hovf : (wrap64 (v.toInt.tdiv m)).toInt = v.toInt.tdiv m := wrap64_tdiv v hm
      have hrest : v.toInt - v.toInt.tdiv m * m = v.toInt.tmod m := by
        rw [Int.tmod_def, mul_comm]
      rw [effect_setPos_pcnt hv, position_setCounter_zero hv, hovf, wrap64_tdiv_mul, hrest]
      refine ⟨rfl, nofun, fun _ => ⟨rfl, hovf, rfl, ?bound, ?sign, fun hdvd => ?exact⟩⟩
      case bound => exact abs_lt.mpr ⟨Int.lt_tmod_of_pos _ hm, Int.tmod_lt_of_pos _ hm⟩
      case sign =>
        obtain ⟨hpos, hneg⟩ := tmod_between v.toInt m
        rcases le_total 0 v.toInt with h | h
        · exact mul_nonneg (hpos h).1 h
        · exact mul_nonneg_of_nonpos_of_nonpos (hneg h).2 h
      case exact => rw [Int.tdiv_mul_cancel hdvd, wrap64, BitVec.ofInt_toInt]
  case zero =>
    intro s
    rw [exec_eq, exec_eq]
    cases hv : s.cfg.variant with
    | edge => rw [effect_setPos_edge hv, effect_resetPos_edge hv]
    | pcnt => rw [effect_setPos_pcnt hv, effect_resetPos_pcnt hv]; simp [wrap64]

/-! ## `SNAPSHOT` (R64, R88) -/

theorem toNat_append_eq {m n : Nat} (x : BitVec m) (y : BitVec n) : (x ++ y).toNat = x.toNat * 2 ^ n + y.toNat := by
  rw [BitVec.toNat_append, ← Nat.shiftLeft_add_eq_or_of_lt y.isLt, Nat.shiftLeft_eq]

theorem timingAvail_toNat (c : Cfg) : (timingAvail c).toNat = if c.variant = .edge then 1 else 0 := by
  unfold timingAvail
  cases c.variant <;> rfl

theorem snapshotR1_toNat (s : State) :
    (snapshotR1 s).toNat = s.lastInterval.toNat * 2 ^ 32 + s.lastEdgeT.toNat :=
  toNat_append_eq _ _

theorem snapshotR2_toNat (s : State) : (snapshotR2 s).toNat =
    s.lastDir.toNat + 4 * s.edgeValid.toNat + 8 * (if s.cfg.variant = .edge then 1 else 0) := by
  rw [← timingAvail_toNat]
  simp only [snapshotR2, toNat_append_eq, BitVec.toNat_ofBool, BitVec.toNat_ofNat]
  omega

/-- Before the first accepted edge, and so always in `VARIANT = PCNT`, the edge timing is 0 (R36, R88). -/
theorem effect_snapshot_no_edge {s : State} (h : Inv s) (hvalid : s.edgeValid = false) :
    effect .snapshot s = s.respond s.position 0 (if s.cfg.variant = .edge then 8 else 0) := by
  obtain ⟨hinterval, htime⟩ := h.fresh hvalid
  have hdir : s.lastDir = 0 := BitVec.eq_of_toInt_eq (h.dir_valid.mpr hvalid)
  have h1 : snapshotR1 s = 0 := BitVec.eq_of_toNat_eq (by rw [snapshotR1_toNat, hinterval, htime]; rfl)
  have h2 : snapshotR2 s = if s.cfg.variant = .edge then 8 else 0 := by
    apply BitVec.eq_of_toNat_eq
    rw [snapshotR2_toNat, hvalid, hdir]
    split <;> rfl
  rw [effect, h1, h2]

/-- Settles O29: the lanes are concatenations; the corner cases are the invariant's fields at 0. -/
theorem snapshotResult : Obligations.SnapshotResult := by
  refine ⟨fun s => ⟨_, exec_eq _ _, rfl, rfl, rfl, snapshotR1_toNat s, snapshotR2_toNat s⟩,
    fun s h => ⟨fun hv => ?pcnt, fun hv hvalid => ?edge⟩⟩
  case pcnt =>
    obtain ⟨-, hvalid, -⟩ := h.pcnt_dead hv
    rw [exec_eq, effect_snapshot_no_edge h hvalid, hv]
    rfl
  case edge =>
    rw [exec_eq, effect_snapshot_no_edge h hvalid, hv]
    rfl

end Sys2Proof.Proofs

namespace Sys2Proof.Proofs

open Sys2Proof.Machine Sys2Proof.Safety Sys2Proof.Laws

/-! ## One sample in `VARIANT = PCNT` (R101) -/

section
variable {s : State} {d : Int} (hd : d = -1 ∨ d = 0 ∨ d = 1) (hrange : s.cfg.pcntRange ≤ 2 ^ 15 - 1)
  (hlow : -(s.cfg.pcntRange : Int) < s.pcntReg.toInt) (hhigh : s.pcntReg.toInt < s.cfg.pcntRange)
include hd hrange hlow hhigh

/-- A register inside its limits moves by one without a wrap. -/
theorem wrap16_count : (wrap16 (s.pcntReg.toInt + d)).toInt = s.pcntReg.toInt + d :=
  wrap16_toInt_of_range (by omega) (by omega)

theorem countBounded_counter :
    let t := s.countBounded d
    let r := s.pcntReg.toInt + d
    if r = s.cfg.pcntRange then t.pcntReg = 0 ∧ t.ovf.toInt = (s.ovf.toInt + 1).bmod (2 ^ 64)
    else if r = -(s.cfg.pcntRange : Int) then t.pcntReg = 0 ∧ t.ovf.toInt = (s.ovf.toInt - 1).bmod (2 ^ 64)
    else t.pcntReg.toInt = r ∧ t.ovf = s.ovf := by
  intro t r
  obtain ⟨htop, e⟩ | ⟨htop, hbottom, e⟩ | ⟨htop, hbottom, e⟩ := s.countBounded_cases d
  · rw [if_pos htop, show t = _ from e]
    exact ⟨rfl, wrap64_toInt _⟩
  · rw [if_neg htop, if_pos hbottom, show t = _ from e]
    exact ⟨rfl, wrap64_toInt _⟩
  · rw [if_neg htop, if_neg hbottom, show t = _ from e]
    exact ⟨wrap16_count hd hrange hlow hhigh, rfl⟩

end

/-- Settles O24: a sample that counts writes the counter and nothing else but `PREV`. -/
theorem phasePcntResult : Obligations.PhasePcntResult := by
  intro a b now s hv hrange hlow hhigh d r
  refine ⟨_, exec_eq _ _, ?_⟩
  rw [effect_phase_pcnt hv]
  obtain ⟨hzero, e⟩ | ⟨hcounts, e⟩ := phasePcnt_cases (phaseState a b) s
  · rw [e, if_pos hzero]
    exact ⟨phaseState_toNat a b, ⟨rfl, rfl⟩, rfl, rfl, rfl, rfl, rfl, rfl, rfl, rfl, rfl, rfl, rfl, rfl⟩
  · have hcounter := countBounded_counter (s := s.setPrev (phaseState a b)) (d := d) (qtab_values _ _) hrange hlow hhigh
    obtain ⟨r', o, hcount⟩ := countBounded_eq_setCounter (s.setPrev (phaseState a b)) d
    rw [hcount] at hcounter
    rw [e, if_neg hcounts, hcount]
    exact ⟨phaseState_toNat a b, hcounter, rfl, rfl, rfl, rfl, rfl, rfl, rfl, rfl, rfl, rfl, rfl, rfl⟩

/-! ## The position in `VARIANT = PCNT` is continuous (R102) -/

/-- Sums and products are wrapped once, whether or not a factor was wrapped before. -/
theorem wrap64_of_wrapped (n a b c : Int) : wrap64 (((wrap64 n).toInt * a + b) * c) = wrap64 ((n * a + b) * c) := by
  simp only [wrap64, BitVec.ofInt_mul, BitVec.ofInt_add, BitVec.ofInt_toInt]

section
variable {s : State} (hv : s.cfg.variant = .pcnt)
include hv

/-- A carry `k` into the overflow counter takes `k` ranges from the register, so the position moves by the rest. -/
theorem position_setCounter_carry {r : I16} {d k : Int}
    (hr : r.toInt + k * s.cfg.pcntRange = s.pcntReg.toInt + d) :
    (s.setCounter r (wrap64 (s.ovf.toInt + k))).position.toInt =
      (s.position.toInt + d * s.cfg.pcntScale).bmod (2 ^ 64) := by
  have hsum : ((s.ovf.toInt + k) * s.cfg.pcntRange + r.toInt) * s.cfg.pcntScale =
      (s.ovf.toInt * s.cfg.pcntRange + s.pcntReg.toInt) * s.cfg.pcntScale + d * s.cfg.pcntScale := by
    linear_combination (s.cfg.pcntScale : Int) * hr
  calc (s.setCounter r (wrap64 (s.ovf.toInt + k))).position.toInt
      = (wrap64 (((s.ovf.toInt + k) * s.cfg.pcntRange + r.toInt) * s.cfg.pcntScale)).toInt := by
        rw [← wrap64_of_wrapped (s.ovf.toInt + k), State.position_pcnt (by exact hv)]; rfl
    _ = (s.position.toInt + d * s.cfg.pcntScale).bmod (2 ^ 64) := by
        rw [hsum, State.position_pcnt hv, wrap64_toInt, wrap64_toInt, Int.bmod_add_bmod]

variable (hrange : s.cfg.pcntRange ≤ 2 ^ 15 - 1)
  (hlow : -(s.cfg.pcntRange : Int) < s.pcntReg.toInt) (hhigh : s.pcntReg.toInt < s.cfg.pcntRange)
include hrange hlow hhigh

theorem position_countBounded {d : Int} (hd : d = -1 ∨ d = 0 ∨ d = 1) :
    (s.countBounded d).position.toInt = (s.position.toInt + d * s.cfg.pcntScale).bmod (2 ^ 64) := by
  obtain ⟨htop, e⟩ | ⟨-, hbottom, e⟩ | ⟨-, -, e⟩ := s.countBounded_cases d
  · rw [e]
    exact position_setCounter_carry hv (by simp [htop])
  · rw [e]
    exact position_setCounter_carry hv (by simp [hbottom])
  · have hovf : wrap64 (s.ovf.toInt + 0) = s.ovf := by simp [wrap64]
    rw [e, ← hovf]
    exact position_setCounter_carry hv (by simp [wrap16_count hd hrange hlow hhigh])

theorem position_phasePcnt (new : PhaseState) :
    (phasePcnt new s).position.toInt = (s.position.toInt + qtab s.prev new * s.cfg.pcntScale).bmod (2 ^ 64) := by
  obtain ⟨hzero, e⟩ | ⟨-, e⟩ := phasePcnt_cases new s
  · rw [e, hzero, zero_mul, add_zero]
    exact (BitVec.toInt_bmod_cancel s.position).symm
  · rw [e]
    exact position_countBounded (s := s.setPrev new) hv hrange hlow hhigh (qtab_values _ _)

end

/-- Settles O25: a limit event carries one range from the register into the overflow counter. -/
theorem pcntPositionIsContinuous : Obligations.PcntPositionIsContinuous := by
  intro a b now s t hv hrange hlow hhigh ht
  obtain rfl := exec_next ht
  rw [effect_phase_pcnt hv]
  exact position_phasePcnt hv hrange hlow hhigh _

/-! ## The two variants side by side (R105) -/

section
variable (s : State)

theorem effect_phase_prev (a b : Bool) (now : U32) : (effect (.phase a b now) s).prev = phaseState a b := by
  cases hv : s.cfg.variant with
  | edge =>
    rw [effect_phase_edge hv]
    obtain ⟨-, e⟩ | ⟨-, e⟩ := phaseEdge_cases (phaseState a b) now s <;> simp [e]
  | pcnt =>
    rw [effect_phase_pcnt hv]
    obtain ⟨-, e⟩ | ⟨-, e⟩ := phasePcnt_cases (phaseState a b) s
    · simp [e]
    · obtain ⟨r, o, hcount⟩ := countBounded_eq_setCounter (s.setPrev (phaseState a b)) (qtab s.prev (phaseState a b))
      simp [e, hcount]

theorem effect_init_position (a b z : Bool) (now : U32) : (effect (.init a b z now) s).position = 0 := by
  cases hv : s.cfg.variant with
  | edge => exact State.position_edge hv
  | pcnt => rw [State.position_pcnt (by exact hv)]; simp [effect, wrap64]

theorem effect_resetPos_out_position :
    (effect .resetPos s).out = ⟨true, 0, 0, 0⟩ ∧ (effect .resetPos s).position = 0 := by
  obtain ⟨t, ht, hout, hpos, -⟩ := resetPosResult s
  obtain rfl := exec_next ht
  exact ⟨hout, hpos⟩

theorem effect_setPos_out (v : I64) : (effect (.setPos v) s).out = ⟨true, 0, 0, 0⟩ := by
  simp only [effect]
  split <;> rfl

end

/-- `SET_POS` is exact in both variants on a whole number of ranges (R87, R104). -/
theorem effect_setPos_position {s : State} (hc : cfgLegal s.cfg = true) {v : I64}
    (hv : ((s.cfg.pcntRange * s.cfg.pcntScale : Nat) : Int) ∣ v.toInt) : (effect (.setPos v) s).position = v := by
  obtain ⟨t, ht, -, hedge, hpcnt⟩ := setPosResult.1 v s hc
  obtain rfl := exec_next ht
  cases hvar : s.cfg.variant with
  | edge => exact (hedge hvar).2
  | pcnt =>
    obtain ⟨-, -, -, -, -, hexact⟩ := hpcnt hvar
    exact hexact (by exact_mod_cast hv)

/-- The relation R105 rests on, between a state `s` of the edge decoder and a state `t` of the bounded counter, built
with the same `CFG` but for `VARIANT`. -/
structure SamePosition (c : Cfg) (s t : State) : Prop where
  edge_cfg : s.cfg = { c with variant := .edge }
  pcnt_cfg : t.cfg = { c with variant := .pcnt }
  prev : s.prev = t.prev
  position : s.position = t.position
  inv : Inv t

theorem samePosition_resetWith {c : Cfg} (hc : cfgLegal c = true) :
    SamePosition c (State.resetWith { c with variant := .edge }) (State.resetWith { c with variant := .pcnt }) where
  edge_cfg := rfl
  pcnt_cfg := rfl
  prev := rfl
  position := by simp [State.position, wrap64]
  inv := inv_resetWith hc

/-- An event of R105's traces, or the `INIT` they may begin with. -/
def InitOrTransparent (c : Cfg) (i : Instr) : Prop := isInit i = true ∨ transparentEvent c i

section
variable {c : Cfg} {s t : State} (h : SamePosition c s t)
include h

theorem samePosition_prev (i : Instr) : (effect i s).prev = (effect i t).prev := by
  cases i with
  | init => rfl
  | phase => rw [effect_phase_prev, effect_phase_prev]
  | _ => rw [(effect_edgeTiming_unchanged s rfl).1, (effect_edgeTiming_unchanged t rfl).1, h.prev]

theorem samePosition_position_unchanged {i : Instr} (hw : Field.writers .pos i = false) :
    (effect i s).position = (effect i t).position := by
  have hkept : ∀ u, (effect i u).position = u.position := fun u => by
    obtain ⟨hpos, hreg, hovf⟩ := effect_position_unchanged u hw
    exact State.position_congr (effect_cfg i u).1 hpos hovf hreg
  rw [hkept, hkept, h.position]

theorem samePosition_phase (hscale : c.pcntScale = 1) (hglitch : c.glitchUs = 0) (x : PhaseSample) :
    (effect x.event s).position = (effect x.event t).position := by
  have hedge : s.cfg.variant = .edge := by rw [h.edge_cfg]
  have hpcnt : t.cfg.variant = .pcnt := by rw [h.pcnt_cfg]
  obtain ⟨hlow, hhigh⟩ := h.inv.reg_inside
  have hrange := (cfgLegal_counter h.inv.cfg_legal).2.1
  have hfilter : s.cfg.glitchUs = 0 := by rw [h.edge_cfg, hglitch]
  obtain ⟨hcfg, -, hpos, -⟩ := phaseEdge_of_rejectsNone (xs := []) (rejectsNone_of_filter (.inl hfilter) :
    rejectsNone s.cfg.glitchUs s.prev s.edgeValid s.lastEdgeT [x] = true)
  apply BitVec.eq_of_toInt_eq
  calc (effect x.event s).position.toInt
      = (phaseEdge x.state x.now s).pos.toInt := by
        rw [effect_sample_edge hedge, State.position_edge (by rw [State.quiet_cfg, hcfg, hedge])]; rfl
    _ = (t.position.toInt + qtab t.prev x.state * t.cfg.pcntScale).bmod (2 ^ 64) := by
        rw [hpos, ← h.position, State.position_edge hedge, h.prev, h.pcnt_cfg, hscale, Nat.cast_one, mul_one]
    _ = (effect x.event t).position.toInt := by
        rw [← position_phasePcnt hpcnt hrange hlow hhigh]
        exact (congrArg (fun u : State => u.position.toInt) (effect_phase_pcnt hpcnt x.a x.b x.now)).symm

theorem samePosition_effect_position (hscale : c.pcntScale = 1) (hglitch : c.glitchUs = 0) {i : Instr}
    (hi : InitOrTransparent c i) : (effect i s).position = (effect i t).position := by
  cases i with
  | init => rw [effect_init_position, effect_init_position]
  | phase a b now => exact samePosition_phase h hscale hglitch ⟨a, b, now⟩
  | resetPos => rw [(effect_resetPos_out_position s).2, (effect_resetPos_out_position t).2]
  | setPos v =>
    have hv : (c.pcntRange : Int) ∣ v.toInt := hi.resolve_left nofun
    have hc := h.inv.cfg_legal
    rw [h.pcnt_cfg] at hc
    have hs : cfgLegal s.cfg = true := by rw [h.edge_cfg]; exact hc
    rw [effect_setPos_position hs (by simpa [h.edge_cfg, hscale] using hv),
      effect_setPos_position h.inv.cfg_legal (by simpa [h.pcnt_cfg, hscale] using hv)]
  | _ => exact samePosition_position_unchanged h rfl

theorem samePosition_effect (hscale : c.pcntScale = 1) (hglitch : c.glitchUs = 0) {i : Instr}
    (hi : InitOrTransparent c i) : SamePosition c (effect i s) (effect i t) where
  edge_cfg := (effect_cfg i s).1.trans h.edge_cfg
  pcnt_cfg := (effect_cfg i t).1.trans h.pcnt_cfg
  prev := samePosition_prev h i
  position := samePosition_effect_position h hscale hglitch hi
  inv := inv_effect h.inv i

/-- What the host sees of the position in lane `r0` comes from `position` alone. -/
theorem samePosition_out {i : Instr} (hi : InitOrTransparent c i) :
    (effect i s).out.valid = (effect i t).out.valid ∧ (effect i s).out.r0 = (effect i t).out.r0 := by
  cases i with
  | init | index => exact ⟨rfl, rfl⟩
  | phase a b now =>
    rw [effect_phase_edge (by rw [h.edge_cfg]), effect_phase_pcnt (by rw [h.pcnt_cfg])]
    exact ⟨rfl, rfl⟩
  | getPos | snapshot => exact ⟨rfl, h.position⟩
  | resetPos => simp [effect_resetPos_out_position]
  | setPos v => simp [effect_setPos_out]
  | _ => simp [InitOrTransparent, transparentEvent, isInit] at hi

end

/-- Related states answer a trace alike: each event keeps the relation and answers the same `r0`. -/
theorem samePosition_applyTrace {c : Cfg} (hscale : c.pcntScale = 1) (hglitch : c.glitchUs = 0) {tr : List Instr}
    (htr : ∀ i ∈ tr, InitOrTransparent c i) {s t : State} (h : SamePosition c s t) :
    ∃ s' rs t' qs, applyTrace tr s = some (s', rs) ∧ applyTrace tr t = some (t', qs) ∧
      rs.map (fun p => (p.1, p.2.r0)) = qs.map (fun p => (p.1, p.2.r0)) := by
  induction tr generalizing s t with
  | nil => exact ⟨s, [], t, [], rfl, rfl, rfl⟩
  | cons i tr ih =>
    obtain ⟨hi, htr⟩ := List.forall_mem_cons.mp htr
    obtain ⟨s', rs, t', qs, hs, ht, hanswers⟩ := ih htr (samePosition_effect h hscale hglitch hi)
    obtain ⟨hvalid, hr0⟩ := samePosition_out h hi
    refine ⟨s', _, t', _, by rw [applyTrace_cons, hs]; rfl, by rw [applyTrace_cons, ht]; rfl, ?_⟩
    rw [hvalid]
    split
    · rw [List.map_cons, List.map_cons, hanswers, hr0]
    · exact hanswers

/-- Settles O30: the reset states are related, and so are they along every such trace. -/
theorem variantsAreTransparent : Obligations.VariantsAreTransparent := by
  intro c tr hc hscale hglitch htr pre hpre
  have htrace : ∀ i ∈ pre ++ tr, InitOrTransparent c i := by
    intro i hi
    obtain hi | hi := List.mem_append.mp hi
    · obtain rfl | ⟨a, b, z, now, rfl⟩ := hpre
      · cases hi
      · exact .inl (by rw [List.mem_singleton.mp hi]; rfl)
    · exact .inr (htr i hi)
  exact samePosition_applyTrace hscale hglitch htrace (samePosition_resetWith hc)

end Sys2Proof.Proofs

namespace Sys2Proof.Proofs

open Sys2Proof.Machine Sys2Proof.Safety Sys2Proof.Laws

/-! ## The latch under one event (R116, R117)

An event raises the level from `PREV_Z` as often as its own one-event trace does, `risings s.prevZ [i]`: 0 or 1. -/

/-- Each event leaves in `PREV_Z` the level that the next `INDEX` sample is compared with. -/
theorem risings_cons (i : Instr) (tr : List Instr) (s : State) :
    risings s.prevZ (i :: tr) = risings s.prevZ [i] + risings (effect i s).prevZ tr := by
  cases i with
  | index | init => simp [risings, effect]
  | _ => rw [effect_prevZ_unchanged s rfl]; simp [risings]

/-- Between two clearings of the latch, an event sets the flag exactly when the line rises. -/
theorem effect_idxFlag_iff {i : Instr} (hget : i ≠ .getIndex) (hinit : isInit i = false) (s : State) :
    (effect i s).idxFlag = true ↔ s.idxFlag = true ∨ 0 < risings s.prevZ [i] := by
  cases i with
  | getIndex => exact absurd rfl hget
  | init => cases hinit
  | index z => cases hrise : indexRises s.prevZ z <;> simp [effect, idxFlagAfter, risings, hrise]
  | _ => rw [effect_idxFlag_unchanged s rfl]; simp [risings]

/-- Nothing but an `INDEX` sets the flag. -/
theorem effect_idxFlag_clear {i : Instr} (hindex : isIndex i = false) {s : State} (h : s.idxFlag = false) :
    (effect i s).idxFlag = false := by
  cases i with
  | index => cases hindex
  | init | getIndex => simp [effect]
  | _ => rw [effect_idxFlag_unchanged s rfl, h]

/-- Settles O31: the flag after the event is `idxFlagAfter`, and `PREV_Z` the level sampled. -/
theorem indexResult : Obligations.IndexResult := by
  intro z s
  refine ⟨_, exec_eq _ _, rfl, ?_, rfl, rfl⟩
  simp [effect, idxFlagAfter, indexRises]

/-- Settles O32: the response holds the flag in one lane. -/
theorem getIndexResult : Obligations.GetIndexResult := by
  intro s
  refine ⟨_, exec_eq _ _, rfl, rfl, ?_, rfl, rfl⟩
  cases h : s.idxFlag <;> simp [effect, laneOfBool, h]

/-! ## The answers of a trace (R118) -/

/-- What one event adds to the answers of `GET_INDEX`. -/
def indexAnswerOf (i : Instr) (s : State) : List Lane := if i = .getIndex then [laneOfBool s.idxFlag] else []

theorem applyTrace_cons_answers {i : Instr} {tr : List Instr} {s t : State} {rs : List (Instr × Response)}
    (h : applyTrace (i :: tr) s = some (t, rs)) :
    ∃ qs, applyTrace tr (effect i s) = some (t, qs) ∧ indexAnswers rs = indexAnswerOf i s ++ indexAnswers qs := by
  obtain ⟨t', qs, htr⟩ := applyTrace_some tr (effect i s)
  rw [applyTrace_cons, htr] at h
  obtain ⟨rfl, rfl⟩ := Prod.mk.inj (Option.some.inj h)
  refine ⟨qs, htr, ?_⟩
  by_cases hi : i = .getIndex
  · subst hi; rfl
  · rw [indexAnswerOf, if_neg hi, List.nil_append]
    split
    · exact indexAnswers_other hi _ _
    · rfl

theorem indexAnswers_of_no_getIndex {tr : List Instr} (htr : ∀ i ∈ tr, i ≠ .getIndex) {s t : State}
    {rs : List (Instr × Response)} (h : applyTrace tr s = some (t, rs)) : indexAnswers rs = [] := by
  induction tr generalizing s rs with
  | nil => obtain ⟨-, rfl⟩ := Prod.mk.inj (Option.some.inj h); rfl
  | cons i tr ih =>
    obtain ⟨hi, htr⟩ := List.forall_mem_cons.mp htr
    obtain ⟨qs, hqs, hanswers⟩ := applyTrace_cons_answers h
    rw [hanswers, ih htr hqs, indexAnswerOf, if_neg hi, List.nil_append]

/-! ## Reports against rising transitions (R118) -/

theorem indexReports_eq_count (rs : List (Instr × Response)) : indexReports rs = (indexAnswers rs).count 1 := by
  simp [indexReports, indexAnswers, List.count, List.countP_map, List.countP_filter, Function.comp_def, Bool.and_comm]

/-- One event pays for a report with the flag, and for the flag with a rising transition. -/
theorem indexAnswerOf_balance (i : Instr) (s : State) :
    (indexAnswerOf i s).count 1 + (if (effect i s).idxFlag = true then 1 else 0) ≤
      risings s.prevZ [i] + (if s.idxFlag = true then 1 else 0) := by
  by_cases hget : i = .getIndex
  · subst hget
    cases hflag : s.idxFlag <;> simp [indexAnswerOf, effect, hflag, laneOfBool]
  · rw [indexAnswerOf, if_neg hget, List.count_nil]
    cases hinit : isInit i with
    | true =>
      cases i with
      | init => simp [effect]
      | _ => cases hinit
    | false =>
      have hset := effect_idxFlag_iff hget hinit s
      split
      · obtain hflag | hrise := hset.mp ‹_›
        · simp [hflag]
        · omega
      · exact Nat.zero_le _

theorem indexReports_le_risings {tr : List Instr} {s t : State} {rs : List (Instr × Response)}
    (h : applyTrace tr s = some (t, rs)) :
    indexReports rs ≤ risings s.prevZ tr + (if s.idxFlag = true then 1 else 0) := by
  rw [indexReports_eq_count]
  induction tr generalizing s rs with
  | nil => obtain ⟨-, rfl⟩ := Prod.mk.inj (Option.some.inj h); simp
  | cons i tr ih =>
    obtain ⟨qs, hqs, hanswers⟩ := applyTrace_cons_answers h
    have hbalance := indexAnswerOf_balance i s
    have hrest := ih hqs
    rw [hanswers, List.count_append, risings_cons]
    omega

/-- Settles O33: no event reports more than the flag and its own rising transition allow. -/
theorem indexReportsAtMostRisings : Obligations.IndexReportsAtMostRisings := by
  intro tr s
  obtain ⟨t, rs, h⟩ := applyTrace_some tr s
  exact ⟨t, rs, h, indexReports_le_risings h⟩

/-! ## One report for any number of rising transitions (R118) -/

/-- Between two clearings of the latch, a trace sets the flag exactly when the line rises in it. -/
theorem applyTrace_idxFlag_iff {tr : List Instr} (htr : ∀ i ∈ tr, i ≠ .getIndex ∧ isInit i = false)
    {s t : State} {rs : List (Instr × Response)} (h : applyTrace tr s = some (t, rs)) :
    t.idxFlag = true ↔ s.idxFlag = true ∨ 0 < risings s.prevZ tr := by
  induction tr generalizing s rs with
  | nil => obtain ⟨rfl, -⟩ := Prod.mk.inj (Option.some.inj h); simp [risings]
  | cons i tr ih =>
    obtain ⟨⟨hget, hinit⟩, htr⟩ := List.forall_mem_cons.mp htr
    obtain ⟨qs, hqs, -⟩ := applyTrace_cons_answers h
    rw [ih htr hqs, effect_idxFlag_iff hget hinit, risings_cons i tr s, Nat.add_pos_iff_pos_or_pos, or_assoc]

theorem applyTrace_idxFlag_clear {tr : List Instr} (htr : ∀ i ∈ tr, isIndex i = false) {s t : State}
    {rs : List (Instr × Response)} (h : applyTrace tr s = some (t, rs)) (hflag : s.idxFlag = false) :
    t.idxFlag = false := by
  induction tr generalizing s rs with
  | nil => obtain ⟨rfl, -⟩ := Prod.mk.inj (Option.some.inj h); exact hflag
  | cons i tr ih =>
    obtain ⟨hi, htr⟩ := List.forall_mem_cons.mp htr
    obtain ⟨qs, hqs, -⟩ := applyTrace_cons_answers h
    exact ih htr hqs (effect_idxFlag_clear hi hflag)

/-- The answers of two `GET_INDEX`, each after a part of a trace that holds none: the flag at either. -/
theorem applyTrace_two_getIndex {xs ys : List Instr} {s t u : State} {rs qs : List (Instr × Response)}
    (hx : ∀ i ∈ xs, i ≠ .getIndex) (hy : ∀ i ∈ ys, i ≠ .getIndex) (hxs : applyTrace xs s = some (t, rs))
    (hys : applyTrace ys (effect .getIndex t) = some (u, qs)) :
    ∃ v ws, applyTrace (xs ++ [.getIndex] ++ ys ++ [.getIndex]) s = some (v, ws) ∧
      indexAnswers ws = [laneOfBool t.idxFlag, laneOfBool u.idxFlag] := by
  have hget (w : State) :
      applyTrace [.getIndex] w = some (effect .getIndex w, [(.getIndex, (effect .getIndex w).out)]) := rfl
  have hfirst := applyTrace_append hxs [.getIndex]
  rw [hget] at hfirst
  have hpart := applyTrace_append hfirst ys
  rw [hys] at hpart
  have hwhole := applyTrace_append hpart [.getIndex]
  rw [hget] at hwhole
  refine ⟨_, _, hwhole, ?_⟩
  simp [indexAnswers_of_no_getIndex hx hxs, indexAnswers_of_no_getIndex hy hys, effect]

/-- Settles O34: the rising transitions set the flag, the first `GET_INDEX` clears it, and nothing after it sets it. -/
theorem risingIsReportedOnce : Obligations.RisingIsReportedOnce := by
  intro mid quietTail s hmid hrise hquiet
  obtain ⟨t, rs, ht⟩ := applyTrace_some mid s
  obtain ⟨u, qs, hu⟩ := applyTrace_some quietTail (effect .getIndex t)
  have hset : t.idxFlag = true := (applyTrace_idxFlag_iff hmid ht).mpr (.inr hrise)
  have hclear : u.idxFlag = false := applyTrace_idxFlag_clear (fun i hi => (hquiet i hi).2) hu rfl
  obtain ⟨v, ws, hv, hanswers⟩ :=
    applyTrace_two_getIndex (fun i hi => (hmid i hi).1) (fun i hi => (hquiet i hi).1) ht hu
  refine ⟨v, ws, hv, ?_⟩
  rw [hanswers, hset, hclear]
  rfl

end Sys2Proof.Proofs

namespace Sys2Proof.Proofs

open Sys2Proof.Machine Sys2Proof.Safety Sys2Proof.Laws

/-! ## Samples (R125, R135) -/

/-- Settles O8: bit 23 is the sign, and the accumulator has room for one more sample (R135). -/
theorem sampleValue : Obligations.SampleValue := by
  intro smp
  rw [sext32_toInt]
  obtain ⟨hlow, hhigh⟩ := sample_bounds smp
  refine ⟨?_, hlow, hhigh, fun c k hk => sampled_spec hk true smp⟩
  rw [BitVec.toInt_eq_toNat_cond]
  exact if_congr (by omega) rfl rfl

/-! ## An operation on a record that exists -/

/-- What an operation that writes the record of its channel leaves, with the response 0 (R127, R130, R131). -/
theorem setChan_respond1_spec {s : State} {ch : ChanIx} {k : Channel} (hk : s.chan ch = some k) (k' : Channel) :
    ((s.setChan ch k').respond1 0).chan ch = some k' ∧ onlyChannel ch s ((s.setChan ch k').respond1 0) ∧
      ((s.setChan ch k').respond1 0).out = ⟨true, 0, 0, 0⟩ :=
  ⟨State.chan_setChan_same hk k', setChan_onlyChannel s ch k' 0, rfl⟩

section
variable {s : State} {ch : ChanIx} {k : Channel} (hk : s.chan ch = some k)
include hk

theorem exec_lcPoll_some (ready : Bool) (smp : Sample) (now : U32) : exec (.lcPoll ch ready smp now) s =
    .next ((s.setChan ch (k.poll s.cfg ch.toNat ready smp now)).respond1 0) := by
  rw [exec_eq, effect, onChannel_some hk]

theorem exec_tare_some :
    exec (.tare ch) s = .next ((s.setChan ch { k with offset := k.lastRaw }).respond1 0) := by
  rw [exec_eq, effect, onChannel_some hk]

theorem exec_calibrate_accepted {wt : F32} (hwt : f32Gt0 wt = true) : exec (.calibrate ch wt) s =
    .next ((s.setChan ch
      { k with scale := f32Div (i32ToF32 (k.lastRaw - k.offset)) wt (Config.freeNaN ch.toNat k.nanDraws) }
    ).respond1 0) := by
  rw [exec_eq, effect, onChannel_some hk, calibrated, if_pos hwt]

theorem exec_calibrate_rejected {wt : F32} (hwt : f32Gt0 wt = false) :
    exec (.calibrate ch wt) s = .next (s.respond1 0) := by
  rw [exec_eq, effect, onChannel_some hk, calibrated, if_neg (by simp [hwt])]

end

/-- Settles O39: one field of one record is written. -/
theorem tareResult : Obligations.TareResult :=
  ⟨fun _ _ _ hk => ⟨_, exec_tare_some hk, setChan_respond1_spec hk _⟩,
    fun s ch hn => missingChannelIsSilent s ch _ hn rfl⟩

/-- Settles O42: each accessor responds with one field, and the lanes are as wide as R63 asks. -/
theorem accessorResults : Obligations.AccessorResults := by
  refine ⟨fun s ch k hk => ?accessors, fun s ch i hn hi => missingChannelIsSilent s ch i hn ?missing⟩
  case accessors =>
    simp only [exec_eq, effect, onChannel_some hk]
    refine ⟨⟨_, rfl, rfl, rfl, ?force, rfl, rfl⟩, ⟨_, rfl, rfl, rfl, ?raw, rfl, rfl⟩,
      ⟨_, rfl, rfl, rfl, ?scale, rfl, rfl⟩⟩
    case force => exact BitVec.toNat_setWidth_of_le (by decide)
    case raw => exact BitVec.toInt_signExtend_of_le (by decide)
    case scale => exact BitVec.toNat_setWidth_of_le (by decide)
  case missing => obtain rfl | rfl | rfl := hi <;> rfl

/-! ## `LC_POLL` (R127, R128) -/

section
variable {c : Cfg} {k : Channel} (h : ChannelInv c k) (ix : Nat) {ready : Bool} (smp : Sample) {now : U32}
include h

/-- The flush test of a poll in numbers: no sample is lost from the count. -/
theorem flushDue_sampled_iff : flushDue c (k.sampled ready smp).cnt now k.lastFlushT = true ↔
    1 ≤ k.cnt.toNat + ready.toNat ∧ (c.oversample.toNat ≤ k.cnt.toNat + ready.toNat ∨
      (c.flushTimeoutUs.toNat : Int) ≤ ((now.toNat : Int) - k.lastFlushT.toNat) % 2 ^ 32) := by
  rw [flushDue_iff, (sampled_spec h ready smp).2]

theorem poll_of_not_due (hdue : k.cnt.toNat + ready.toNat = 0 ∨
      (k.cnt.toNat + ready.toNat < c.oversample.toNat ∧
        ((now.toNat : Int) - k.lastFlushT.toNat) % 2 ^ 32 < (c.flushTimeoutUs.toNat : Int))) :
    k.poll c ix ready smp now = k.sampled ready smp := by
  obtain ⟨-, e⟩ | ⟨hflush, -⟩ := Channel.poll_cases k c ix ready smp now
  · exact e
  · rw [flushDue_sampled_iff h] at hflush
    omega

theorem poll_of_due (hpos : 1 ≤ k.cnt.toNat + ready.toNat)
    (hdue : c.oversample.toNat ≤ k.cnt.toNat + ready.toNat ∨
      (c.flushTimeoutUs.toNat : Int) ≤ ((now.toNat : Int) - k.lastFlushT.toNat) % 2 ^ 32) :
    k.poll c ix ready smp now = (k.sampled ready smp).flush c ix now := by
  obtain ⟨hflush, -⟩ | ⟨-, e⟩ := Channel.poll_cases k c ix ready smp now
  · rw [← Bool.not_eq_true, flushDue_sampled_iff h] at hflush
    exact absurd ⟨hpos, hdue⟩ hflush
  · exact e

end

/-- Settles O36: with no flush due the poll leaves the sampled record. -/
theorem pollAccumulates : Obligations.PollAccumulates := by
  intro s ch k ready smp now hk hinv hdue
  obtain ⟨hsum, hcnt⟩ := sampled_spec hinv ready smp
  have hexec := exec_lcPoll_some hk ready smp now
  rw [poll_of_not_due hinv _ smp hdue] at hexec
  obtain ⟨hchan, honly, hout⟩ := setChan_respond1_spec hk (k.sampled ready smp)
  exact ⟨_, _, hexec, hchan, honly, hout, hsum, hcnt, sampled_offset .., sampled_tared .., sampled_scale ..,
    sampled_lastRaw .., sampled_filt .., sampled_lastFlushT ..⟩

theorem instForce_alike (scale : F32) (diff : I32) (w w' : F32) :
    f32Alike (instForce scale diff w) (instForce scale diff w') := by
  unfold instForce
  split
  · exact f32Div_alike ..
  · exact .refl _

/-- The filter step depends on the free value only in which NaN it gives. -/
theorem iirStep_alike (beta : F32) {inst inst' : F32} (hinst : f32Alike inst inst') (filt w w' : F32) :
    f32Alike (iirStep beta inst filt w) (iirStep beta inst' filt w') :=
  f32Add_alike (f32Mul_alike (.refl beta) hinst w w')
    (f32Mul_alike (f32Add_alike (.refl _) (.refl _) w w') (.refl filt) w w') w w'

/-- The force that a flush stores is the filter step of the difference it leaves in the record. -/
theorem flush_filt_alike (k : Channel) (c : Cfg) (ix : Nat) (now : U32) (w : F32) :
    f32Alike (k.flush c ix now).filt
      (iirStep c.beta (instForce k.scale ((k.flush c ix now).lastRaw - (k.flush c ix now).offset) w) k.filt w) :=
  iirStep_alike c.beta (instForce_alike ..) k.filt _ w

/-- Settles O37: a due poll flushes the sampled record, and the difference is exact because the record it leaves meets
the invariant. -/
theorem pollFlushes : Obligations.PollFlushes := by
  intro s ch k ready smp now hk hinv hpos hdue sum cnt
  have hexec := exec_lcPoll_some hk ready smp now
  have hkept := poll_keeps hinv ch.toNat ready smp now
  rw [poll_of_due hinv _ smp hpos hdue] at hexec hkept
  obtain ⟨hchan, honly, hout⟩ := setChan_respond1_spec hk ((k.sampled ready smp).flush s.cfg ch.toNat now)
  obtain ⟨-, hdiff, -⟩ := channelInv_difference hkept
  have hraw := (average_spec hinv ready smp hpos).1
  push_cast at hraw
  refine ⟨_, _, _, hexec, hchan, honly, hout, hraw, rfl, ?offset, rfl, rfl, sampled_scale .., rfl, hdiff,
    fun w => ?filt⟩
  case offset => simp [Channel.flush, offsetAfterFlush]
  case filt =>
    have hfilt := flush_filt_alike (k.sampled ready smp) s.cfg ch.toNat now w
    rwa [sampled_scale, sampled_filt] at hfilt

/-! ## `CALIBRATE` (R131) -/

/-- The free value plays no part in a quotient that is no NaN. -/
theorem f32Div_by_positive_congr {x y : F32} (hx : f32IsFinite x = true) (hy : f32Gt0 y = true) (w w' : F32) :
    f32Div x y w = f32Div x y w' := by
  obtain h | ⟨h, -⟩ := f32Div_alike x y w w'
  · exact h
  · rw [f32Div_by_positive hx hy w] at h
    cases h

/-- Settles O40: the quotient is of an exact difference, and no NaN. -/
theorem calibrateResult : Obligations.CalibrateResult := by
  refine ⟨fun s ch k wt hk hinv => ?_, fun s ch wt hn => missingChannelIsSilent s ch _ hn rfl⟩
  have hdiff := (channelInv_difference hinv).2.1
  cases hwt : f32Gt0 wt with
  | true =>
    have hfinite := i32ToF32_finite (k.lastRaw - k.offset)
    refine ⟨_, _, exec_calibrate_accepted hk hwt, rfl, hdiff,
      fun _ => ⟨setChan_onlyChannel .., fun w => ⟨f32Div_by_positive hfinite hwt w, ?_⟩⟩, nofun⟩
    rw [f32Div_by_positive_congr hfinite hwt w]
    exact State.chan_setChan_same hk _
  | false => exact ⟨_, _, exec_calibrate_rejected hk hwt, rfl, hdiff, nofun, fun _ => rfl⟩

/-! The source's example (R137 a, S6). -/

/-- The quotients on patterns: 5000 by 10.0 is 500.0, and 5000 by 500.0 is 10.0. -/
theorem f32Div_example (w : F32) :
    f32Div (i32ToF32 5000) 0x41200000 w = 0x43FA0000 ∧ f32Div (i32ToF32 5000) 0x43FA0000 w = 0x41200000 := by
  rw [f32Div_finite w (i32ToF32_finite 5000) (by decide) (by decide),
    f32Div_finite w (i32ToF32_finite 5000) (by decide) (by decide)]
  decide +kernel

theorem f32Gt0_example : f32Gt0 0x41200000 = true ∧ f32Gt0 0x43FA0000 = true := by decide

/-- Settles O41, by computing the two quotients. -/
theorem calibrateSourceExample : Obligations.CalibrateSourceExample := by
  intro s ch k hk hdiff
  refine ⟨_, _, exec_calibrate_accepted hk f32Gt0_example.1, State.chan_setChan_same hk _, ?scale, fun w => ?force⟩
  case scale => simp only [hdiff, f32Div_example]
  case force => simp only [hdiff, f32Div_example, instForce, f32Gt0_example, if_true]

/-! ## Isolation (R23, R126) -/

/-- Where CFG and a record that exists agree, the two states look the same to the events of that record. -/
theorem view_record_of_chan {s t : State} {c : ChanIx} {k : Channel} (hcfg : s.cfg = t.cfg) (hs : s.chan c = some k)
    (ht : t.chan c = some k) : (StatePart.record c).view s = (StatePart.record c).view t := by
  obtain ⟨-, ⟨rfl, hs0⟩ | ⟨rfl, hs1⟩⟩ := State.chan_some hs
  · obtain ⟨-, ⟨-, ht0⟩ | ⟨h, -⟩⟩ := State.chan_some ht
    · simp [StatePart.view, hcfg, ← hs0, ← ht0]
    · cases h
  · obtain ⟨-, ⟨h, -⟩ | ⟨-, ht1⟩⟩ := State.chan_some ht
    · cases h
    · simp [StatePart.view, hcfg, ← hs1, ← ht1]

/-- Settles O43: an operation stays in the part of its record, and does nothing where there is none. -/
theorem channelsAreIsolated : Obligations.ChannelsAreIsolated := by
  refine ⟨fun i c c' s t hi hne ht => ?others, fun i c s s' t t' hi hcfg hchan ht ht' => ?own⟩
  case others =>
    obtain rfl := exec_next ht
    exact effect_other_chan s hi hne
  case own =>
    obtain rfl := exec_next ht
    obtain rfl := exec_next ht'
    cases hk : s.chan c with
    | none =>
      rw [effect_missing hi hk, effect_missing hi (hchan ▸ hk)]
      exact ⟨hchan, rfl⟩
    | some k =>
      obtain ⟨hview, hout⟩ :=
        effect_view_congr (eventPart_record_iff.mpr hi) (view_record_of_chan hcfg hk (hchan ▸ hk))
      exact ⟨by rw [← chan_view, hview, chan_view], hout⟩

/-! ## NaN forces (R136) -/

theorem iirStep_of_nan (beta inst w : F32) {filt : F32} (h : f32IsNan filt = true) :
    f32IsNan (iirStep beta inst filt w) = true := by
  have hkept : f32IsNan (f32Mul (f32Sub f32One beta w) filt w) = true := by
    rw [f32Mul_nan_right h, f32IsNan_nan]
  rw [iirStep, f32Add_nan_right hkept, f32IsNan_nan]

/-- The force of a record after an event other than `INIT`: the old one, or a filter step from it. -/
theorem effect_filt {i : Instr} (hi : isInit i = false) {s : State} {c : ChanIx} {k : Channel}
    (hk : s.chan c = some k) : ∃ k', (effect i s).chan c = some k' ∧ (k'.filt = k.filt ∨
      ∃ diff w, k'.filt = iirStep s.cfg.beta (instForce k.scale diff w) k.filt w) := by
  obtain ⟨k', hk', hcases⟩ := effect_chan_some i hi hk
  refine ⟨k', hk', ?_⟩
  obtain rfl | ⟨_, _, _, -, rfl⟩ | ⟨-, rfl⟩ | ⟨_, -, rfl⟩ := hcases
  · exact .inl rfl
  · exact poll_filt ..
  · exact .inl rfl
  · exact .inl rfl

/-- Settles O44: a filter step from a NaN gives a NaN. -/
theorem nanForcePersists : Obligations.NanForcePersists := by
  intro i s t c k hk hnan hi ht
  obtain rfl := exec_next ht
  obtain ⟨k', hk', e | ⟨_, _, e⟩⟩ := effect_filt hi hk
  · exact ⟨k', hk', by rw [e, hnan]⟩
  · exact ⟨k', hk', by rw [e, iirStep_of_nan _ _ _ hnan]⟩

/-- Rounding stays at or below every pattern whose value the quotient does not exceed. -/
theorem roundMag_le_of_le {n d m : Nat} (hd : 0 < d) (h : n ≤ magUnits m * d) : roundMag n d ≤ m := by
  by_contra hgreater
  have hlt : m < roundPattern n d := lt_of_lt_of_le (not_le.mp hgreater) (min_le_left _ _)
  have hunits := magUnits_mul_lt hd hlt
  have hmid := (abs_sub_le_abs_sub_iff hunits).1.mp (roundPattern_nearest (n := n) hd m).1
  zify at h
  omega

theorem magUnits_one : magUnits (f32Mag f32One) = 2 ^ 149 := by decide +kernel

/-- A factor of magnitude at most 1 keeps a finite pattern finite. -/
theorem f32IsFinite_mul_of_le_one {x y : F32} (w : F32) (hx : f32Mag x ≤ f32Mag f32One) (hy : f32IsFinite y = true) :
    f32IsFinite (f32Mul x y w) = true := by
  have hfactor : magUnits (f32Mag x) ≤ 2 ^ 149 := magUnits_one ▸ magUnits_strictMono.monotone hx
  rw [f32Mul_finite w (decide_eq_true (lt_of_le_of_lt hx (by decide))) hy]
  refine f32IsFinite_pack _ (lt_of_le_of_lt (roundMag_le_of_le (by positivity) ?_) (of_decide_eq_true hy))
  rw [mul_comm]
  exact Nat.mul_le_mul_left _ hfactor

/-- `1 - BETA` lies between 0 and 1. -/
theorem f32Mag_sub_beta {beta : F32} (h : betaLegal beta = true) (w : F32) :
    f32Mag (f32Sub f32One beta w) ≤ f32Mag f32One := by
  obtain ⟨hneg, -, hle⟩ := (betaLegal_iff beta).mp h
  have hfinite : f32IsFinite (beta ^^^ f32NZero) = true := by
    rw [f32IsFinite_turn]
    exact ((betaLegal_iff_value beta).mp h).1
  rw [f32Sub, f32Add_finite w (by decide) hfinite, f32Mag_pack_of_le _ (roundMag_le _ _)]
  refine roundMag_le_of_le one_pos ?_
  have hunits := magUnits_strictMono.monotone hle
  have hone : f32Neg f32One = false := by decide
  rw [f32Units_turn]
  simp only [f32Units, hneg, hone, Bool.false_eq_true, if_false]
  omega

theorem f32Add_not_nan {x y : F32} (w : F32) (hx : f32IsNan x = false) (hy : f32IsFinite y = true) :
    f32IsNan (f32Add x y w) = false := by
  obtain ⟨hyn, hyi⟩ := f32IsFinite_iff_class.mp hy
  cases hinf : f32IsInf x with
  | true => rw [f32Add_inf_left w hinf hyn (by simp [hyi]), hx]
  | false =>
    rw [f32Add_finite w (f32IsFinite_iff_class.mpr ⟨hx, hinf⟩) hy]
    exact f32IsNan_pack _ (roundMag_le _ _)

theorem f32Mul_not_nan {x y : F32} (w : F32) (hx : f32IsFinite x = true) (h0 : f32Mag x ≠ 0)
    (hy : f32IsNan y = false) : f32IsNan (f32Mul x y w) = false := by
  cases hinf : f32IsInf y with
  | true =>
    rw [f32Mul_inf w (.inr ⟨hx, hinf⟩), if_neg (by simp [h0, f32Mag_ne_zero_of_inf hinf])]
    exact f32IsNan_pack _ le_rfl
  | false =>
    rw [f32Mul_finite w hx (f32IsFinite_iff_class.mpr ⟨hy, hinf⟩)]
    exact f32IsNan_pack _ (roundMag_le _ _)

theorem instForce_not_nan (scale : F32) (diff : I32) (w : F32) : f32IsNan (instForce scale diff w) = false := by
  unfold instForce
  split
  · exact f32Div_by_positive (i32ToF32_finite diff) ‹_› w
  · decide

/-- With a legal `BETA` the step from a finite force adds a finite term, so no infinities of unlike signs meet. -/
theorem iirStep_not_nan {beta inst filt : F32} (w : F32) (hbeta : betaLegal beta = true)
    (hinst : f32IsNan inst = false) (hfilt : f32IsFinite filt = true) :
    f32IsNan (iirStep beta inst filt w) = false := by
  obtain ⟨-, hpos, -⟩ := (betaLegal_iff beta).mp hbeta
  have hfinite := ((betaLegal_iff_value beta).mp hbeta).1
  exact f32Add_not_nan w (f32Mul_not_nan w hfinite hpos.ne' hinst)
    (f32IsFinite_mul_of_le_one w (f32Mag_sub_beta hbeta w) hfilt)

theorem cfgLegal_beta {c : Cfg} (h : cfgLegal c = true) : betaLegal c.beta = true :=
  (betaLegal_iff_value c.beta).mpr ((cfgLegal_iff c).mp h).2.2.1

/-- `INIT` makes every record that exists afresh (R150). -/
theorem effect_init_chan (a b z : Bool) (now : U32) (s : State) (c : ChanIx) :
    (effect (.init a b z now) s).chan c = (s.chan c).map fun k => k.initAt now := by
  rw [effect, State.chan_respond1]
  unfold State.chan
  rw [State.initAt_cfg, State.initAt_ch0, State.initAt_ch1]
  split
  · split
    · rw [if_pos (by omega)]; rfl
    · rw [if_pos (by omega)]; rfl
    · rfl
  · rfl

/-- Settles O45: `INIT` clears the force, and no other event makes a NaN of a finite one. -/
theorem nanForceOnlyFromInfinity : Obligations.NanForceOnlyFromInfinity := by
  intro i s t c k k' hc hk hfinite ht hk'
  obtain rfl := exec_next ht
  cases hi : isInit i with
  | true =>
    cases i with
    | init a b z now =>
      rw [effect_init_chan, hk, Option.map_some, Option.some_inj] at hk'
      rw [← hk']
      rfl
    | _ => cases hi
  | false =>
    obtain ⟨k'', hk'', hfilt⟩ := effect_filt hi hk
    obtain rfl : k'' = k' := Option.some.inj (hk''.symm.trans hk')
    obtain e | ⟨diff, w, e⟩ := hfilt
    · rw [e, (f32IsFinite_iff_class.mp hfinite).1]
    · rw [e, iirStep_not_nan w (cfgLegal_beta hc) (instForce_not_nan ..) hfinite]

end Sys2Proof.Proofs

namespace Sys2Proof.Proofs

open Sys2Proof.Machine Sys2Proof.Safety Sys2Proof.Laws

/-! ## `INIT` from any state (R150) -/

/-- A record that exists after `INIT` is one that existed before it, made afresh. -/
theorem chan_of_effect_init {a b z : Bool} {now : U32} {s : State} {c : ChanIx} {k : Channel}
    (h : (effect (.init a b z now) s).chan c = some k) : ∃ k₀, s.chan c = some k₀ ∧ k = k₀.initAt now := by
  rw [effect_init_chan, Option.map_eq_some_iff] at h
  obtain ⟨k₀, hk₀, e⟩ := h
  exact ⟨k₀, hk₀, e.symm⟩

/-- Settles O16: the block's own fields are literals and operands, and every record that exists is made afresh. -/
theorem initResult : Obligations.InitResult := by
  intro a b z now s
  refine ⟨effect (.init a b z now) s, exec_eq _ _, rfl, phaseState_toNat a b, rfl, rfl, rfl, rfl, rfl, rfl, rfl, rfl,
    fun ch => ⟨?existence, fun k hk => ?record⟩, rfl, rfl, rfl⟩
  case existence => rw [effect_init_chan, Option.isSome_map]
  case record =>
    obtain ⟨k₀, -, rfl⟩ := chan_of_effect_init hk
    exact ⟨rfl, rfl, rfl, rfl, rfl, rfl, rfl, rfl⟩

end Sys2Proof.Proofs

namespace Sys2Proof.Proofs

open Sys2Proof.Machine Sys2Proof.Safety Sys2Proof.Laws

/-! ## No step stops the block (R4, R160) -/

/-- Settles O11: there is no fault to raise, and only an illegal CFG is refused. -/
theorem everyStepGoesOn : Obligations.EveryStepGoesOn := by
  refine ⟨fun s hlegal => ?_, fun i s => ⟨effect i s, exec_eq i s⟩⟩
  cases hstep : step s with
  | next t => exact ⟨t, rfl⟩
  | fault r => cases r
  | refused r => exact absurd hstep (step_not_refused hlegal r)

/-! ## One clock cycle (R47, R168) -/

/-- Stepping through a presented trace folds the effects of its events. -/
theorem run_presentTrace (tr : List Instr) {s : State} (hc : cfgLegal s.cfg = true) (hin : s.input = []) :
    Host.Core.run core tr.length (s.presentTrace tr) = .next (tr.foldl (fun u i => effect i u) s) := by
  induction tr generalizing s with
  | nil =>
    have hnone : s.presentTrace [] = s := by simp [State.presentTrace, State.present]
    exact congrArg Host.Outcome.next hnone
  | cons i tr ih =>
    obtain ⟨hcfg, hinput⟩ := effect_cfg i s
    have hstep : core.step (s.presentTrace (i :: tr)) = .next ((effect i s).presentTrace tr) :=
      step_presentTrace_cons hc hin i tr
    exact (run_of_step hstep tr.length).trans (ih (hcfg ▸ hc) (hinput.trans hin))

/-- The position that `SET_POS` leaves is a function of CFG and of the value asked for. -/
theorem effect_setPos_position_congr {s t : State} (hcfg : s.cfg = t.cfg) (v : I64) :
    (effect (.setPos v) s).position = (effect (.setPos v) t).position := by
  cases hv : s.cfg.variant with
  | edge =>
    have hv' : t.cfg.variant = .edge := hcfg ▸ hv
    rw [effect_setPos_edge hv, effect_setPos_edge hv', State.position_edge (by exact hv),
      State.position_edge (by exact hv')]
    rfl
  | pcnt =>
    have hv' : t.cfg.variant = .pcnt := hcfg ▸ hv
    rw [effect_setPos_pcnt hv, effect_setPos_pcnt hv', position_setCounter_zero hv, position_setCounter_zero hv', hcfg]

theorem effect_position_of_not_writer {i : Instr} (s : State) (hw : Field.writers .pos i = false) :
    (effect i s).position = s.position := by
  obtain ⟨hpos, hreg, hovf⟩ := effect_position_unchanged s hw
  exact State.position_congr (effect_cfg i s).1 hpos hovf hreg

/-- After a count and a rising sample of the index line the latch is set, whatever it was. -/
theorem idxFlag_of_rising {s : State} (hlow : s.prevZ = false) (a b : Bool) (now : U32) :
    (effect (.index true) (effect (.phase a b now) s)).idxFlag = true := by
  have hlevel : (effect (.phase a b now) s).prevZ = false := (effect_phase_latch s a b now).2.trans hlow
  exact (effect_idxFlag_iff (i := .index true) nofun rfl _).mpr (.inr (by simp [risings, indexRises, hlevel]))

/-- Settles O57: stepping folds the effects of the cycle's events, and `INDEX` leaves the position and the edge timing
that `PHASE` made for the host operation to find. -/
theorem sameCycleOrder : Obligations.SameCycleOrder := by
  intro s a b z now hc hin
  obtain ⟨p, hp⟩ : ∃ p, p = effect (.phase a b now) s := ⟨_, rfl⟩
  obtain ⟨q, hq⟩ : ∃ q, q = effect (.index z) p := ⟨_, rfl⟩
  have hcfg : q.cfg = s.cfg := by rw [hq, hp, (effect_cfg _ _).1, (effect_cfg _ _).1]
  have hposition : q.position = p.position := hq ▸ effect_position_of_not_writer p rfl
  obtain ⟨hprev, htime, hinterval, hdir, hvalid⟩ : q.prev = p.prev ∧ q.lastEdgeT = p.lastEdgeT ∧
      q.lastInterval = p.lastInterval ∧ q.lastDir = p.lastDir ∧ q.edgeValid = p.edgeValid :=
    hq ▸ effect_edgeTiming_unchanged p rfl
  have hlines : Host.Core.run core 2 (s.present (cycleStimuli a b z now none)) = .next q := by
    rw [hq, hp]
    exact run_presentTrace (linesOp a b z now) hc hin
  have hcycle (i : Instr) :
      Host.Core.run core 3 (s.present (cycleStimuli a b z now (some (encode i)))) = .next (effect i q) := by
    rw [hq, hp]
    exact run_presentTrace (linesOp a b z now ++ [i]) hc hin
  refine ⟨p, q, hp ▸ exec_eq _ s, hq ▸ exec_eq _ p, hlines, fun i => ⟨effect i q, exec_eq i q, hcycle i,
    ?getPos, ?snapshot, ?resetPos, ?setPos, ?keepsTiming, ?getIndex, ?init⟩⟩
  case getPos =>
    rintro rfl
    rw [← hposition]
    rfl
  case snapshot =>
    rintro rfl
    rw [← hposition, ← hinterval, ← htime, ← hdir, ← hvalid, ← hcfg]
    exact ⟨rfl, rfl, snapshotR1_toNat q, snapshotR2_toNat q⟩
  case resetPos =>
    rintro rfl
    exact (effect_resetPos_out_position q).2
  case setPos =>
    rintro v rfl
    exact ⟨_, exec_eq _ s, effect_setPos_position_congr hcfg v⟩
  case keepsTiming =>
    intro hi
    have hwriter : Field.writers .prev i = false := by obtain rfl | ⟨v, rfl⟩ := hi <;> rfl
    rw [← hprev, ← htime, ← hinterval, ← hdir, ← hvalid]
    exact effect_edgeTiming_unchanged q hwriter
  case getIndex =>
    rintro rfl
    refine ⟨rfl, fun hlow hz => ?_⟩
    have hflag : q.idxFlag = true := by rw [hq, hp, hz]; exact idxFlag_of_rising hlow a b now
    simp [effect, hflag, laneOfBool]
  case init =>
    intro hi
    cases i with
    | init a' b' z' now' => exact ⟨effect_init_position q a' b' z' now', rfl, rfl⟩
    | _ => cases hi

end Sys2Proof.Proofs

namespace Sys2Proof.Proofs

open Sys2Proof.Machine Sys2Proof.Safety Sys2Proof.Laws

/-! ## The hardware reset (R180) -/

theorem step_hardReset {s : State} {rest : List Stimulus} (hlegal : cfgLegal s.cfg = true)
    (hinput : s.input = .reset :: rest) : step s = .next (State.hardReset { s with input := rest }) := by
  simp only [step, hlegal, if_true, State.fetch_cons hinput]

/-- But for the draw counter, which is the model's, a hardware reset and an `INIT` at time 0 leave the same record. -/
theorem specChannel_reset_eq_initAt (k : Channel) (n : Nat) :
    specChannel { Channel.reset with nanDraws := n } = specChannel (k.initAt 0) := rfl

theorem hardReset_sameSpecState_resetWith (s : State) : sameSpecState s.hardReset (State.resetWith s.cfg) :=
  ⟨rfl, rfl, rfl, rfl, rfl, rfl, rfl, rfl, rfl, rfl, State.chan_map_congr _ rfl (fun _ => rfl) (fun _ => rfl)⟩

/-- The zeros that this `INIT` latches are the reset values of `PREV`, `PREV_Z` and `LAST_FLUSH_T`; the input stream
plays no part. -/
theorem hardReset_sameSpecState_init (s : State) (rest : List Stimulus) :
    sameSpecState (State.hardReset { s with input := rest }) (effect (.init false false false 0) s) := by
  refine ⟨rfl, rfl, rfl, rfl, rfl, rfl, rfl, rfl, rfl, rfl,
    State.chan_map_congr _ rfl (fun h => ?first) (fun h => ?second)⟩
  case first =>
    rw [effect, State.respond1_ch0, State.initAt_ch0, if_pos (by exact h)]
    exact specChannel_reset_eq_initAt ..
  case second =>
    rw [effect, State.respond1_ch1, State.initAt_ch1, if_pos (by exact h)]
    exact specChannel_reset_eq_initAt ..

/-- Settles O15: the reset branch of `step` writes the reset values, and so does `INIT` with every operand 0. -/
theorem hardwareResetEqualsInitZero : Obligations.HardwareResetEqualsInitZero := fun s rest hlegal hinput =>
  ⟨_, _, step_hardReset hlegal hinput, exec_eq _ s, hardReset_sameSpecState_init s rest,
    hardReset_sameSpecState_resetWith _, rfl, rfl, rfl⟩

/-! ## The force of an uncalibrated channel (R128, R131, R192) -/

theorem instForce_uncalibrated {scale : F32} (h : f32Gt0 scale = false) (diff : I32) (w : F32) :
    instForce scale diff w = f32PZero := by
  rw [instForce, if_neg (by simp [h])]

theorem f32Mul_pzero {x : F32} (w : F32) (hx : f32IsFinite x = true) :
    f32Mul x f32PZero w = f32Pack (f32Neg x) 0 := by
  have hsign : f32Neg f32PZero = false := by decide
  have hunits : magUnits (f32Mag f32PZero) = 0 := by decide
  rw [f32Mul_finite w hx (by decide), hsign, hunits, Nat.mul_zero, roundMag_zero, Bool.bne_false]

/-- The sum of `+0.0` and a zero of either sign is `+0.0`. -/
theorem f32Add_pzero_zero (neg : Bool) (w : F32) : f32Add f32PZero (f32Pack neg 0) w = f32PZero := by
  cases neg <;> rfl

/-- Both terms of the step are zeros, and the one of `BETA` is `+0.0`, so the sign of `1 - BETA` does not matter. -/
theorem iirStep_pzero {beta : F32} (w : F32) (h : betaLegal beta = true) :
    iirStep beta f32PZero f32PZero w = f32PZero := by
  obtain ⟨hfinite, -, -⟩ := (betaLegal_iff_value beta).mp h
  obtain ⟨hsign, -, -⟩ := (betaLegal_iff beta).mp h
  have hrest : f32IsFinite (f32Sub f32One beta w) = true :=
    decide_eq_true (lt_of_le_of_lt (f32Mag_sub_beta h w) (by decide))
  have hinst : f32Mul beta f32PZero w = f32PZero := by rw [f32Mul_pzero w hfinite, hsign]; rfl
  rw [iirStep, hinst, f32Mul_pzero w hrest, f32Add_pzero_zero]

/-- Settles O46: a poll that flushes steps the filter from `+0.0` with the force `+0.0`. -/
theorem uncalibratedForceStaysZero : Obligations.UncalibratedForceStaysZero := by
  intro s t c ch k k' ready smp now hc hk hscale hzero ht hk'
  obtain rfl := exec_next ht
  obtain ⟨k'', hk'', hfilt⟩ := effect_filt (i := .lcPoll ch ready smp now) rfl hk
  obtain rfl : k'' = k' := Option.some.inj (hk''.symm.trans hk')
  obtain e | ⟨diff, w, e⟩ := hfilt
  · rw [e, hzero]
  · rw [e, instForce_uncalibrated hscale, hzero]
    exact iirStep_pzero w (cfgLegal_beta hc)

end Sys2Proof.Proofs
